-- ==== Sys2Proof/Word.lean ====
section
/-! DEFINITION. The bit-vector types of HuffCore and their plainest names (00_scope.md R7, R8). -/

namespace Sys2Proof

/-- A bus word, a register, a count or a command word: 32 bits (00_scope.md R7 `BUS_DATA_BITS`, `CNT_BITS`). -/
abbrev Word := BitVec 32

/-- One byte of a host text or of a packed stream (46_host_interface.md). -/
abbrev Byte := BitVec 8

/-- A symbol: an 8-bit value (00_scope.md R7 `SYM_BITS`). -/
abbrev Sym := BitVec 8

/-- A node id: a 9-bit value (00_scope.md R7 `NODE_ID_BITS`, 10_state.md R29). -/
abbrev NodeId := BitVec 9

/-- A byte address inside the register window: 14 bits (00_scope.md R7 `BUS_ADDR_BITS`, 20_memory.md R38). -/
abbrev Addr := BitVec 14

end Sys2Proof
end

