-- ==== Sys2Proof/Syntax.lean ====
section
/-! DEFINITION. The commands of HuffCore, one constructor per row of spec/opcode_table.json (30_encoding.md R60), and
the items of its assembly language (30_encoding.md R64). -/

namespace Sys2Proof

/-- A command (00_scope.md R10). Operands have exactly the width of their field (30_encoding.md R58, R59), so every term
is one the encoding admits. -/
inductive Instr where
  /-- `NOP` (40_control.md R66). -/
  | nop
  /-- `CLEAR` (40_control.md R67). -/
  | clear
  /-- `TAB_SYM s` (41_tabulator.md R70). -/
  | tabSym (sym : Sym)
  /-- `FREQ_LOAD s` (41_tabulator.md R71). -/
  | freqLoad (sym : Sym)
  /-- `BUILD_TREE` (42_tree_builder.md R76). -/
  | buildTree
  /-- `DERIVE_CODES` (43_code_deriver.md R79). -/
  | deriveCodes
  /-- `ENC_SYM s` (44_encoder.md R81). -/
  | encSym (sym : Sym)
  /-- `DEC_BIT b`: `false` is 0, "descend left", `true` is 1, "descend right" (45_decoder.md R84). -/
  | decBit (bit : Bool)
  /-- `DEC_END` (45_decoder.md R85). -/
  | decEnd
  deriving DecidableEq, Repr

/-- One item of an assembly line, its operands still plain numbers (30_encoding.md R64). -/
inductive AsmItem where
  | nop
  | clear
  | tabSym (sym : Nat)
  | freqLoad (sym : Nat)
  | buildTree
  | deriveCodes
  | encSym (sym : Nat)
  | decBit (bit : Nat)
  | decEnd
  /-- `WR addr, value`. -/
  | wr (addr value : Nat)
  /-- `RD addr`, with or without a name for its result. -/
  | rd (addr : Nat)
  deriving DecidableEq, Repr

end Sys2Proof
end

