-- ==== Sys2Proof/WellFormed.lean ====
section
/-! DEFINITION. Which terms are well formed: every `Instr` (its operand types are its fields), and the assembly items
whose operands are in range (30_encoding.md R64: "An operand out of range is an assembly error"). -/

namespace Sys2Proof

/-- A command is well formed when each operand fits its field (30_encoding.md R58, R59). -/
def Instr.wellFormed : Instr → Bool
  | .nop => true
  | .clear => true
  | .tabSym sym => decide (sym.toNat < 2 ^ 8)
  | .freqLoad sym => decide (sym.toNat < 2 ^ 8)
  | .buildTree => true
  | .deriveCodes => true
  | .encSym sym => decide (sym.toNat < 2 ^ 8)
  | .decBit bit => decide (bit.toNat < 2)
  | .decEnd => true

/-- An assembly item is well formed when each operand is in the range 30_encoding.md R64 gives it. -/
def AsmItem.wellFormed : AsmItem → Bool
  | .nop => true
  | .clear => true
  | .tabSym sym => decide (sym ≤ 255)
  | .freqLoad sym => decide (sym ≤ 255)
  | .buildTree => true
  | .deriveCodes => true
  | .encSym sym => decide (sym ≤ 255)
  | .decBit bit => decide (bit ≤ 1)
  | .decEnd => true
  | .wr addr value => decide (addr < 2 ^ 14) && decide (value < 2 ^ 32)
  | .rd addr => decide (addr < 2 ^ 14)

end Sys2Proof
end

