-- ==== Sys2Proof/Decode.lean ====
section
/-! DEFINITION. Decoding a command word, total and rejecting by name (30_encoding.md R57 to R61), and encoding a command,
both from the opcode map of 30_encoding.md R60. -/

namespace Sys2Proof

/-- Why a word is no command (30_encoding.md R61 gives these two cases). -/
inductive DecodeError where
  /-- `OP` is not listed: "every word with `OP` from `0x09` to `0xFF`". -/
  | reservedOpcode
  /-- "every word with a listed `OP` and a non-zero bit in a reserved field". -/
  | reservedField
  deriving DecidableEq, Repr

/-- `OP = w[31:24]` (30_encoding.md R57). -/
def opField (w : Word) : Nat := w.toNat / 2 ^ 24

/-- `w[23:0]`, the reserved field of format N (30_encoding.md R58). -/
def lowField (w : Word) : Nat := w.toNat % 2 ^ 24

/-- `SYM = w[7:0]` (30_encoding.md R59). -/
def symField (w : Word) : Sym := BitVec.ofNat 8 w.toNat

/-- `BIT = w[0]` (30_encoding.md R59). -/
def bitField (w : Word) : Bool := w.getLsbD 0

/-- Format N: no operand, bits 23..0 zero (30_encoding.md R58). -/
def decodeN (i : Instr) (w : Word) : Except DecodeError Instr :=
  if lowField w = 0 then .ok i else .error .reservedField

/-- Format S: bits 23..8 zero, SYM in bits 7..0 (30_encoding.md R58). -/
def decodeS (make : Sym → Instr) (w : Word) : Except DecodeError Instr :=
  if lowField w / 2 ^ 8 = 0 then .ok (make (symField w)) else .error .reservedField

/-- Format B: bits 23..1 zero, BIT in bit 0 (30_encoding.md R58). -/
def decodeB (make : Bool → Instr) (w : Word) : Except DecodeError Instr :=
  if lowField w / 2 = 0 then .ok (make (bitField w)) else .error .reservedField

/-- The command a word is, or why it is none (30_encoding.md R60, R61). -/
def decode (w : Word) : Except DecodeError Instr :=
  match opField w with
  | 0x00 => decodeN .nop w
  | 0x01 => decodeN .clear w
  | 0x02 => decodeS .tabSym w
  | 0x03 => decodeS .freqLoad w
  | 0x04 => decodeN .buildTree w
  | 0x05 => decodeN .deriveCodes w
  | 0x06 => decodeS .encSym w
  | 0x07 => decodeB .decBit w
  | 0x08 => decodeN .decEnd w
  | _ => .error .reservedOpcode

/-- The instruction the decoder reads from a table word. A command has 32 bits and one word (30_encoding.md R57), so
the bits the table numbers are the bits of `w`; a larger number is no command word (DESIGN CHOICE, log entry 20). -/
def decodeTableWord (nbits w : Nat) : Option Instr :=
  if nbits ≤ 32 ∧ w < 2 ^ 32 then
    match decode (BitVec.ofNat 32 w) with
    | .ok i => some i
    | .error _ => none
  else none

/-- `OP` of a command (30_encoding.md R60). -/
def Instr.opcode : Instr → Nat
  | .nop => 0x00
  | .clear => 0x01
  | .tabSym _ => 0x02
  | .freqLoad _ => 0x03
  | .buildTree => 0x04
  | .deriveCodes => 0x05
  | .encSym _ => 0x06
  | .decBit _ => 0x07
  | .decEnd => 0x08

/-- Bits 23..0 of a command: its operand above zeros (30_encoding.md R58). -/
def Instr.operand : Instr → Nat
  | .nop => 0
  | .clear => 0
  | .tabSym sym => sym.toNat
  | .freqLoad sym => sym.toNat
  | .buildTree => 0
  | .deriveCodes => 0
  | .encSym sym => sym.toNat
  | .decBit bit => bit.toNat
  | .decEnd => 0

/-- The word of a command (30_encoding.md R58, R60). -/
def encode (i : Instr) : Word := BitVec.ofNat 32 (i.opcode * 2 ^ 24 + i.operand)

/-- A row of the opcode map (30_encoding.md R60): "A word `w` is the command in a row exactly when
`(w & mask) == match`". -/
structure OpcodeRow where
  op : Nat
  pattern : Word
  mask : Word
  deriving DecidableEq, Repr

/-- The opcode map as 30_encoding.md R60 prints it. -/
def opcodeTable : List OpcodeRow :=
  [⟨0x00, 0x00000000#32, 0xFFFFFFFF#32⟩, ⟨0x01, 0x01000000#32, 0xFFFFFFFF#32⟩,
   ⟨0x02, 0x02000000#32, 0xFFFFFF00#32⟩, ⟨0x03, 0x03000000#32, 0xFFFFFF00#32⟩,
   ⟨0x04, 0x04000000#32, 0xFFFFFFFF#32⟩, ⟨0x05, 0x05000000#32, 0xFFFFFFFF#32⟩,
   ⟨0x06, 0x06000000#32, 0xFFFFFF00#32⟩, ⟨0x07, 0x07000000#32, 0xFFFFFFFE#32⟩,
   ⟨0x08, 0x08000000#32, 0xFFFFFFFF#32⟩]

/-- `(w & mask) == match` (30_encoding.md R60). -/
def OpcodeRow.holds (r : OpcodeRow) (w : Word) : Bool := (w &&& r.mask) == r.pattern

end Sys2Proof
end

