-- ==== Sys2Proof/Config.lean ====
section
/-! DEFINITION. What is fixed for this hardware (00_scope.md R7) and the values the spec leaves open. -/

namespace Sys2Proof.Config

/-- The `ID` register's constant (00_scope.md R2, 10_state.md R18). -/
def idValue : Word := 0x48554631#32

/-- `TOTAL_MAX`: the largest sum of all counts (00_scope.md R7). -/
def totalMax : Nat := 2 ^ 32 - 1

/-- `MAXLEN`: the longest possible code (00_scope.md R7). -/
def maxLen : Nat := 255

/-- One less than the OPEN parameter `FIFO_DEPTH` (00_scope.md R7; 93_implementation_defined.md U7). UNVERIFIED: no
value is given, so it has no body (UNVERIFIED, log entry 4). -/
opaque fifoDepthLessOne : Nat

/-- The OPEN parameter `FIFO_DEPTH`, "at least 1" (00_scope.md R7, 20_memory.md R50; UNVERIFIED, log entry 4). -/
def fifoDepth : Nat := fifoDepthLessOne + 1

/-- The OPEN parameter `BASE`: where the platform places the 16 KiB window (20_memory.md R38; UNVERIFIED, log entry 9). -/
opaque base : Nat

/-- Free value: the response, if any, that the host gets to a request whose execution a reset cut short, as
`(rsp_rdata, rsp_err)` (70_reset_and_hazards.md R114; 93_implementation_defined.md U3; DESIGN CHOICE, log entry 5). -/
opaque cutResponse : Nat → Option (Word × Bool)

end Sys2Proof.Config
end

