-- ==== Sys2Proof/Machine/State.lean ====
section
/-! DEFINITION. The state of HuffCore as plain data, the reasons a step can stop, and the state after reset
(10_state.md R13; 70_reset_and_hazards.md R112). -/

namespace Sys2Proof.Machine

/-- `PHASE` (10_state.md R23). The value 3 is never written, so it is no constructor (DEDUCED, log entry 12). -/
inductive Phase where
  /-- COLLECT = 0. -/
  | collect
  /-- TREE = 1. -/
  | tree
  /-- CODED = 2. -/
  | coded
  deriving DecidableEq, Repr

/-- `ERR` (10_state.md R20, 60_exceptions.md R98). The codes 9 to 15 are never written, so they are no constructors
(DEDUCED, log entry 12). -/
inductive ErrCode where
  | none
  | illegalCmd
  | phaseErr
  | countOverflow
  | badCount
  | duplicate
  | missingCode
  | truncated
  | emptyTree
  deriving DecidableEq, Repr

/-- A host bus request (20_memory.md R37: `req_write`, `req_addr`, `req_wdata`, `req_be`). -/
structure BusReq where
  write : Bool
  addr : Addr
  wdata : Word
  be : BitVec 4
  deriving DecidableEq, Repr

/-- A bus response (20_memory.md R37: `rsp_rdata`, `rsp_err`). -/
structure BusRsp where
  rdata : Word
  err : Bool
  deriving DecidableEq, Repr

/-- Which agent moves next (00_scope.md R12; the model's own, DESIGN CHOICE, log entry 1). -/
inductive Turn where
  /-- The block accepts the host's oldest request, if it can (20_memory.md R51). -/
  | host
  /-- The `obit` consumer takes one bit (20_memory.md R50). -/
  | takeObit
  /-- The `osym` consumer takes one symbol (20_memory.md R50). -/
  | takeOsym
  /-- `rst` is asserted, perhaps while a command waits for a port (70_reset_and_hazards.md R112, R114). -/
  | assertReset
  /-- `rst` is asserted while a request is being executed, after the consumers have taken `obitTakes` and `osymTakes` items
  of its execution (70_reset_and_hazards.md R114). -/
  | cutByReset (obitTakes osymTakes : Nat)
  /-- `rst` is released (70_reset_and_hazards.md R112, R115). -/
  | releaseReset
  deriving DecidableEq, Repr

/-- The machine. The first seventeen fields are the architectural state of 10_state.md R13, in its order; the others are
the hidden state of 10_state.md R35 and the pins of 20_memory.md R37. -/
structure State where
  /-- `ARG` (10_state.md R16). -/
  arg : Word
  /-- `PHASE` (10_state.md R23). -/
  phase : Phase
  /-- `ERR` (10_state.md R20). -/
  err : ErrCode
  /-- `ERRCMD` (10_state.md R25). -/
  errcmd : Word
  /-- `ERRARG` (10_state.md R25). -/
  errarg : Word
  /-- `FREQ[s]` (10_state.md R21). -/
  freq : Vector Word 256
  /-- `ROOT` (10_state.md R26). -/
  root : NodeId
  /-- `NINT` (10_state.md R27). -/
  nint : BitVec 8
  /-- `INT_LEFT[k]` (10_state.md R28). -/
  intLeft : Vector NodeId 255
  /-- `INT_RIGHT[k]` (10_state.md R28). -/
  intRight : Vector NodeId 255
  /-- `INT_FREQ[k]` (10_state.md R28). -/
  intFreq : Vector Word 255
  /-- `CODE_LEN[s]` (10_state.md R30). -/
  codeLen : Vector (BitVec 8) 256
  /-- `CODE_BITS[s]` (10_state.md R31). -/
  codeBits : Vector (BitVec 256) 256
  /-- `DEC_PTR` (10_state.md R32). -/
  decPtr : NodeId
  /-- `ENC_BITCNT` (10_state.md R33). -/
  encBitcnt : BitVec 64
  /-- The `obit` stream since reset, first item first (10_state.md R34; DEDUCED, log entry 3). -/
  obit : List Bool
  /-- The `osym` stream since reset, first item first (10_state.md R34; DEDUCED, log entry 3). -/
  osym : List Sym
  /-- How many items of `obit` the consumer has taken (20_memory.md R50, 10_state.md R35). -/
  obitTaken : Nat
  /-- How many items of `osym` the consumer has taken (20_memory.md R50, 10_state.md R35). -/
  osymTaken : Nat
  /-- What the `obit` consumer took before the last reset: "An item the consumer has already taken stays taken"
  (70_reset_and_hazards.md R113; DEDUCED, log entry 7). -/
  obitPast : List Bool
  /-- What the `osym` consumer took before the last reset (70_reset_and_hazards.md R113; DEDUCED, log entry 7). -/
  osymPast : List Sym
  /-- A command waits for room in a port buffer; its `CMD` write has no response yet (20_memory.md R50, R51). -/
  busy : Bool
  /-- The `rst` pin (20_memory.md R37). -/
  rst : Bool
  /-- The host's requests that are not yet accepted, oldest first (20_memory.md R37, R51). -/
  requests : List BusReq
  /-- The responses sent, oldest first (20_memory.md R37). -/
  responses : List BusRsp
  /-- Which agent moves next (DESIGN CHOICE, log entry 1). -/
  turns : List Turn
  /-- The index of the next free value (DESIGN CHOICE, log entry 5). -/
  freeIx : Nat
  deriving DecidableEq, Repr

/-- The reasons the model stops with a fault. Both arise only in states that violate 10_state.md R32 or R36, which no
run reaches; both are SAFE: the model stops where the spec gives no effect (DEDUCED, log entry 8). -/
inductive Fault where
  /-- Raised by DEC_BIT when ROOT is internal and DEC_PTR names no internal node (10_state.md R32 says it always
  does). Safe. -/
  | decPtrNotInternal
  /-- Raised by DERIVE_CODES when the node arrays are no tree of depth at most `MAXLEN` (43_code_deriver.md R79,
  42_tree_builder.md R77 say they always are). Safe. -/
  | malformedTree
  deriving DecidableEq, Repr

/-- The reasons the model refuses. -/
inductive Refusal where
  /-- Raised by an arm of `exec` whose instruction has no meaning yet; no arm of this model does. Safe. -/
  | notModelled (mnemonic : String)
  deriving DecidableEq, Repr

/-- The machine right after reset (70_reset_and_hazards.md R112, R113). The values of `obitPast`, `osymPast` and of the
last five fields are the model's own (DESIGN CHOICE, log entries 1, 2, 5, 6 and 7). -/
def State.reset : State where
  arg := 0#32
  phase := .collect
  err := .none
  errcmd := 0#32
  errarg := 0#32
  freq := Vector.replicate 256 0#32
  root := 511#9
  nint := 0#8
  intLeft := Vector.replicate 255 0#9
  intRight := Vector.replicate 255 0#9
  intFreq := Vector.replicate 255 0#32
  codeLen := Vector.replicate 256 0#8
  codeBits := Vector.replicate 256 0#256
  decPtr := 511#9
  encBitcnt := 0#64
  obit := []
  osym := []
  obitTaken := 0
  osymTaken := 0
  obitPast := []
  osymPast := []
  busy := false
  rst := false
  requests := []
  responses := []
  turns := []
  freeIx := 0

end Sys2Proof.Machine
end

