-- ==== Sys2Proof/Machine/Operands.lean ====
section
/-! DEFINITION. Node ids, the operand forms of 30_encoding.md R59, and the numeric codes of PHASE and ERR. -/

namespace Sys2Proof.Machine

/-- `NIL`, "no node" (10_state.md R29). -/
def nilId : NodeId := 511#9

/-- The id of the leaf of symbol `s`: `zext_9(SYM)` (10_state.md R29, 30_encoding.md R59). -/
def leafId (s : Sym) : NodeId := s.setWidth 9

/-- The id of internal node `k`: `256 + k` (10_state.md R29). -/
def internalId (k : Nat) : NodeId := BitVec.ofNat 9 (256 + k)

/-- `is_leaf(id)`: `id < 256` (00_scope.md R9). -/
def isLeaf (id : NodeId) : Bool := decide (id.toNat < 256)

/-- `is_internal(id)`: `256 <= id <= 510` (00_scope.md R9). -/
def isInternal (id : NodeId) : Bool := decide (256 ≤ id.toNat ∧ id.toNat ≤ 510)

/-- The symbol of a leaf id (10_state.md R29: "A leaf's id is its symbol code"). -/
def leafSym (id : NodeId) : Sym := id.setWidth 8

/-- The index `k` of an internal node's id, where it names one (10_state.md R29). -/
def internalIx (id : NodeId) : Option (Fin 255) :=
  if h : 256 ≤ id.toNat ∧ id.toNat ≤ 510 then some ⟨id.toNat - 256, by omega⟩ else none

/-- `COUNT = ARG`, read by FREQ_LOAD only (30_encoding.md R59). -/
def countOperand (s : State) : Word := s.arg

/-- The 2-bit code of PHASE (10_state.md R23). -/
def Phase.code : Phase → BitVec 2
  | .collect => 0#2
  | .tree => 1#2
  | .coded => 2#2

/-- The 4-bit code of ERR (60_exceptions.md R98). -/
def ErrCode.code : ErrCode → BitVec 4
  | .none => 0#4
  | .illegalCmd => 1#4
  | .phaseErr => 2#4
  | .countOverflow => 3#4
  | .badCount => 4#4
  | .duplicate => 5#4
  | .missingCode => 6#4
  | .truncated => 7#4
  | .emptyTree => 8#4

/-- The phases each command is legal in while `ERR == NONE` (30_encoding.md R62). -/
def legalIn : Instr → Phase → Bool
  | .nop, _ => true
  | .clear, _ => true
  | .tabSym _, p => p == .collect
  | .freqLoad _, p => p == .collect
  | .buildTree, p => p == .collect
  | .deriveCodes, p => p == .tree
  | .encSym _, p => p == .coded
  | .decBit _, p => p != .collect
  | .decEnd, p => p != .collect

end Sys2Proof.Machine
end

