-- ==== Sys2Proof/Machine/Ops.lean ====
section
/-! DEFINITION. The named operations over HuffCore's registers, arrays and streams that the meanings share, and taking
an error (60_exceptions.md R99), which is this block's one kind of exception. There is no return from it: CLEAR and reset
leave it (60_exceptions.md R102). -/

namespace Sys2Proof.Machine

/-- The outcome of a meaning. -/
abbrev Result := Host.Outcome State Fault Refusal

/-- Goes on from a next state; a fault or a refusal stays. -/
def onNext (r : Result) (f : State → Result) : Result :=
  match r with
  | .next s => f s
  | .fault e => .fault e
  | .refused e => .refused e

/-! ## Arrays -/

/-- Entry `s` of an array over the symbols (10_state.md R21, R30, R31). -/
def symGet {α : Type} (t : Vector α 256) (s : Sym) : α := t[s.toNat]'s.isLt

/-- The array with entry `s` replaced. -/
def symSet {α : Type} (t : Vector α 256) (s : Sym) (v : α) : Vector α 256 := t.set s.toNat v s.isLt

/-- Entry `k` of an array over the internal nodes (10_state.md R28). -/
def nodeGet {α : Type} (t : Vector α 255) (k : Fin 255) : α := t[k.val]'k.isLt

/-- The array whose entry `k` is `f k`. -/
def tabulate {α : Type} (n : Nat) (f : Nat → α) : Vector α n :=
  ⟨((List.range n).map f).toArray, by simp⟩

/-- Every symbol, in ascending order (00_scope.md R7: the alphabet is 0..255). -/
def allSyms : List Sym := (List.range 256).map (BitVec.ofNat 8)

/-! ## The FrequencyTable and its views -/

/-- `FREQ[s]` (10_state.md R21). -/
def State.freqAt (s : State) (x : Sym) : Word := symGet s.freq x

/-- `FREQ[s] <- v` (10_state.md R21). -/
def State.setFreq (s : State) (x : Sym) (v : Word) : State := { s with freq := symSet s.freq x v }

/-- The present symbols, ascending: those with a non-zero count (10_state.md R21, 42_tree_builder.md R76 `P`). -/
def presentSyms (f : Vector Word 256) : List Sym := allSyms.filter (fun x => symGet f x != 0#32)

/-- The exact sum of all counts (10_state.md R22). -/
def totalOf (f : Vector Word 256) : Nat := (allSyms.map (fun x => (symGet f x).toNat)).sum

/-- `NSYM` (10_state.md R22). -/
def State.nsym (s : State) : Nat := (presentSyms s.freq).length

/-- `TOTAL`, "computed exactly" (10_state.md R22). -/
def State.total (s : State) : Nat := totalOf s.freq

/-! ## The tree and the CodeTable -/

/-- What BUILD_TREE builds and DERIVE_CODES and DEC_BIT read (10_state.md R26, R27, R28). -/
structure Tree where
  root : NodeId
  nint : BitVec 8
  left : Vector NodeId 255
  right : Vector NodeId 255
  freq : Vector Word 255
  deriving DecidableEq, Repr

/-- The tree of a state. -/
def State.tree (s : State) : Tree := ⟨s.root, s.nint, s.intLeft, s.intRight, s.intFreq⟩

/-- Writes every tree register (42_tree_builder.md R76). -/
def State.setTree (s : State) (t : Tree) : State :=
  { s with root := t.root, nint := t.nint, intLeft := t.left, intRight := t.right, intFreq := t.freq }

/-- `(b == 0) ? INT_LEFT[k] : INT_RIGHT[k]` (45_decoder.md R84). -/
def Tree.child (t : Tree) (k : Fin 255) (b : Bool) : NodeId :=
  if b then nodeGet t.right k else nodeGet t.left k

/-- The CodeTable: `CODE_LEN` and `CODE_BITS` (10_state.md R30, R31). -/
structure CodeTable where
  len : Vector (BitVec 8) 256
  bits : Vector (BitVec 256) 256
  deriving DecidableEq, Repr

/-- The CodeTable of a state. -/
def State.codes (s : State) : CodeTable := ⟨s.codeLen, s.codeBits⟩

/-- Writes the CodeTable (43_code_deriver.md R79). -/
def State.setCodes (s : State) (c : CodeTable) : State := { s with codeLen := c.len, codeBits := c.bits }

/-- The CodeTable with every entry 0 (40_control.md R67, 43_code_deriver.md R79). -/
def CodeTable.zero : CodeTable := ⟨Vector.replicate 256 0#8, Vector.replicate 256 0#256⟩

/-- The bit string of symbol `x`: the first `CODE_LEN[x]` bits of `CODE_BITS[x]`, bit 0 first (10_state.md R31). -/
def CodeTable.code (c : CodeTable) (x : Sym) : List Bool :=
  (List.range (symGet c.len x).toNat).map (fun i => (symGet c.bits x).getLsbD i)

/-- `code(x)` in a state (44_encoder.md R82). -/
def State.code (s : State) (x : Sym) : List Bool := s.codes.code x

/-! ## The ports -/

/-- `emit_bit` of each bit in turn (00_scope.md R9, 10_state.md R34). -/
def State.emitBits (s : State) (bs : List Bool) : State := { s with obit := s.obit ++ bs }

/-- `emit_sym(x)` (00_scope.md R9, 10_state.md R34). -/
def State.emitSym (s : State) (x : Sym) : State := { s with osym := s.osym ++ [x] }

/-! ## Errors -/

/-- `raise E(w)`: the error capture (60_exceptions.md R99). It writes `ERR`, `ERRCMD` and `ERRARG`, and nothing else. -/
def raise (e : ErrCode) (w : Word) (s : State) : Result :=
  .next { s with err := e, errcmd := w, errarg := s.arg }

/-- The dispatch checks before a command's own rule (30_encoding.md R63): while `ERR != NONE` the command is discarded;
in a phase it is not legal in it raises PHASE_ERR. NOP and CLEAR do not pass through here. -/
def gated (i : Instr) (s : State) (body : Result) : Result :=
  if s.err ≠ .none then .next s
  else if legalIn i s.phase then body
  else raise .phaseErr (encode i) s

/-- What issuing a word that is no command does (30_encoding.md R61, R63): it is discarded while `ERR != NONE`, else it
raises ILLEGAL_CMD. -/
def issueIllegal (w : Word) (s : State) : Result :=
  if s.err ≠ .none then .next s else raise .illegalCmd w s

/-! ## A new session -/

/-- What CLEAR writes (40_control.md R67): everything of 10_state.md R13 but `ARG` and the two streams. -/
def State.cleared (s : State) : State :=
  { s with
    freq := Vector.replicate 256 0#32
    codeLen := Vector.replicate 256 0#8
    codeBits := Vector.replicate 256 0#256
    intLeft := Vector.replicate 255 0#9
    intRight := Vector.replicate 255 0#9
    intFreq := Vector.replicate 255 0#32
    root := nilId
    nint := 0#8
    decPtr := nilId
    encBitcnt := 0#64
    err := .none
    errcmd := 0#32
    errarg := 0#32
    phase := .collect }

end Sys2Proof.Machine
end

