-- ==== Sys2Proof/Machine/Flags.lean ====
section
/-! DEFINITION. The status bits, each a function of the state (10_state.md R19). HuffCore has no condition codes. -/

namespace Sys2Proof.Machine

/-- One bit of a word: 1 at position `n` when `b`. -/
def flagBit (n : Nat) (b : Bool) : Word := if b then 1#32 <<< n else 0#32

/-- `STATUS.ERR_ANY` (10_state.md R19). -/
def State.errAny (s : State) : Bool := s.err != .none

/-- `STATUS.DEC_AT_ROOT` (10_state.md R19, 45_decoder.md R86). -/
def State.decAtRoot (s : State) : Bool := s.decPtr == s.root

/-- `STATUS.TREE_EMPTY` (10_state.md R19). -/
def State.treeEmpty (s : State) : Bool := s.phase != .collect && s.root == nilId

/-- `STATUS.TREE_LEAF` (10_state.md R19). -/
def State.treeLeaf (s : State) : Bool := s.phase != .collect && isLeaf s.root

/-- The `STATUS` register (10_state.md R19). -/
def State.status (s : State) : Word :=
  s.phase.code.setWidth 32 ||| flagBit 2 s.errAny ||| flagBit 3 s.decAtRoot ||| flagBit 4 s.treeEmpty
    ||| flagBit 5 s.treeLeaf

end Sys2Proof.Machine
end

