-- ==== Sys2Proof/Machine/CodeDeriver.lean ====
section
/-! DEFINITION. The Code Table Deriver (43_code_deriver.md). -/

namespace Sys2Proof.Machine

/-- Bit `i` of `v` set to `b`. -/
def setBit (v : BitVec 256) (i : Nat) (b : Bool) : BitVec 256 :=
  if b then v ||| BitVec.twoPow 256 i else v &&& ~~~(BitVec.twoPow 256 i)

/-- `for i in 0..len(c)-1: CODE_BITS[id][i] <- c[i]`, from index `i` on (43_code_deriver.md R79). -/
def writeCode : List Bool → Nat → BitVec 256 → BitVec 256
  | [], _, v => v
  | b :: bs, i, v => writeCode bs (i + 1) (setBit v i b)

/-- Records the code `c` of symbol `x` (43_code_deriver.md R79, the leaf case of `walk`). -/
def CodeTable.record (t : CodeTable) (x : Sym) (c : List Bool) : CodeTable :=
  { len := symSet t.len x (BitVec.ofNat 8 c.length), bits := symSet t.bits x (writeCode c 0 (symGet t.bits x)) }

/-- `walk(id, c)` (43_code_deriver.md R79), with the number of levels it may still visit: a tree of 256 leaves has depth
at most `MAXLEN` = 255 (00_scope.md R7), so 256 levels reach every leaf. `none` where the node arrays are no such tree
(DEDUCED, log entry 8). -/
def walk (t : Tree) : Nat → NodeId → List Bool → CodeTable → Option CodeTable
  | 0, _, _, _ => none
  | levels + 1, id, c, acc =>
    if isLeaf id then some (acc.record (leafSym id) c)
    else
      match internalIx id with
      | none => none
      | some k =>
        match walk t levels (t.child k false) (c ++ [false]) acc with
        | none => none
        | some acc' => walk t levels (t.child k true) (c ++ [true]) acc'

/-- The CodeTable of a tree (43_code_deriver.md R79): empty for the empty tree, the code "0" for a degenerate one. -/
def deriveCodes (t : Tree) : Option CodeTable :=
  if t.root = nilId then some CodeTable.zero
  else if isLeaf t.root then some (CodeTable.zero.record (leafSym t.root) [false])
  else walk t (Config.maxLen + 1) t.root [] CodeTable.zero

/-- `DERIVE_CODES` (43_code_deriver.md R79). -/
def execDeriveCodes (s : State) : Result :=
  gated .deriveCodes s <|
    match deriveCodes s.tree with
    | some c => .next { s.setCodes c with phase := .coded }
    | none => .fault .malformedTree

end Sys2Proof.Machine
end

