-- ==== Sys2Proof/Machine/Control.lean ====
section
/-! DEFINITION. The control commands (40_control.md). -/

namespace Sys2Proof.Machine

/-- `NOP` (40_control.md R66): no effect, in every phase and while `ERR != NONE`. -/
def execNop (s : State) : Result := .next s

/-- `CLEAR` (40_control.md R67): a new session, in every phase and while `ERR != NONE`. -/
def execClear (s : State) : Result := .next s.cleared

end Sys2Proof.Machine
end

