-- ==== Sys2Proof/Machine/Decoder.lean ====
section
/-! DEFINITION. The Decoder (45_decoder.md): move, then test for a leaf (90_conflicts.md C3). -/

namespace Sys2Proof.Machine

/-- What the decoder does at the node `nxt` it has moved to (45_decoder.md R84). -/
def arriveAt (nxt : NodeId) (s : State) : State :=
  if isLeaf nxt then { s.emitSym (leafSym nxt) with decPtr := s.root } else { s with decPtr := nxt }

/-- `DEC_BIT b` (45_decoder.md R84). A degenerate root emits its symbol on either bit (90_conflicts.md C5). -/
def execDecBit (b : Bool) (s : State) : Result :=
  gated (.decBit b) s <|
    if s.root = nilId then raise .emptyTree (encode (.decBit b)) s
    else if isLeaf s.root then .next (s.emitSym (leafSym s.root))
    else
      match internalIx s.decPtr with
      | some k => .next (arriveAt (s.tree.child k b) s)
      | none => .fault .decPtrNotInternal

/-- `DEC_END` (45_decoder.md R85). -/
def execDecEnd (s : State) : Result :=
  gated .decEnd s <|
    if s.decPtr ≠ s.root then raise .truncated (encode .decEnd) s else .next s

end Sys2Proof.Machine
end

