-- ==== Sys2Proof/Machine/Encoder.lean ====
section
/-! DEFINITION. The Encoder (44_encoder.md). -/

namespace Sys2Proof.Machine

/-- `ENC_SYM x` (44_encoder.md R81). -/
def execEncSym (x : Sym) (s : State) : Result :=
  gated (.encSym x) s <|
    if symGet s.codeLen x = 0#8 then raise .missingCode (encode (.encSym x)) s
    else .next { s.emitBits (s.code x) with encBitcnt := s.encBitcnt + (symGet s.codeLen x).setWidth 64 }

end Sys2Proof.Machine
end

