-- ==== Sys2Proof/Machine/Tabulator.lean ====
section
/-! DEFINITION. The Frequency Tabulator's commands (41_tabulator.md). -/

namespace Sys2Proof.Machine

/-- `TAB_SYM x` (41_tabulator.md R70). -/
def execTabSym (x : Sym) (s : State) : Result :=
  gated (.tabSym x) s <|
    if s.total + 1 > Config.totalMax then raise .countOverflow (encode (.tabSym x)) s
    else .next (s.setFreq x (s.freqAt x + 1#32))

/-- `FREQ_LOAD x` (41_tabulator.md R71). -/
def execFreqLoad (x : Sym) (s : State) : Result :=
  gated (.freqLoad x) s <|
    if countOperand s = 0#32 then raise .badCount (encode (.freqLoad x)) s
    else if s.freqAt x ≠ 0#32 then raise .duplicate (encode (.freqLoad x)) s
    else if s.total + (countOperand s).toNat > Config.totalMax then
      raise .countOverflow (encode (.freqLoad x)) s
    else .next (s.setFreq x (countOperand s))

end Sys2Proof.Machine
end

