-- ==== Sys2Proof/Machine/TreeBuilder.lean ====
section
/-! DEFINITION. The Tree Builder (42_tree_builder.md): the min-priority collection, the merge loop and BUILD_TREE. -/

namespace Sys2Proof.Machine

/-- A node in the priority collection with its key `(f, id)` (42_tree_builder.md R74). The frequency is the exact sum
(DEDUCED, log entry 14). -/
structure QNode where
  f : Nat
  id : Nat
  deriving DecidableEq, Repr

/-- `(f1, id1) < (f2, id2)`, lexicographically (42_tree_builder.md R74). -/
def QNode.before (a b : QNode) : Bool := decide (a.f < b.f) || (a.f == b.f && decide (a.id < b.id))

/-- The element with the smallest key of `x` and the rest (00_scope.md R9 `min_key`). -/
def minKey : QNode → List QNode → QNode
  | x, [] => x
  | x, y :: ys => minKey (if y.before x then y else x) ys

/-- `a := min_key(Q); Q := Q \ {a}` (42_tree_builder.md R76), where `Q` is not empty. -/
def extractMin : List QNode → Option (QNode × List QNode)
  | [] => none
  | x :: xs => some (minKey x xs, (x :: xs).erase (minKey x xs))

/-- One internal node as the merge loop creates it: its children's ids and its frequency (10_state.md R28). -/
structure MergedNode where
  left : Nat
  right : Nat
  f : Nat
  deriving DecidableEq, Repr

/-- The merge loop of 42_tree_builder.md R76: `n` merges, the first creating internal node `k`. The first extracted is
the left child (42_tree_builder.md R75). "Q never runs short of two nodes inside the loop", so the arms `none` end a
loop that 42_tree_builder.md R76 never enters. -/
def mergeLoop : Nat → Nat → List QNode → List MergedNode
  | 0, _, _ => []
  | n + 1, k, q =>
    match extractMin q with
    | none => []
    | some (a, q1) =>
      match extractMin q1 with
      | none => []
      | some (b, q2) => ⟨a.id, b.id, a.f + b.f⟩ :: mergeLoop n (k + 1) (⟨a.f + b.f, 256 + k⟩ :: q2)

/-- `Q := { (FREQ[s], s) for s in P }` (42_tree_builder.md R76). -/
def leafQueue (f : Vector Word 256) : List QNode :=
  (presentSyms f).map (fun x => ⟨(symGet f x).toNat, x.toNat⟩)

/-- The internal nodes, in the order of their creation (42_tree_builder.md R76): one fewer than the present symbols. -/
def mergedNodes (f : Vector Word 256) : List MergedNode :=
  mergeLoop ((presentSyms f).length - 1) 0 (leafQueue f)

/-- `ROOT` for the present symbols `P` (42_tree_builder.md R76). -/
def rootOf : List Sym → NodeId
  | [] => nilId
  | [x] => leafId x
  | _ :: _ :: rest => internalId rest.length

/-- The canonical tree of a FrequencyTable (42_tree_builder.md R76). Entries `k >= NINT` are 0 (10_state.md R28). -/
def buildTree (f : Vector Word 256) : Tree :=
  let nodes := mergedNodes f
  { root := rootOf (presentSyms f)
    nint := BitVec.ofNat 8 ((presentSyms f).length - 1)
    left := tabulate 255 (fun k => (nodes[k]?).elim 0#9 (fun m => BitVec.ofNat 9 m.left))
    right := tabulate 255 (fun k => (nodes[k]?).elim 0#9 (fun m => BitVec.ofNat 9 m.right))
    freq := tabulate 255 (fun k => (nodes[k]?).elim 0#32 (fun m => BitVec.ofNat 32 m.f)) }

/-- `BUILD_TREE` (42_tree_builder.md R76). -/
def execBuildTree (s : State) : Result :=
  gated .buildTree s <|
    .next { s.setTree (buildTree s.freq) with decPtr := (buildTree s.freq).root, phase := .tree }

end Sys2Proof.Machine
end

