-- ==== Sys2Proof/Machine/Dispatch.lean ====
section
/-! DEFINITION. The meaning of each command, one arm per constructor (30_encoding.md R60). -/

namespace Sys2Proof.Machine

def exec (i : Instr) (s : State) : Host.Outcome State Fault Refusal :=
  match i with
  | .nop => Sys2Proof.Machine.execNop s
  | .clear => Sys2Proof.Machine.execClear s
  | .tabSym sym => Sys2Proof.Machine.execTabSym sym s
  | .freqLoad sym => Sys2Proof.Machine.execFreqLoad sym s
  | .buildTree => Sys2Proof.Machine.execBuildTree s
  | .deriveCodes => Sys2Proof.Machine.execDeriveCodes s
  | .encSym sym => Sys2Proof.Machine.execEncSym sym s
  | .decBit bit => Sys2Proof.Machine.execDecBit bit s
  | .decEnd => Sys2Proof.Machine.execDecEnd s

end Sys2Proof.Machine
end

