-- ==== Sys2Proof/Machine/Issue.lean ====
section
/-! DEFINITION. Issuing command words and running lists of commands (30_encoding.md R63, 20_memory.md R51). -/

namespace Sys2Proof.Machine

/-- `issue(w)` (30_encoding.md R63). The check of `ERR` stands in each meaning and in `issueIllegal`, so that `exec` alone is
right in every state. Each command has one word (30_encoding.md R60), so the word an error captures is `encode` of the
command. -/
def issue (w : Word) (s : State) : Result :=
  match decode w with
  | .ok i => exec i s
  | .error _ => issueIllegal w s

/-- The commands of a list, one after another (20_memory.md R51). -/
def execAll : List Instr → State → Result
  | [], s => .next s
  | i :: is, s => onNext (exec i s) (execAll is)

end Sys2Proof.Machine
end

