-- ==== Sys2Proof/Machine/Bus.lean ====
section
/-! DEFINITION. The register window and the bus accesses (20_memory.md R38 to R49). The window is a
view of the registers, so there is no memory to hold (DEDUCED, log entry 13). -/

namespace Sys2Proof.Machine

/-- What stands at a word address of the window (20_memory.md R39). -/
inductive WindowReg where
  | id
  | status
  | err
  | errcmd
  | errarg
  | cmd
  | arg
  | nsym
  | total
  | root
  | nint
  | decPtr
  | encBitcntLo
  | encBitcntHi
  /-- `FREQ[s]` at `0x0400 + 4*s` (20_memory.md R40). -/
  | freq (s : Sym)
  /-- `CODE_LEN[s]` at `0x0800 + 4*s` (20_memory.md R41). -/
  | codeLen (s : Sym)
  /-- Word `w` of `CODE_BITS[s]` at `0x1000 + 32*s + 4*w` (20_memory.md R42). -/
  | codeBits (s : Sym) (w : Fin 8)
  /-- `NODE_LINK[k]` at `0x3000 + 8*k` (20_memory.md R43). -/
  | nodeLink (k : Fin 255)
  /-- `NODE_FREQ[k]` at `0x3004 + 8*k` (20_memory.md R43). -/
  | nodeFreq (k : Fin 255)
  /-- A reserved address (20_memory.md R47). -/
  | reserved
  deriving DecidableEq, Repr

/-- The control registers, by word index: the addresses `0x0000` to `0x03FC` divided by four (20_memory.md R39). -/
def controlReg : Nat → WindowReg
  | 0 => .id
  | 1 => .status
  | 2 => .err
  | 3 => .errcmd
  | 4 => .errarg
  | 5 => .cmd
  | 6 => .arg
  | 7 => .nsym
  | 8 => .total
  | 9 => .root
  | 10 => .nint
  | 11 => .decPtr
  | 12 => .encBitcntLo
  | 13 => .encBitcntHi
  | _ => .reserved

/-- The node window, by word index from `0x3000` on: two words for each of the 255 nodes (20_memory.md R43). -/
def nodeReg (j : Nat) : WindowReg :=
  if h : j / 2 < 255 then (if j % 2 = 0 then .nodeLink ⟨j / 2, h⟩ else .nodeFreq ⟨j / 2, h⟩) else .reserved

/-- The map of 20_memory.md R39, by word index: the byte address divided by four. -/
def regOfIndex (j : Nat) : WindowReg :=
  if j < 0x100 then controlReg j
  else if j < 0x200 then .freq (BitVec.ofNat 8 (j - 0x100))
  else if j < 0x300 then .codeLen (BitVec.ofNat 8 (j - 0x200))
  else if j < 0x400 then .reserved
  else if j < 0xC00 then .codeBits (BitVec.ofNat 8 ((j - 0x400) / 8)) (Fin.ofNat 8 ((j - 0x400) % 8))
  else nodeReg (j - 0xC00)

/-- What stands at an aligned byte address (20_memory.md R39). -/
def regAt (a : Addr) : WindowReg := regOfIndex (a.toNat / 4)

/-- `NODE_LINK[k]`: `INT_LEFT[k]` in bits [8:0], `INT_RIGHT[k]` in bits [24:16] (20_memory.md R43). -/
def nodeLink (s : State) (k : Fin 255) : Word :=
  (nodeGet s.intLeft k).setWidth 32 ||| ((nodeGet s.intRight k).setWidth 32 <<< 16)

/-- What a read of a window word returns (20_memory.md R39 to R43, R47; 10_state.md R16 to R33). -/
def readReg (s : State) : WindowReg → Word
  | .id => Config.idValue
  | .status => s.status
  | .err => s.err.code.setWidth 32
  | .errcmd => s.errcmd
  | .errarg => s.errarg
  | .cmd => 0#32
  | .arg => s.arg
  | .nsym => BitVec.ofNat 32 s.nsym
  | .total => BitVec.ofNat 32 s.total
  | .root => s.root.setWidth 32
  | .nint => s.nint.setWidth 32
  | .decPtr => s.decPtr.setWidth 32
  | .encBitcntLo => s.encBitcnt.extractLsb' 0 32
  | .encBitcntHi => s.encBitcnt.extractLsb' 32 32
  | .freq x => s.freqAt x
  | .codeLen x => (symGet s.codeLen x).setWidth 32
  | .codeBits x w => (symGet s.codeBits x).extractLsb' (32 * w.val) 32
  | .nodeLink k => nodeLink s k
  | .nodeFreq k => nodeGet s.intFreq k
  | .reserved => 0#32

/-- `MemRead(a, 4)`: the value of the word at byte address `a` (20_memory.md R44). -/
def memRead (s : State) (a : Addr) : Word := readReg s (regAt a)

/-- A request the block refuses: `req_be` is not `0xF` or `req_addr[1:0]` is not 0 (20_memory.md R46). -/
def BusReq.malformed (r : BusReq) : Bool := r.be != 0xF#4 || r.addr.toNat % 4 != 0

/-- A 32-bit bus write request (20_memory.md R45). -/
def writeReq (a : Addr) (v : Word) : BusReq := ⟨true, a, v, 0xF#4⟩

/-- A 32-bit bus read request (20_memory.md R44). -/
def readReq (a : Addr) : BusReq := ⟨false, a, 0#32, 0xF#4⟩

/-- The address of `CMD` (20_memory.md R39). -/
def cmdAddr : Addr := 0x0014#14

/-- The address of `ARG` (20_memory.md R39). -/
def argAddr : Addr := 0x0018#14

/-- The response to a write, and to any access with no read data (20_memory.md R45). -/
def okRsp : BusRsp := ⟨0#32, false⟩

/-- The bus error response (20_memory.md R46). -/
def errRsp : BusRsp := ⟨0#32, true⟩

/-- Sends a response (20_memory.md R37). -/
def State.respond (s : State) (r : BusRsp) : State := { s with responses := s.responses ++ [r] }

/-- Whether `items` less the `taken` fit a buffer of `depth` items (20_memory.md R50). -/
def fitsBuffer {α : Type} (items : List α) (taken depth : Nat) : Bool := decide (items.length ≤ taken + depth)

/-- Every emitted item has entered its port's buffer (20_memory.md R50, R51; DEDUCED, log entry 3). -/
def State.portsFit (s : State) : Bool :=
  fitsBuffer s.obit s.obitTaken Config.fifoDepth && fitsBuffer s.osym s.osymTaken Config.fifoDepth

/-- A command's `CMD` write gets its response when every item it emitted has entered its port's buffer; until then the
command waits (20_memory.md R50, R51). -/
def State.finishCommand (s : State) : State :=
  if s.portsFit then s.respond okRsp else { s with busy := true }

/-- The effect of a write by what stands at its address (20_memory.md R45, R47): `CMD` issues a command, `ARG` takes the
data, every other write is ignored. -/
def acceptWrite (v : Word) (s : State) : WindowReg → Result
  | .cmd => onNext (issue v s) (fun t => .next t.finishCommand)
  | .arg => .next ({ s with arg := v }.respond okRsp)
  | _ => .next (s.respond okRsp)

/-- The block executes one bus request (20_memory.md R44 to R47, R51). -/
def accept (r : BusReq) (s : State) : Result :=
  if r.malformed then .next (s.respond errRsp)
  else if r.write then acceptWrite r.wdata s (regAt r.addr)
  else .next (s.respond ⟨memRead s r.addr, false⟩)

/-- Where an address of the system falls in the window that the platform places at `BASE`, if it does (20_memory.md R38;
UNVERIFIED, log entry 9). -/
def windowOffset (systemAddr : Nat) : Option Addr :=
  if Config.base ≤ systemAddr ∧ systemAddr < Config.base + 2 ^ 14 then
    some (BitVec.ofNat 14 (systemAddr - Config.base))
  else none

end Sys2Proof.Machine
end

