-- ==== Sys2Proof/Machine/Agents.lean ====
section
/-! DEFINITION. What each agent does in its turn: the host, the two consumers and `rst` (00_scope.md R12; 20_memory.md
R50, R51; 70_reset_and_hazards.md R112 to R114, R118). -/

namespace Sys2Proof.Machine

/-- The host's turn. A request is accepted unless `rst` is asserted or a command still waits for a port: "every later
request waits behind it" (70_reset_and_hazards.md R118). -/
def hostTurn (s : State) : Result :=
  if s.rst || s.busy then .next s
  else
    match s.requests with
    | [] => .next s
    | r :: rs => accept r { s with requests := rs }

/-- A command that waited gets its response once every item it emitted has entered its buffer (20_memory.md R51). -/
def State.settle (s : State) : State :=
  if s.busy && s.portsFit then { s with busy := false }.respond okRsp else s

/-- The `obit` consumer takes one item, if there is one (20_memory.md R50; DEDUCED, log entry 7). -/
def State.takeObit (s : State) : State :=
  if s.obitTaken < s.obit.length then { s with obitTaken := s.obitTaken + 1 }.settle else s

/-- The `osym` consumer takes one item, if there is one (20_memory.md R50). -/
def State.takeOsym (s : State) : State :=
  if s.osymTaken < s.osym.length then { s with osymTaken := s.osymTaken + 1 }.settle else s

/-- All that the `obit` consumer has ever taken, in order: "Whatever the port's consumer has taken is gone from the block"
(10_state.md R34; 70_reset_and_hazards.md R113). -/
def State.obitGot (s : State) : List Bool := s.obitPast ++ s.obit.take s.obitTaken

/-- All that the `osym` consumer has ever taken, in order (10_state.md R34; 70_reset_and_hazards.md R113). -/
def State.osymGot (s : State) : List Sym := s.osymPast ++ s.osym.take s.osymTaken

/-- The block's state while `rst` is asserted (70_reset_and_hazards.md R112, R113): what the consumers have taken stays
taken, what stood in the buffers is lost. What the host has not yet had accepted, and what it has already been answered,
are the host's and stay (DESIGN CHOICE, log entry 6). -/
def State.underReset (s : State) : State :=
  { State.reset with
    obitPast := s.obitGot, osymPast := s.osymGot, rst := true
    requests := s.requests, responses := s.responses, turns := s.turns, freeIx := s.freeIx }

/-- The response, if any, to a request whose execution a reset cut short: a free value (70_reset_and_hazards.md R114;
93_implementation_defined.md U3; DESIGN CHOICE, log entry 5). -/
def State.cutResponse (s : State) : State :=
  match Config.cutResponse s.freeIx with
  | none => { s with freeIx := s.freeIx + 1 }
  | some (d, e) => { s with freeIx := s.freeIx + 1 }.respond ⟨d, e⟩

/-- `rst` is asserted. A command that waits for a port is abandoned (70_reset_and_hazards.md R114). -/
def State.assertReset (s : State) : State :=
  if s.busy then s.underReset.cutResponse else s.underReset

/-- The host's oldest request `r` in execution, before its response: the items it emits are on their way to the consumers
(70_reset_and_hazards.md R114). Where `r` ends in a fault nothing is emitted. -/
def State.inExecution (r : BusReq) (s : State) : State :=
  match accept r s with
  | .next t => { t with responses := s.responses }
  | _ => s

/-- `rst` is asserted while a request is in execution: it is abandoned, and the consumers have taken the next `n` and `m`
items of it, or all where there are fewer: "the consumer may have taken any prefix, and the rest are lost"
(70_reset_and_hazards.md R114; 93_implementation_defined.md U4). -/
def State.abandon (n m : Nat) (s : State) : State :=
  ({ s with obitTaken := s.obitTaken + n, osymTaken := s.osymTaken + m } : State).underReset.cutResponse

/-- `rst` is asserted while a request is in execution: a command that waits for a port, or else the host's oldest request,
whatever it is (70_reset_and_hazards.md R114; DESIGN CHOICE, log entry 19). Where none can be in execution, this is `rst`
asserted between requests. -/
def State.cutByReset (n m : Nat) (s : State) : State :=
  if s.rst then s.assertReset
  else if s.busy then s.abandon n m
  else
    match s.requests with
    | [] => s.assertReset
    | r :: rs => (State.inExecution r { s with requests := rs }).abandon n m

/-- One turn. -/
def takeTurn (t : Turn) (s : State) : Result :=
  match t with
  | .host => hostTurn s
  | .takeObit => .next s.takeObit
  | .takeOsym => .next s.takeOsym
  | .assertReset => .next s.assertReset
  | .cutByReset n m => .next (s.cutByReset n m)
  | .releaseReset => .next { s with rst := false }

/-- `s` with the host's next request a write of the command word `w` to `CMD`, and with the host's turn next, `rst`
released and no command waiting, so that it is accepted at once. -/
def State.withCommand (s : State) (w : Word) : State :=
  { s with
    rst := false, busy := false
    requests := writeReq cmdAddr w :: s.requests
    turns := .host :: s.turns }

end Sys2Proof.Machine
end

