-- ==== Sys2Proof/Machine/Step.lean ====
section
/-! DEFINITION. One step: the agent whose turn it is moves. -/

namespace Sys2Proof.Machine

/-- One step of the machine: the next agent of `turns` moves; once `turns` is used up the host moves at every step
(DESIGN CHOICE, log entry 1). HuffCore has no program counter (10_state.md R15): the next command is the host's next
`CMD` write. -/
def step (s : State) : Host.Outcome State Fault Refusal :=
  match s.turns with
  | [] => hostTurn s
  | t :: ts => takeTurn t { s with turns := ts }

/-- `s` with the command word `w` as what the next step accepts and runs (10_state.md R15, R17: a program is the list of the
host's writes to `CMD`, so a word is placed as the host's oldest pending request; DESIGN CHOICE, log entry 2).
Every command has 32 bits (30_encoding.md R57), so the `nbits` low bits of `w` are the word. -/
def State.withFetchWord (s : State) (_nbits w : Nat) : State := s.withCommand (BitVec.ofNat 32 w)

end Sys2Proof.Machine
end

