-- ==== Sys2Proof/Machine/Assembler.lean ====
section
/-! DEFINITION. The assembly language and its pseudo-commands (30_encoding.md R64, R65). What the grammar leaves open, the
blanks between tokens and the characters of names, is a DESIGN CHOICE, log entry 15. -/

namespace Sys2Proof.Machine

/-- A token of an assembly line. -/
inductive AsmToken where
  /-- A mnemonic, register name, label or result name. -/
  | word (cs : List Char)
  /-- A number, as written (30_encoding.md R64 `number`). -/
  | num (cs : List Char)
  /-- A `char` operand: the character's code (30_encoding.md R64). -/
  | chr (n : Nat)
  /-- A string literal of a pseudo-command: its characters' codes (30_encoding.md R65). -/
  | str (ns : List Nat)
  | comma
  | colon
  | arrow
  deriving DecidableEq, Repr

/-- A decimal digit. -/
def isDigitChar (c : Char) : Bool := decide (0x30 ≤ c.toNat) && decide (c.toNat ≤ 0x39)

/-- A character of a name or a number: a letter, a digit or an underscore (DESIGN CHOICE, log entry 15). -/
def isNameChar (c : Char) : Bool :=
  isDigitChar c || (decide (0x41 ≤ c.toNat) && decide (c.toNat ≤ 0x5A))
    || (decide (0x61 ≤ c.toNat) && decide (c.toNat ≤ 0x7A)) || c.toNat == 0x5F

/-- A letter in upper case, any other character itself. -/
def upperChar (c : Char) : Char :=
  if decide (0x61 ≤ c.toNat) && decide (c.toNat ≤ 0x7A) then Char.ofNat (c.toNat - 0x20) else c

/-- The value of a digit in bases up to 16, either case. -/
def charDigit (c : Char) : Nat :=
  if isDigitChar c then c.toNat - 0x30
  else if 0x41 ≤ (upperChar c).toNat ∧ (upperChar c).toNat ≤ 0x46 then (upperChar c).toNat - 0x37
  else 16

/-- The value of digits in a base; `none` where there is none or one is no digit of the base. -/
def charNumber (base : Nat) (cs : List Char) : Option Nat :=
  if cs = [] ∨ cs.any (fun c => decide (base ≤ charDigit c)) then none
  else some (cs.foldl (fun acc c => acc * base + charDigit c) 0)

/-- `number := decimal | '0x' hex | '0b' binary` (30_encoding.md R64). -/
def readNumber : List Char → Option Nat
  | '0' :: 'x' :: cs => charNumber 16 cs
  | '0' :: 'b' :: cs => charNumber 2 cs
  | cs => charNumber 10 cs

/-- Consumes a token first if there is one. -/
def pushToken (t : Option AsmToken) (rest : Option (List AsmToken)) : Option (List AsmToken) :=
  match t, rest with
  | some t, some ts => some (t :: ts)
  | _, _ => none

/-- The tokens of a line; a comment runs from `;` to the end (30_encoding.md R64). `none` where a character fits no token.
A token that begins with a digit is a number, so no name (a label, a result name) begins with one, and a character of code
0x80 to 0xFF is one byte of a `char` or a string, its code point, as in Latin-1 (both DESIGN CHOICE, log entry 15).
The first argument is a bound on the number of tokens and blanks. -/
def lexLine : Nat → List Char → Option (List AsmToken)
  | 0, _ => none
  | _ + 1, [] => some []
  | bound + 1, c :: cs =>
    if c.toNat = 0x3B then some []
    else if c.toNat = 0x20 ∨ c.toNat = 0x09 then lexLine bound cs
    else if c.toNat = 0x2C then pushToken (some .comma) (lexLine bound cs)
    else if c.toNat = 0x3A then pushToken (some .colon) (lexLine bound cs)
    else if c.toNat = 0x2D then
      match cs with
      | d :: ds => if d.toNat = 0x3E then pushToken (some .arrow) (lexLine bound ds) else none
      | [] => none
    else if c.toNat = 0x27 then
      match cs with
      | d :: e :: es => if e.toNat = 0x27 then pushToken (some (.chr d.toNat)) (lexLine bound es) else none
      | _ => none
    else if c.toNat = 0x22 then
      match cs.dropWhile (fun d => d.toNat != 0x22) with
      | _ :: ds =>
        pushToken (some (.str ((cs.takeWhile (fun d => d.toNat != 0x22)).map Char.toNat))) (lexLine bound ds)
      | [] => none
    else if isDigitChar c then
      pushToken (some (.num (c :: cs.takeWhile isNameChar))) (lexLine bound (cs.dropWhile isNameChar))
    else if isNameChar c then
      pushToken (some (.word (c :: cs.takeWhile isNameChar))) (lexLine bound (cs.dropWhile isNameChar))
    else none

/-- The register names of 20_memory.md R39 with their addresses. -/
def registerNames : List (List Char × Nat) :=
  [(['I', 'D'], 0x0000), (['S', 'T', 'A', 'T', 'U', 'S'], 0x0004), (['E', 'R', 'R'], 0x0008),
   (['E', 'R', 'R', 'C', 'M', 'D'], 0x000C), (['E', 'R', 'R', 'A', 'R', 'G'], 0x0010), (['C', 'M', 'D'], 0x0014),
   (['A', 'R', 'G'], 0x0018), (['N', 'S', 'Y', 'M'], 0x001C), (['T', 'O', 'T', 'A', 'L'], 0x0020),
   (['R', 'O', 'O', 'T'], 0x0024), (['N', 'I', 'N', 'T'], 0x0028), (['D', 'E', 'C', '_', 'P', 'T', 'R'], 0x002C)]
  ++ [(['E', 'N', 'C', '_', 'B', 'I', 'T', 'C', 'N', 'T', '_', 'L', 'O'], 0x0030),
      (['E', 'N', 'C', '_', 'B', 'I', 'T', 'C', 'N', 'T', '_', 'H', 'I'], 0x0034)]

/-- `addr := number | register name` (30_encoding.md R64). -/
def readAddr : AsmToken → Option Nat
  | .num cs => readNumber cs
  | .word cs => (registerNames.find? (fun r => r.1 == cs)).map (·.2)
  | _ => none

/-- `sym := number in 0..255 | char` (30_encoding.md R64); the range is `AsmItem.wellFormed`'s. -/
def readSym : AsmToken → Option Nat
  | .num cs => readNumber cs
  | .chr n => some n
  | _ => none

/-- `value := number in 0..2^32-1` (30_encoding.md R64); the range is `AsmItem.wellFormed`'s. -/
def readValue : AsmToken → Option Nat
  | .num cs => readNumber cs
  | _ => none

/-- `bit := '0' | '1'` (30_encoding.md R64). -/
def readBit : AsmToken → Option Nat
  | .num ['0'] => some 0
  | .num ['1'] => some 1
  | _ => none

/-- The commands and pseudo-commands with no operand (30_encoding.md R64, R65). -/
def bareItems : List (List Char × List AsmItem) :=
  [(['N', 'O', 'P'], [.nop]), (['C', 'L', 'E', 'A', 'R'], [.clear]),
   (['B', 'U', 'I', 'L', 'D', '_', 'T', 'R', 'E', 'E'], [.buildTree]),
   (['D', 'E', 'R', 'I', 'V', 'E', '_', 'C', 'O', 'D', 'E', 'S'], [.deriveCodes]),
   (['D', 'E', 'C', '_', 'E', 'N', 'D'], [.decEnd]),
   (['P', 'R', 'E', 'P', 'A', 'R', 'E'], [.buildTree, .deriveCodes]), (['C', 'H', 'E', 'C', 'K'], [.rd 0x0008])]

/-- The items with one operand (30_encoding.md R64, R65); `DEC_BITS` takes a string of `0` and `1` characters. -/
def unaryItem (m : List Char) (t : AsmToken) : Option (List AsmItem) :=
  if m = ['T', 'A', 'B', '_', 'S', 'Y', 'M'] then (readSym t).map (fun n => [.tabSym n])
  else if m = ['F', 'R', 'E', 'Q', '_', 'L', 'O', 'A', 'D'] then (readSym t).map (fun n => [.freqLoad n])
  else if m = ['E', 'N', 'C', '_', 'S', 'Y', 'M'] then (readSym t).map (fun n => [.encSym n])
  else if m = ['D', 'E', 'C', '_', 'B', 'I', 'T'] then (readBit t).map (fun n => [.decBit n])
  else if m = ['R', 'D'] then (readAddr t).map (fun a => [.rd a])
  else if m = ['S', 'E', 'T', 'A', 'R', 'G'] then (readValue t).map (fun v => [.wr 0x0018 v])
  else
    match t with
    | .str ns =>
      if m = ['T', 'A', 'B', '_', 'S', 'T', 'R'] then some (ns.map .tabSym)
      else if m = ['E', 'N', 'C', '_', 'S', 'T', 'R'] then some (ns.map .encSym)
      else if m = ['D', 'E', 'C', '_', 'B', 'I', 'T', 'S'] ∧ ns.all (fun n => n == 0x30 || n == 0x31) then
        some (ns.map (fun n => .decBit (n - 0x30)))
      else none
    | _ => none

/-- The items with two operands (30_encoding.md R64, R65): `WR addr, value` and `LOAD s, v`. -/
def binaryItem (m : List Char) (t u : AsmToken) : Option (List AsmItem) :=
  match readValue u with
  | some v =>
    if m = ['W', 'R'] then (readAddr t).map (fun a => [.wr a v])
    else if m = ['L', 'O', 'A', 'D'] then (readSym t).map (fun n => [.wr 0x0018 v, .freqLoad n])
    else none
  | none => none

/-- `item` (30_encoding.md R64) or a pseudo-command (R65); mnemonics are case-insensitive. -/
def readItem : List AsmToken → Option (List AsmItem)
  | [] => some []
  | [.word m] => (bareItems.find? (fun r => r.1 == m.map upperChar)).map (·.2)
  | [.word m, t] => unaryItem (m.map upperChar) t
  | [.word m, t, .arrow, .word _] =>
    if m.map upperChar = ['R', 'D'] then (readAddr t).map (fun a => [.rd a]) else none
  | [.word m, t, .comma, u] => binaryItem (m.map upperChar) t u
  | _ => none

/-- `line := [label ':'] [item] [';' comment]` (30_encoding.md R64); labels have no meaning to the block. -/
def readLine (ts : List AsmToken) : Option (List AsmItem) :=
  match ts with
  | .word _ :: .colon :: rest => readItem rest
  | ts => readItem ts

/-- The command an item assembles to, for the items that are commands. -/
def asmInstr : AsmItem → Option Instr
  | .nop => some .nop
  | .clear => some .clear
  | .tabSym n => some (.tabSym (BitVec.ofNat 8 n))
  | .freqLoad n => some (.freqLoad (BitVec.ofNat 8 n))
  | .buildTree => some .buildTree
  | .deriveCodes => some .deriveCodes
  | .encSym n => some (.encSym (BitVec.ofNat 8 n))
  | .decBit n => some (.decBit (n == 1))
  | .decEnd => some .decEnd
  | .wr _ _ => none
  | .rd _ => none

/-- The bus request of an item; a command is a write of its word to `CMD` (30_encoding.md R64, 20_memory.md R45). -/
def asmRequest (it : AsmItem) : BusReq :=
  match asmInstr it, it with
  | some i, _ => writeReq cmdAddr (encode i)
  | none, .wr a v => writeReq (BitVec.ofNat 14 a) (BitVec.ofNat 32 v)
  | none, .rd a => readReq (BitVec.ofNat 14 a)
  | none, _ => readReq 0#14

/-- Assembles a line to bus requests; `none` is an assembly error, which an operand out of range is too (30_encoding.md
R64). -/
def assembleLine (line : List Char) : Option (List BusReq) :=
  match (lexLine (line.length + 1) line).bind readLine with
  | none => none
  | some items => if items.all AsmItem.wellFormed then some (items.map asmRequest) else none

/-- Assembles a program, line by line. -/
def assemble : List (List Char) → Option (List BusReq)
  | [] => some []
  | l :: ls =>
    match assembleLine l, assemble ls with
    | some rs, some rest => some (rs ++ rest)
    | _, _ => none

end Sys2Proof.Machine
end

