-- ==== Sys2Proof/Machine/Persist.lean ====
section
/-! DEFINITION. The persisted FrequencyTable, as the host writes and reads it (46_host_interface.md R88 to R93). The byte
values are ASCII (93_implementation_defined.md K1, K3; PRESUMED, log entry 18). -/

namespace Sys2Proof.Machine

/-- LF, the terminator a writer uses (46_host_interface.md R91). -/
def byteLf : Byte := 0x0A#8

/-- CR, which a reader accepts before LF (46_host_interface.md R91). -/
def byteCr : Byte := 0x0D#8

/-- The delimiter `:` (46_host_interface.md R88). -/
def byteColon : Byte := 0x3A#8

/-- The character of a digit. -/
def digitByte (d : Nat) : Byte := BitVec.ofNat 8 (0x30 + d)

/-- The value of a character that is a digit below `base`. -/
def digitOf (base : Nat) (c : Byte) : Option Nat :=
  if 0x30 ≤ c.toNat ∧ c.toNat < 0x30 + base then some (c.toNat - 0x30) else none

/-- The digits of `n` in base `b`, most significant first, without leading zeros, and `0` for 0. The first argument is a
bound on the number of digits. -/
def toDigits (b : Nat) : Nat → Nat → List Nat
  | 0, _ => []
  | bound + 1, n => if n < b then [n] else toDigits b bound (n / b) ++ [n % b]

/-- The value of digits in base `b`, most significant first. -/
def ofDigits (b : Nat) (ds : List Nat) : Nat := ds.foldl (fun acc d => acc * b + d) 0

/-- `SYMBITS` as a writer renders it (46_host_interface.md R89). -/
def symBits (x : Sym) : List Byte := (toDigits 2 8 x.toNat).map digitByte

/-- `COUNT` as a writer renders it (46_host_interface.md R90). -/
def countText (c : Word) : List Byte := (toDigits 10 32 c.toNat).map digitByte

/-- One line of a persisted table, with its terminator (46_host_interface.md R88, R91). -/
def lineText (x : Sym) (c : Word) : List Byte := symBits x ++ [byteColon] ++ countText c ++ [byteLf]

/-- The address of `FREQ[x]` (20_memory.md R40). -/
def freqAddr (x : Sym) : Addr := BitVec.ofNat 14 (0x0400 + 4 * x.toNat)

/-- Persists the table that the `FREQ` window shows: one line for each present symbol, ascending (46_host_interface.md
R92). -/
def persist (s : State) : List Byte :=
  (allSyms.filter (fun x => memRead s (freqAddr x) != 0#32)).flatMap (fun x => lineText x (memRead s (freqAddr x)))

/-- Why a persisted text is malformed (46_host_interface.md R93; which of several is named: DESIGN CHOICE, log entry
16). -/
inductive FormatError where
  /-- An empty line (46_host_interface.md R91). -/
  | emptyLine
  /-- A line with no `:`. -/
  | noDelimiter
  /-- A line with more than one `:`. -/
  | extraDelimiter
  /-- An empty `SYMBITS` (46_host_interface.md R89). -/
  | emptySymbol
  /-- A character other than `0` or `1` in `SYMBITS` (46_host_interface.md R89). -/
  | badSymbol
  /-- A symbol above 255 (46_host_interface.md R89). -/
  | symbolTooLarge
  /-- An empty `COUNT` (46_host_interface.md R90). -/
  | emptyCount
  /-- A character other than a decimal digit in `COUNT` (46_host_interface.md R90). -/
  | badCount
  /-- A count of 0 (46_host_interface.md R90). -/
  | zeroCount
  /-- A count above `2^32 - 1` (46_host_interface.md R90). -/
  | countTooLarge
  /-- A second line for a symbol that an earlier line gave (46_host_interface.md R93). -/
  | duplicateSymbol
  deriving DecidableEq, Repr

/-- The digits of a token, if every character is one. -/
def digitsOf (base : Nat) : List Byte → Option (List Nat)
  | [] => some []
  | c :: cs =>
    match digitOf base c, digitsOf base cs with
    | some d, some ds => some (d :: ds)
    | _, _ => none

/-- Reads a `SYMBITS` token of any width (46_host_interface.md R89). -/
def parseSymbol (token : List Byte) : Except FormatError Sym :=
  if token = [] then .error .emptySymbol
  else
    match digitsOf 2 token with
    | none => .error .badSymbol
    | some ds => if ofDigits 2 ds ≤ 255 then .ok (BitVec.ofNat 8 (ofDigits 2 ds)) else .error .symbolTooLarge

/-- Reads a `COUNT` token (46_host_interface.md R90). -/
def parseCount (token : List Byte) : Except FormatError Word :=
  if token = [] then .error .emptyCount
  else
    match digitsOf 10 token with
    | none => .error .badCount
    | some ds =>
      if ofDigits 10 ds = 0 then .error .zeroCount
      else if ofDigits 10 ds ≤ 2 ^ 32 - 1 then .ok (BitVec.ofNat 32 (ofDigits 10 ds))
      else .error .countTooLarge

/-- Reads both tokens of a line. -/
def parseTokens (symToken countToken : List Byte) : Except FormatError (Sym × Word) :=
  match parseSymbol symToken with
  | .error e => .error e
  | .ok x =>
    match parseCount countToken with
    | .error e => .error e
    | .ok c => .ok (x, c)

/-- Reads one line, its terminator taken off: `SYMBITS ':' COUNT` (46_host_interface.md R88, R93). -/
def parseLine (line : List Byte) : Except FormatError (Sym × Word) :=
  if line = [] then .error .emptyLine
  else
    match line.dropWhile (· != byteColon) with
    | [] => .error .noDelimiter
    | _ :: count =>
      if count.contains byteColon then .error .extraDelimiter
      else parseTokens (line.takeWhile (· != byteColon)) count

/-- A line without the CR of a CR LF terminator (46_host_interface.md R91). -/
def dropCr (line : List Byte) : List Byte :=
  if line.getLast? = some byteCr then line.dropLast else line

/-- The lines of a text, without their terminators, LF or CR LF; the last may have none; the empty text has no line
(46_host_interface.md R91). The second argument is the part of a line read so far. -/
def linesOf : List Byte → List Byte → List (List Byte)
  | [], [] => []
  | [], b :: cur => [b :: cur]
  | c :: cs, cur => if c = byteLf then dropCr cur :: linesOf cs [] else linesOf cs (cur ++ [c])

/-- What a reader makes of a text: the entries of the lines before the first format error, and that error
(46_host_interface.md R93: "On a format error, the host loads no further entry"). -/
structure Parsed where
  entries : List (Sym × Word)
  error : Option FormatError
  deriving DecidableEq, Repr

/-- Reads lines in order, given the symbols that earlier lines gave (46_host_interface.md R93). -/
def parseLines : List (List Byte) → List Sym → Parsed
  | [], _ => ⟨[], none⟩
  | line :: rest, seen =>
    match parseLine line with
    | .error e => ⟨[], some e⟩
    | .ok (x, c) =>
      if seen.contains x then ⟨[], some .duplicateSymbol⟩
      else ⟨(x, c) :: (parseLines rest (x :: seen)).entries, (parseLines rest (x :: seen)).error⟩

/-- Reads a persisted table (46_host_interface.md R88 to R93). -/
def parseTable (text : List Byte) : Parsed := parseLines (linesOf text []) []

end Sys2Proof.Machine
end

