-- ==== Sys2Proof/Machine/HostProc.lean ====
section
/-! DEFINITION. The host's procedures around the block, the source's encode and decode (46_host_interface.md R94 to R97),
run with consumers that take every item (70_reset_and_hazards.md R115, R118; DESIGN CHOICE, log entry 17). -/

namespace Sys2Proof.Machine

/-- The OPEN parameter `PACK` (00_scope.md R7; 46_host_interface.md R97): how the writer packs bits into bytes, and which
bits the reader recovers from them (DESIGN CHOICE, log entry 10). -/
structure Pack where
  pack : List Bool → List Byte
  unpack : List Byte → List Bool

/-- The contract of `PACK` (46_host_interface.md R97): the reader recovers exactly the bits the writer received. -/
def Pack.exact (p : Pack) : Prop := ∀ bits, p.unpack (p.pack bits) = bits

/-- Both consumers take every item, and a command that waited completes (20_memory.md R50, R51). -/
def State.drained (s : State) : State :=
  { s with obitTaken := s.obit.length, osymTaken := s.osym.length }.settle

/-- A bus write of the host: the address and the value of `MemWrite(a, 4, v)`. -/
structure HostWrite where
  addr : Addr
  value : Word
  deriving DecidableEq, Repr

/-- `MemWrite(CMD, 4, w)` of a command's word. -/
def writeCommand (i : Instr) : HostWrite := ⟨cmdAddr, encode i⟩

/-- `MemWrite(a, 4, v)` by a host whose consumers keep taking items (20_memory.md R45, 70_reset_and_hazards.md R118). -/
def hostWrite (w : HostWrite) (s : State) : Result :=
  onNext (accept (writeReq w.addr w.value) s) (fun t => .next t.drained)

/-- Writes, one after another. -/
def hostWrites : List HostWrite → State → Result
  | [], s => .next s
  | w :: ws, s => onNext (hostWrite w s) (hostWrites ws)

/-- `MemWrite(ARG, 4, c)` and FREQ_LOAD for each parsed line (46_host_interface.md R94). -/
def loadWrites (es : List (Sym × Word)) : List HostWrite :=
  es.flatMap (fun e => [⟨argAddr, e.2⟩, writeCommand (.freqLoad e.1)])

/-- Loads the entries of a parsed table (46_host_interface.md R94). -/
def hostLoad (es : List (Sym × Word)) (s : State) : Result := hostWrites (loadWrites es) s

/-- The address of `ERR` (20_memory.md R39). -/
def errAddr : Addr := 0x0008#14

/-- `MemRead(ENC_BITCNT_HI, 4) * 2^32 + MemRead(ENC_BITCNT_LO, 4)` (46_host_interface.md R95). -/
def bitCount (s : State) : Nat := (memRead s 0x0034#14).toNat * 2 ^ 32 + (memRead s 0x0030#14).toNat

/-- One line of the pseudocode of 46_host_interface.md R95 and R96. -/
inductive HostAct where
  /-- `MemWrite(a, 4, v)`. -/
  | write (w : HostWrite)
  /-- "if a format error occurred or `MemRead(ERR, 4) != NONE`: abort"; `none` where the procedure parses no text. -/
  | check (format : Option FormatError)
  /-- "persist the table to freqSink". -/
  | persistTable
  /-- `nbits := ...`, and "the writer packs the obit stream into output and flushes". -/
  | packBits
  deriving DecidableEq, Repr

/-- Why the host gives an operation up. -/
inductive HostAbort where
  /-- A source cannot be read or a sink cannot be written (60_exceptions.md R103). -/
  | ioFailure
  /-- The persisted table is malformed (46_host_interface.md R93). -/
  | format (e : FormatError)
  /-- `MemRead(ERR, 4)` is not NONE (46_host_interface.md R95, R96). -/
  | coreError (code : Word)
  deriving DecidableEq, Repr

/-- An operation at some line: the block, and what the host has put out. The bits and symbols that left the block are in
its streams (60_exceptions.md R103: they "may have reached the sink"). -/
structure HostRun where
  s : State
  /-- The text persisted to `freqSink`, once it is. -/
  table : Option (List Byte)
  /-- The packed output, with the number of its bits, once it is flushed. -/
  output : Option (List Byte × Nat)
  deriving DecidableEq, Repr

/-- How an operation ends: done, given up, or with the model stopped. -/
inductive HostOutcome where
  | done (r : HostRun)
  | aborted (why : HostAbort) (r : HostRun)
  | stopped (r : Result)

/-- Goes on with the block after a bus access. -/
def HostRun.access (r : HostRun) (res : Result) (f : HostRun → HostOutcome) : HostOutcome :=
  match res with
  | .next t => f { r with s := t }
  | res => .stopped res

/-- "if a format error occurred or `MemRead(ERR, 4) != NONE`: abort" (46_host_interface.md R95, R96). Where both hold, the
format error is the reason given (DESIGN CHOICE, log entry 16). -/
def HostRun.check (r : HostRun) (format : Option FormatError) : HostOutcome :=
  match format with
  | some e => .aborted (.format e) r
  | none =>
    if memRead r.s errAddr ≠ 0#32 then .aborted (.coreError (memRead r.s errAddr)) r else .done r

/-- One line, for an operation that began with `start` bits on the obit stream (46_host_interface.md R95, R96). -/
def hostAct (p : Pack) (start : Nat) (r : HostRun) : HostAct → HostOutcome
  | .write w => r.access (hostWrite w r.s) .done
  | .check format => r.check format
  | .persistTable => .done { r with table := some (persist r.s) }
  | .packBits => .done { r with output := some (p.pack (r.s.obit.drop start), bitCount r.s) }

/-- An I/O failure: the host "aborts and issues CLEAR" (92_eei_decisions.md D30; 60_exceptions.md R103). -/
def HostRun.giveUp (r : HostRun) : HostOutcome :=
  r.access (hostWrite (writeCommand .clear) r.s) (.aborted .ioFailure)

/-- Runs the lines of an operation. `fails` says before which of the lines that are still to come an I/O failure strikes,
counted from 0, if one does: the spec names no moment, so every one is possible (60_exceptions.md R103; DESIGN CHOICE, log
entry 17). -/
def hostActs (p : Pack) (start : Nat) : List HostAct → Option Nat → HostRun → HostOutcome
  | [], _, r => .done r
  | a :: as, fails, r =>
    if fails = some 0 then r.giveUp
    else
      match hostAct p start r a with
      | .done r' => hostActs p start as (fails.map (· - 1)) r'
      | ended => ended

/-- Runs the lines of an operation from its beginning. -/
def hostRun (p : Pack) (acts : List HostAct) (fails : Option Nat) (s : State) : HostOutcome :=
  hostActs p s.obit.length acts fails ⟨s, none, none⟩

/-- The line that issues a command. -/
def HostAct.command (i : Instr) : HostAct := .write (writeCommand i)

/-- The lines of `encode` (46_host_interface.md R95). The input is read twice: `pass1` and `pass2` are what each pass
reads, which need not agree ("if pass 2 read different bytes from pass 1"). -/
def encodeActs (pass1 pass2 : List Byte) : List HostAct :=
  [.command .clear] ++ pass1.map (fun x => .command (.tabSym x)) ++ [.check none, .persistTable] ++
    [.command .buildTree, .command .deriveCodes] ++ pass2.map (fun x => .command (.encSym x)) ++ [.check none, .packBits]

/-- `encode(input, output, freqSink)` (46_host_interface.md R95), with an I/O failure before any of its lines or none: the
spec names no moment at which one is found (60_exceptions.md R103; DESIGN CHOICE, log entry 17). -/
def hostEncode (p : Pack) (pass1 pass2 : List Byte) (fails : Option Nat) (s : State) : HostOutcome :=
  hostRun p (encodeActs pass1 pass2) fails s

/-- The lines of `decode` (46_host_interface.md R96), for the text that the frequency source gives and the bits that the
reader recovers. -/
def decodeActs (text : Parsed) (bits : List Bool) : List HostAct :=
  [.command .clear] ++ (loadWrites text.entries).map .write ++ [.check text.error] ++
    [.command .buildTree] ++ bits.map (fun b => .command (.decBit b)) ++ [.command .decEnd, .check none]

/-- `decode(input, output, freqSource)` (46_host_interface.md R96). "The output sink receives the `osym` stream": the symbols
that the operation adds to it. A format error comes before an error of the block as the reason to abort (DESIGN CHOICE, log
entry 16), and an I/O failure may strike before any line (DESIGN CHOICE, log entry 17). -/
def hostDecode (p : Pack) (input table : List Byte) (fails : Option Nat) (s : State) : HostOutcome :=
  hostRun p (decodeActs (parseTable table) (p.unpack input)) fails s

end Sys2Proof.Machine
end

