-- ==== Sys2Proof/Safety.lean ====
section
/-! DEFINITION. What a sound state and a safe run are (10_state.md R32, R36), and the words in which statements speak of
trees, codes and runs. -/

namespace Sys2Proof.Machine

/-- The tree registers of a table with no tree: phase COLLECT and the empty tree (10_state.md R26, R27, R28). -/
def Tree.empty : Tree :=
  ⟨nilId, 0#8, Vector.replicate 255 0#9, Vector.replicate 255 0#9, Vector.replicate 255 0#32⟩

/-- The architectural state of 10_state.md R13 is that of reset (70_reset_and_hazards.md R112, R113). -/
def State.archReset (s : State) : Prop :=
  s.arg = 0#32 ∧ s.phase = .collect ∧ s.err = .none ∧ s.errcmd = 0#32 ∧ s.errarg = 0#32 ∧
    s.freq = Vector.replicate 256 0#32 ∧ s.tree = Tree.empty ∧ s.codes = CodeTable.zero ∧ s.decPtr = nilId ∧
    s.encBitcnt = 0#64 ∧ s.obit = [] ∧ s.osym = []

/-- The invariant of the model between any two steps. Its clauses are 10_state.md R36 items 1, 2 and 4, R32 and R25, the
determinism of 42_tree_builder.md R77 item 1 and 43_code_deriver.md R80 item 5, and the port and reset conditions. The
clauses R36 items 3, 5 and 6 follow from it, and are statements of their own. -/
structure State.Inv (s : State) : Prop where
  /-- R36 item 1. -/
  totalFits : s.total ≤ Config.totalMax
  /-- R36 item 2. -/
  noTree : s.phase = .collect → s.tree = Tree.empty ∧ s.decPtr = nilId
  /-- The tree is the one BUILD_TREE builds from FREQ, which nothing changes outside COLLECT (R21, R77 item 1). -/
  builtTree : s.phase ≠ .collect → s.tree = buildTree s.freq
  /-- R36 items 2 and 4. -/
  noCodes : s.phase ≠ .coded → s.codes = CodeTable.zero
  /-- The CodeTable is the one DERIVE_CODES derives from the tree (R80 item 5). -/
  derivedCodes : s.phase = .coded → deriveCodes s.tree = some s.codes
  /-- R32: "`DEC_PTR` is either `ROOT` or the id of an internal node `256 + k` with `k < NINT`". -/
  decPtrNamed : s.decPtr = s.root ∨ ∃ k, k < s.nint.toNat ∧ s.decPtr = internalId k
  /-- R25: "While `ERR == NONE`, both read 0". -/
  errQuiet : s.err = .none → s.errcmd = 0#32 ∧ s.errarg = 0#32
  /-- The consumer has taken items that were emitted, no others (20_memory.md R50). -/
  obitTakenLe : s.obitTaken ≤ s.obit.length
  /-- The same for `osym`. -/
  osymTakenLe : s.osymTaken ≤ s.osym.length
  /-- A command waits exactly while an emitted item has found no room in its buffer (20_memory.md R50, R51). -/
  busyIff : s.busy = !s.portsFit
  /-- 70_reset_and_hazards.md R112: while `rst` is asserted the state has its reset values. -/
  rstHolds : s.rst = true → s.archReset

/-- Where a path of branches leads from a node, `false` left and `true` right (43_code_deriver.md R79). -/
def Tree.follow (t : Tree) : NodeId → List Bool → Option NodeId
  | id, [] => some id
  | id, b :: bs =>
    match internalIx id with
    | none => none
    | some k => t.follow (t.child k b) bs

/-- The frequency of a node: `FREQ[s]` for leaf `s`, `INT_FREQ[k]` for internal node `k`
(42_tree_builder.md R74). -/
def State.nodeFreq (s : State) (id : NodeId) : Nat :=
  match internalIx id with
  | some k => (nodeGet s.intFreq k).toNat
  | none => (s.freqAt (leafSym id)).toNat

/-- The ids of all children of the internal nodes `k < m`, in order. -/
def Tree.childIds (t : Tree) (m : Nat) : List NodeId :=
  ((List.finRange 255).filter (fun k => decide (k.val < m))).flatMap (fun k => [t.child k false, t.child k true])

/-- The ids that have a parent in a strict binary tree over `leaves` with internal nodes `256 .. 256 + m - 1` and root
`256 + m - 1`. -/
def nonRootIds (leaves : List Sym) (m : Nat) : List NodeId :=
  leaves.map leafId ++ (List.range (m - 1)).map internalId

/-- 10_state.md R36 item 6 and 42_tree_builder.md R77 items 2, 3 and 5: the internal nodes `k < m` with the leaves form one
strict binary tree: each leaf and each internal node but the last is a child exactly once, nothing else is a child, and
children are created before their parent. -/
structure Tree.Strict (t : Tree) (leaves : List Sym) (m : Nat) : Prop where
  childrenOnce : (t.childIds m).Perm (nonRootIds leaves m)
  childrenOlder : ∀ (k : Fin 255) (b : Bool), k.val < m →
    isLeaf (t.child k b) = true ∨ ∃ j, j < k.val ∧ t.child k b = internalId j

/-- A run from reset in any environment: each step is the machine's, and between steps the host and the consumers may issue
any requests and take any turns (00_scope.md R12). -/
inductive Reachable : State → Prop where
  | reset : Reachable State.reset
  | step {s t : State} (h : Reachable s) (hs : step s = .next t) : Reachable t
  | environment {s : State} (h : Reachable s) (rs : List BusReq) (ts : List Turn) :
      Reachable { s with requests := rs, turns := ts }

/-- The lengths of the codes of the present symbols, each weighed as `2^(255 - length)`: Kraft's sum times `2^255`
(43_code_deriver.md R80 item 4). -/
def State.kraftSum (s : State) : Nat :=
  ((presentSyms s.freq).map (fun x => 2 ^ (255 - (symGet s.codeLen x).toNat))).sum

/-- `s` after the error capture of `e` by the word `w` (60_exceptions.md R99). -/
def State.captured (s : State) (e : ErrCode) (w : Word) : State := { s with err := e, errcmd := w, errarg := s.arg }

/-- The lines "Encoding" and "Legal phase" of a command's rule, and its first two errors: `w` is the command's word; a word
with its `OP` and a bit in the `reserved` field raises ILLEGAL_CMD; outside the phases of `legal` the command raises
PHASE_ERR, and while an error is recorded it is discarded (30_encoding.md R58, R60 to R63). -/
def followsItsFormat (i : Instr) (w reserved : Word) (legal : List Phase) : Prop :=
  encode i = w ∧ decode w = .ok i ∧
    (∀ (v : Word) (s : State), v >>> 24 = w >>> 24 → v &&& reserved ≠ 0#32 → s.err = .none →
      issue v s = .next (s.captured .illegalCmd v)) ∧
    (∀ s : State, s.err = .none → s.phase ∉ legal → exec i s = .next (s.captured .phaseErr w)) ∧
    ∀ s : State, s.err ≠ .none → exec i s = .next s

/-- The window words that the "State written" line of a command's rule lets it change when it raises no error, with the
views of what it writes (40_control.md R66, R67; 41_tabulator.md R70, R71; 42_tree_builder.md R76; 43_code_deriver.md R79;
44_encoder.md R81; 45_decoder.md R84, R85; 10_state.md R19, R22). -/
def mayChange : Instr → WindowReg → Prop
  | .nop, _ => False
  | .clear, r => r ≠ .arg ∧ r ≠ .id ∧ r ≠ .cmd ∧ r ≠ .reserved
  | .tabSym x, r => r = .freq x ∨ r = .nsym ∨ r = .total
  | .freqLoad x, r => r = .freq x ∨ r = .nsym ∨ r = .total
  | .buildTree, r =>
    r = .status ∨ r = .root ∨ r = .nint ∨ r = .decPtr ∨ (∃ k, r = .nodeLink k) ∨ (∃ k, r = .nodeFreq k)
  | .deriveCodes, r => r = .status ∨ (∃ x, r = .codeLen x) ∨ (∃ x w, r = .codeBits x w)
  | .encSym _, r => r = .encBitcntLo ∨ r = .encBitcntHi
  | .decBit _, r => r = .status ∨ r = .decPtr
  | .decEnd, _ => False

/-- What lies outside the block's registers: the pins, the requests and responses, the port consumers' progress and the
model's own fields. No command writes them. -/
def State.sameOutside (s t : State) : Prop :=
  t.obitTaken = s.obitTaken ∧ t.osymTaken = s.osymTaken ∧ t.obitPast = s.obitPast ∧ t.osymPast = s.osymPast ∧ t.busy = s.busy ∧ t.rst = s.rst ∧ t.requests = s.requests ∧
    t.responses = s.responses ∧ t.turns = s.turns ∧ t.freeIx = s.freeIx

end Sys2Proof.Machine
end

