-- ==== Sys2Proof/Certificates/Slice0/Obligations.lean ====
section
/-! DEFINITION. The statements about HuffCore. Each docstring names the rule of spec/ it formalises. -/

open Sys2Proof Sys2Proof.Machine

/-! ## Encoding -/

/-- 30_encoding.md R57 to R60: decoding the word of a command gives the command back, with every operand, and a word that
decodes to a command is that command's word. -/
def Obligations.DecodeInvertsEncode : Prop :=
  (∀ i : Instr, i.wellFormed = true → decode (encode i) = .ok i) ∧
    ∀ (w : Word) (i : Instr), decode w = .ok i → encode i = w

/-- 30_encoding.md R60: a word is a command exactly when a row of the opcode map holds of it, at most one row does, and the
row is the command's; its operand is the field the row's format gives. -/
def Obligations.OpcodeMapDecides : Prop :=
  (∀ w : Word, (∃ i, decode w = .ok i) ↔ ∃ r ∈ opcodeTable, r.holds w = true) ∧
    (∀ w : Word, ∀ r ∈ opcodeTable, ∀ r' ∈ opcodeTable, r.holds w = true → r'.holds w = true → r = r') ∧
    (∀ (w : Word) (i : Instr), decode w = .ok i → ∃ r ∈ opcodeTable, r.holds w = true ∧ r.op = i.opcode) ∧
    (∀ (w : Word) (x : Sym), decode w = .ok (.tabSym x) ∨ decode w = .ok (.freqLoad x) ∨ decode w = .ok (.encSym x) →
      x = w.extractLsb' 0 8) ∧
    ∀ (w : Word) (b : Bool), decode w = .ok (.decBit b) → b = w.getLsbD 0

/-- 30_encoding.md R61: the two kinds of illegal word, each rejected by its own name; issuing one raises ILLEGAL_CMD while
`ERR == NONE` and does nothing while `ERR != NONE`. -/
def Obligations.IllegalWordsTrapOrAreDiscarded : Prop :=
  (∀ w : Word, 0x09 ≤ (w >>> 24).toNat → decode w = .error .reservedOpcode) ∧
    (∀ w : Word, (w >>> 24).toNat ≤ 0x08 → (∀ r ∈ opcodeTable, r.holds w = false) →
      decode w = .error .reservedField) ∧
    (∀ (w : Word) (e : DecodeError) (s : State), decode w = .error e → s.err = .none →
      issue w s = .next (s.captured .illegalCmd w)) ∧
    ∀ (w : Word) (e : DecodeError) (s : State), decode w = .error e → s.err ≠ .none → issue w s = .next s

/-- Words written out from 30_encoding.md R58 and R60 decode to the commands they stand for. -/
def Obligations.SpecWordsDecode : Prop :=
  decode 0x00000000#32 = .ok .nop ∧ decode 0x01000000#32 = .ok .clear ∧ decode 0x02000061#32 = .ok (.tabSym 0x61#8) ∧
    decode 0x030000FF#32 = .ok (.freqLoad 0xFF#8) ∧ decode 0x04000000#32 = .ok .buildTree ∧
    decode 0x05000000#32 = .ok .deriveCodes ∧ decode 0x06000063#32 = .ok (.encSym 0x63#8) ∧
    decode 0x07000000#32 = .ok (.decBit false) ∧ decode 0x07000001#32 = .ok (.decBit true) ∧
    decode 0x08000000#32 = .ok .decEnd

/-! ## Dispatch and errors -/

/-- 30_encoding.md R63: the order in which issuing a word looks at ERR, at the opcode map and at the phase. -/
def Obligations.IssueFollowsDispatchOrder : Prop :=
  ∀ (w : Word) (s : State),
    (s.err ≠ .none →
      issue w s = if w = 0x00000000#32 then .next s else if w = 0x01000000#32 then exec .clear s else .next s) ∧
    (s.err = .none →
      (∀ e, decode w = .error e → issue w s = .next (s.captured .illegalCmd w)) ∧
      ∀ i, decode w = .ok i →
        (legalIn i s.phase = false → issue w s = .next (s.captured .phaseErr w)) ∧
        (legalIn i s.phase = true → issue w s = exec i s))

/-- 30_encoding.md R62: the legality table, and that a command issued with `ERR == NONE` in another phase raises PHASE_ERR and
changes nothing else, while in a legal phase it never raises PHASE_ERR. -/
def Obligations.PhaseLegality : Prop :=
  (∀ p, legalIn .nop p = true ∧ legalIn .clear p = true) ∧
    (∀ x p, (legalIn (.tabSym x) p = true ↔ p = .collect) ∧ (legalIn (.freqLoad x) p = true ↔ p = .collect) ∧
      (legalIn (.encSym x) p = true ↔ p = .coded)) ∧
    (∀ p, (legalIn .buildTree p = true ↔ p = .collect) ∧ (legalIn .deriveCodes p = true ↔ p = .tree)) ∧
    (∀ b p, (legalIn (.decBit b) p = true ↔ p = .tree ∨ p = .coded) ∧
      (legalIn .decEnd p = true ↔ p = .tree ∨ p = .coded)) ∧
    (∀ (i : Instr) (s : State), s.err = .none → legalIn i s.phase = false →
      exec i s = .next (s.captured .phaseErr (encode i))) ∧
    ∀ (i : Instr) (s t : State), s.err = .none → legalIn i s.phase = true → exec i s = .next t → t.err ≠ .phaseErr

/-- 60_exceptions.md R99: an error is captured only while `ERR == NONE`; the capture writes ERR, ERRCMD and ERRARG and the
faulting word has no other effect; every later word but NOP and CLEAR is discarded. -/
def Obligations.ErrorCaptureIsPrecise : Prop :=
  (∀ (w : Word) (s t : State), issue w s = .next t → t.err ≠ s.err → t.err ≠ .none →
    s.err = .none ∧ t = { s with err := t.err, errcmd := w, errarg := s.arg }) ∧
    ∀ (w : Word) (s : State), s.err ≠ .none → w ≠ 0x00000000#32 → w ≠ 0x01000000#32 → issue w s = .next s

/-- 60_exceptions.md R100: one error, the first in the order ILLEGAL_CMD, PHASE_ERR, the command's own checks; for FREQ_LOAD
BAD_COUNT, DUPLICATE, COUNT_OVERFLOW; and ERR keeps the first of several errors. -/
def Obligations.FirstErrorInOrder : Prop :=
  (∀ (w : Word) (s t : State), s.err ≠ .none → issue w s = .next t → t.err = s.err ∨ (w = 0x01000000#32 ∧ t.err = .none)) ∧
  ∀ (w : Word) (s : State), s.err = .none →
    (∀ e, decode w = .error e → issue w s = .next (s.captured .illegalCmd w)) ∧
    (∀ i, decode w = .ok i → legalIn i s.phase = false → issue w s = .next (s.captured .phaseErr w)) ∧
    (∀ x, decode w = .ok (.freqLoad x) → s.phase = .collect → s.arg = 0#32 →
      issue w s = .next (s.captured .badCount w)) ∧
    (∀ x, decode w = .ok (.freqLoad x) → s.phase = .collect → s.arg ≠ 0#32 → s.freqAt x ≠ 0#32 →
      issue w s = .next (s.captured .duplicate w)) ∧
    ∀ x, decode w = .ok (.freqLoad x) → s.phase = .collect → s.arg ≠ 0#32 → s.freqAt x = 0#32 →
      2 ^ 32 - 1 < s.total + s.arg.toNat → issue w s = .next (s.captured .countOverflow w)

/-! ## What each command does -/

/-- 40_control.md R66: NOP completes in every state, in every phase and while `ERR != NONE`, and changes nothing; its one word is
0x00000000, and any other word with `OP = 0x00` is illegal. -/
def Obligations.NopChangesNothing : Prop :=
  (∀ s : State, exec .nop s = .next s ∧ issue 0x00000000#32 s = .next s) ∧
    (∀ w : Word, decode w = .ok .nop ↔ w = 0x00000000#32) ∧
    ∀ (w : Word) (s : State), w >>> 24 = 0x00#32 → w ≠ 0x00000000#32 → s.err = .none →
      issue w s = .next (s.captured .illegalCmd w)

/-- 40_control.md R67: CLEAR completes in every state, whatever PHASE and ERR; what it writes, and that everything else stays:
ARG and both streams among it; after it STATUS reads 0x8; a second CLEAR, and one right after reset, changes nothing; its one
word is 0x01000000, and no other word clears an error. -/
def Obligations.ClearStartsNewSession : Prop :=
  (∀ w : Word, decode w = .ok .clear ↔ w = 0x01000000#32) ∧ exec .clear State.reset = .next State.reset ∧
  (∀ (w : Word) (s t : State), s.err ≠ .none → issue w s = .next t → t.err = .none → w = 0x01000000#32) ∧
  ∀ s : State, ∃ t, exec .clear s = .next t ∧ issue 0x01000000#32 s = .next t ∧
    (∀ x : Sym, t.freqAt x = 0#32 ∧ symGet t.codeLen x = 0#8 ∧ symGet t.codeBits x = 0#256) ∧
    (∀ k : Fin 255, nodeGet t.intLeft k = 0#9 ∧ nodeGet t.intRight k = 0#9 ∧ nodeGet t.intFreq k = 0#32) ∧
    t.root = 511#9 ∧ t.nint = 0#8 ∧ t.decPtr = 511#9 ∧ t.encBitcnt = 0#64 ∧ t.err = .none ∧ t.errcmd = 0#32 ∧
    t.errarg = 0#32 ∧ t.phase = .collect ∧ t.arg = s.arg ∧ t.obit = s.obit ∧ t.osym = s.osym ∧ s.sameOutside t ∧
    memRead t 0x0004#14 = 0x00000008#32 ∧ exec .clear t = .next t

/-- 40_control.md R67 and 70_reset_and_hazards.md R112: after CLEAR every word of the window but ARG reads as after reset. -/
def Obligations.ClearedWindowReadsAsAfterReset : Prop :=
  ∀ (s t : State) (a : Addr), exec .clear s = .next t → regAt a ≠ .arg → memRead t a = memRead State.reset a

/-- 41_tabulator.md R70: TAB_SYM completes in COLLECT while TOTAL is below `2^32 - 1`: FREQ of the symbol grows by one without
wrapping, no other count changes, TOTAL and NSYM follow, and nothing else changes; at `2^32 - 1` it raises COUNT_OVERFLOW.
Its word is 0x020000ss and its phase COLLECT. -/
def Obligations.TabSymCountsOneSymbol : Prop :=
  (∀ x : Sym, followsItsFormat (.tabSym x) (0x02000000#32 ||| x.setWidth 32) 0x00FFFF00#32 [.collect]) ∧
  ∀ (x : Sym) (s : State), s.err = .none → s.phase = .collect →
    (s.total < 2 ^ 32 - 1 → ∃ t, exec (.tabSym x) s = .next t ∧
      t.freqAt x = s.freqAt x + 1#32 ∧ (t.freqAt x).toNat = (s.freqAt x).toNat + 1 ∧
      (∀ y, y ≠ x → t.freqAt y = s.freqAt y) ∧ t.total = s.total + 1 ∧
      t.nsym = s.nsym + (if s.freqAt x = 0#32 then 1 else 0) ∧ t = { s with freq := t.freq }) ∧
    (2 ^ 32 - 1 ≤ s.total →
      exec (.tabSym x) s = .next (s.captured .countOverflow (encode (.tabSym x))))

/-- 41_tabulator.md R71: FREQ_LOAD completes in COLLECT for an absent symbol and a non-zero ARG that keeps TOTAL within
`2^32 - 1`: FREQ of the symbol becomes ARG, no other count changes, and nothing else changes; else it raises BAD_COUNT,
DUPLICATE or COUNT_OVERFLOW. Its word is 0x030000ss and its phase COLLECT. -/
def Obligations.FreqLoadStoresArg : Prop :=
  (∀ x : Sym, followsItsFormat (.freqLoad x) (0x03000000#32 ||| x.setWidth 32) 0x00FFFF00#32 [.collect]) ∧
  ∀ (x : Sym) (s : State), s.err = .none → s.phase = .collect →
    (s.arg ≠ 0#32 → s.freqAt x = 0#32 → s.total + s.arg.toNat ≤ 2 ^ 32 - 1 →
      ∃ t, exec (.freqLoad x) s = .next t ∧ t.freqAt x = s.arg ∧ (∀ y, y ≠ x → t.freqAt y = s.freqAt y) ∧
        t.total = s.total + s.arg.toNat ∧ t.nsym = s.nsym + 1 ∧ t = { s with freq := t.freq }) ∧
    (s.arg = 0#32 → exec (.freqLoad x) s = .next (s.captured .badCount (encode (.freqLoad x)))) ∧
    (s.arg ≠ 0#32 → s.freqAt x ≠ 0#32 →
      exec (.freqLoad x) s = .next (s.captured .duplicate (encode (.freqLoad x)))) ∧
    (s.arg ≠ 0#32 → s.freqAt x = 0#32 → 2 ^ 32 - 1 < s.total + s.arg.toNat →
      exec (.freqLoad x) s = .next (s.captured .countOverflow (encode (.freqLoad x))))

/-- 41_tabulator.md R73: from an empty table, TAB_SYM of each symbol of a stream of at most `2^32 - 1` symbols completes, FREQ
counts each symbol's occurrences, TOTAL is the length, and nothing else changes; at TOTAL = `2^32 - 1` one more raises
COUNT_OVERFLOW. -/
def Obligations.TabulatorCountsTheStream : Prop :=
  (∀ (xs : List Sym) (s : State), s.err = .none → s.phase = .collect → s.freq = Vector.replicate 256 0#32 →
    xs.length ≤ 2 ^ 32 - 1 → ∃ t, execAll (xs.map .tabSym) s = .next t ∧
      (∀ x, (t.freqAt x).toNat = xs.count x) ∧ t.total = xs.length ∧ t = { s with freq := t.freq }) ∧
    ∀ (x : Sym) (s : State), s.err = .none → s.phase = .collect → s.total = 2 ^ 32 - 1 →
      exec (.tabSym x) s = .next (s.captured .countOverflow (encode (.tabSym x)))

/-- 41_tabulator.md R71 (corner cases) and 46_host_interface.md R94: where entries load without error, the same entries in any
other order load without error too, and give the same table. -/
def Obligations.FreqLoadOrderDoesNotMatter : Prop :=
  ∀ (es es' : List (Sym × Word)) (s t : State), es.Perm es' → s.err = .none → hostLoad es s = .next t → t.err = .none →
    ∃ t', hostLoad es' s = .next t' ∧ t'.err = .none ∧ t'.freq = t.freq

/-- 42_tree_builder.md R74 and R75: in a collection of nodes with distinct ids, one merge takes the node with the smallest key
and then the one with the smallest key of the rest; the first becomes the left child, the second the right child, and their
sum goes back with the new node's id. Keys of different ids are ordered, by frequency and then by id. -/
def Obligations.MergeTakesTheTwoSmallestKeys : Prop :=
  (∀ a b : QNode, a.before b = true ↔ a.f < b.f ∨ (a.f = b.f ∧ a.id < b.id)) ∧
    (∀ a b : QNode, a.id ≠ b.id → (a.before b = true ↔ ¬ b.before a = true)) ∧
    ∀ (n k : Nat) (q : List QNode), (q.map QNode.id).Nodup → 2 ≤ q.length →
      ∃ a b rest, q.Perm (a :: b :: rest) ∧ a.before b = true ∧ (∀ z ∈ rest, b.before z = true) ∧
        mergeLoop (n + 1) k q = ⟨a.id, b.id, a.f + b.f⟩ :: mergeLoop n (k + 1) (⟨a.f + b.f, 256 + k⟩ :: rest)

/-- 42_tree_builder.md R76: BUILD_TREE completes in COLLECT: ROOT and NINT in the three cases, the node arrays as the merge loop
over the present symbols gives them and 0 beyond, DEC_PTR at the root, PHASE TREE, and nothing else changed. Its word is
0x04000000. -/
def Obligations.BuildTreeBuildsFromTheTable : Prop :=
  followsItsFormat .buildTree 0x04000000#32 0x00FFFFFF#32 [.collect] ∧
  ∀ s : State, s.err = .none → s.phase = .collect → ∃ t, exec .buildTree s = .next t ∧
    (s.nsym = 0 → t.root = 511#9 ∧ t.nint = 0#8) ∧
    (s.nsym = 1 → (∀ x, s.freqAt x ≠ 0#32 → t.root.toNat = x.toNat) ∧ t.nint = 0#8) ∧
    (2 ≤ s.nsym → t.root.toNat = 256 + (s.nsym - 2) ∧ t.nint.toNat = s.nsym - 1) ∧
    (s.total ≤ 2 ^ 32 - 1 → ∀ k : Fin 255, k.val < t.nint.toNat →
      ∃ m, (mergeLoop (s.nsym - 1) 0 ((presentSyms s.freq).map (fun x => ⟨(s.freqAt x).toNat, x.toNat⟩)))[k.val]? = some m ∧
        (nodeGet t.intLeft k).toNat = m.left ∧ (nodeGet t.intRight k).toNat = m.right ∧
        (nodeGet t.intFreq k).toNat = m.f) ∧
    (∀ k : Fin 255, t.nint.toNat ≤ k.val →
      nodeGet t.intLeft k = 0#9 ∧ nodeGet t.intRight k = 0#9 ∧ nodeGet t.intFreq k = 0#32) ∧
    t.decPtr = t.root ∧ t.phase = .tree ∧
    t = { s with root := t.root, nint := t.nint, intLeft := t.intLeft, intRight := t.intRight, intFreq := t.intFreq,
                 decPtr := t.decPtr, phase := t.phase }

/-- 42_tree_builder.md R77: the built tree is a function of FREQ alone; its leaves are the present symbols, each once; it is one
strict binary tree with children created before their parent; frequencies add up, to TOTAL at the root. -/
def Obligations.BuiltTreeIsAStrictBinaryTree : Prop :=
  ∀ s t : State, s.err = .none → s.phase = .collect → s.total ≤ 2 ^ 32 - 1 → exec .buildTree s = .next t →
    (∀ s' t' : State, s'.err = .none → s'.phase = .collect → s'.freq = s.freq → exec .buildTree s' = .next t' →
      t'.tree = t.tree) ∧
    (2 ≤ s.nsym → t.tree.Strict (presentSyms s.freq) t.nint.toNat ∧ t.root = internalId (t.nint.toNat - 1)) ∧
    (s.nsym = 1 → ∃ x, presentSyms s.freq = [x] ∧ t.root = leafId x) ∧
    (∀ k : Fin 255, k.val < t.nint.toNat →
      (nodeGet t.intFreq k).toNat = t.nodeFreq (nodeGet t.intLeft k) + t.nodeFreq (nodeGet t.intRight k)) ∧
    (1 ≤ s.nsym → t.nodeFreq t.root = t.total)

/-- 43_code_deriver.md R79: from a sound state in TREE, DERIVE_CODES completes: no entry for the empty tree, the code "0" for a
degenerate root, and else each present symbol's code is the path from the root to its leaf, 0 for left and 1 for right; every
other entry is 0, bits beyond a code's length are 0, PHASE is CODED, and nothing else changed; a path is no longer than NINT.
Its word is 0x05000000 and its phase TREE. -/
def Obligations.DeriveCodesRecordsThePaths : Prop :=
  followsItsFormat .deriveCodes 0x05000000#32 0x00FFFFFF#32 [.tree] ∧
  ∀ s : State, s.Inv → s.err = .none → s.phase = .tree → ∃ t, exec .deriveCodes s = .next t ∧
    (s.root = 511#9 → t.codes = CodeTable.zero) ∧
    (isLeaf s.root = true → t.code (leafSym s.root) = [false] ∧
      ∀ y, y ≠ leafSym s.root → symGet t.codeLen y = 0#8 ∧ symGet t.codeBits y = 0#256) ∧
    (isInternal s.root = true → ∀ x, s.freqAt x ≠ 0#32 →
      1 ≤ (t.code x).length ∧ (t.code x).length ≤ t.nint.toNat ∧ t.tree.follow t.root (t.code x) = some (leafId x)) ∧
    (∀ x, s.freqAt x = 0#32 → symGet t.codeLen x = 0#8 ∧ symGet t.codeBits x = 0#256) ∧
    (∀ x i, (symGet t.codeLen x).toNat ≤ i → (symGet t.codeBits x).getLsbD i = false) ∧
    t.phase = .coded ∧ t = { s with codeLen := t.codeLen, codeBits := t.codeBits, phase := t.phase }

/-- 43_code_deriver.md R80 items 1, 2, 3, 5 and 6: in CODED, exactly the present symbols have a code, every code is non-empty, no
code is the beginning of another symbol's, the table is a function of the tree, and a degenerate tree has one code of length
1. -/
def Obligations.CodeTableIsPrefixFree : Prop :=
  ∀ s : State, s.Inv → s.phase = .coded →
    (∀ x, symGet s.codeLen x ≠ 0#8 ↔ s.freqAt x ≠ 0#32) ∧
    (∀ x, s.freqAt x ≠ 0#32 → s.code x ≠ []) ∧
    (∀ x y, s.freqAt x ≠ 0#32 → s.freqAt y ≠ 0#32 → s.code x <+: s.code y → x = y) ∧
    (∀ s' : State, s'.Inv → s'.phase = .coded → s'.tree = s.tree → s'.codes = s.codes) ∧
    (s.nsym = 1 → ∀ x, s.freqAt x ≠ 0#32 → (symGet s.codeLen x).toNat = 1)

/-- 43_code_deriver.md R80 item 4: with two or more present symbols the code lengths satisfy Kraft's equality; with one the sum is
one half; with none there is no entry. Both sides are multiplied by `2^255`. -/
def Obligations.CodeLengthsMeetKraftEquality : Prop :=
  ∀ s : State, s.Inv → s.phase = .coded →
    (2 ≤ s.nsym → s.kraftSum = 2 ^ 255) ∧ (s.nsym = 1 → s.kraftSum = 2 ^ 254) ∧ (s.nsym = 0 → s.kraftSum = 0)

/-- 44_encoder.md R81: ENC_SYM completes in CODED for a symbol with a code: it emits the CODE_LEN bits of CODE_BITS, bit 0 first,
adds CODE_LEN to ENC_BITCNT modulo `2^64`, and changes nothing else; without a code it raises MISSING_CODE. Its word is
0x060000ss and its phase CODED. -/
def Obligations.EncSymEmitsTheCode : Prop :=
  (∀ x : Sym, followsItsFormat (.encSym x) (0x06000000#32 ||| x.setWidth 32) 0x00FFFF00#32 [.coded]) ∧
  ∀ (x : Sym) (s : State), s.err = .none → s.phase = .coded →
    (symGet s.codeLen x ≠ 0#8 → ∃ t bits, exec (.encSym x) s = .next t ∧
      bits.length = (symGet s.codeLen x).toNat ∧ (∀ i (h : i < bits.length), bits[i] = (symGet s.codeBits x).getLsbD i) ∧
      t.obit = s.obit ++ bits ∧
      t.encBitcnt.toNat = (s.encBitcnt.toNat + (symGet s.codeLen x).toNat) % 2 ^ 64 ∧
      t = { s with obit := t.obit, encBitcnt := t.encBitcnt }) ∧
    (symGet s.codeLen x = 0#8 → exec (.encSym x) s = .next (s.captured .missingCode (encode (.encSym x))))

/-- 44_encoder.md R82: ENC_SYM of each symbol of a stream, every one with a code, completes; obit grows by the codes in stream
order, ENC_BITCNT by their total length modulo `2^64`, and nothing else changes. -/
def Obligations.EncoderConcatenatesTheCodes : Prop :=
  ∀ (xs : List Sym) (s : State), s.err = .none → s.phase = .coded → (∀ x ∈ xs, symGet s.codeLen x ≠ 0#8) →
    ∃ t, execAll (xs.map .encSym) s = .next t ∧ t.obit = s.obit ++ xs.flatMap s.code ∧
      t.encBitcnt.toNat = (s.encBitcnt.toNat + (xs.flatMap s.code).length) % 2 ^ 64 ∧
      t = { s with obit := t.obit, encBitcnt := t.encBitcnt }

/-- 45_decoder.md R84: DEC_BIT outside COLLECT: EMPTY_TREE for the empty tree; a leaf root emits its symbol on either bit; else,
with DEC_PTR internal, the pointer moves to the child the bit selects, and if that is a leaf its symbol is emitted and the
pointer goes to ROOT. Nothing else changes. Its words are 0x07000000 and 0x07000001 and its phases TREE and CODED. -/
def Obligations.DecBitWalksOneBranch : Prop :=
  (∀ b : Bool, followsItsFormat (.decBit b) (if b then 0x07000001#32 else 0x07000000#32) 0x00FFFFFE#32 [.tree, .coded]) ∧
  ∀ (b : Bool) (s : State), s.err = .none → s.phase ≠ .collect →
    (s.root = 511#9 → exec (.decBit b) s = .next (s.captured .emptyTree (encode (.decBit b)))) ∧
    (isLeaf s.root = true → exec (.decBit b) s = .next { s with osym := s.osym ++ [leafSym s.root] }) ∧
    ∀ (k : Fin 255) (nxt : NodeId), isInternal s.root = true → s.decPtr = internalId k →
      nxt = (if b = false then nodeGet s.intLeft k else nodeGet s.intRight k) →
      (isLeaf nxt = true → exec (.decBit b) s = .next { s with osym := s.osym ++ [leafSym nxt], decPtr := s.root }) ∧
      (isLeaf nxt = false → exec (.decBit b) s = .next { s with decPtr := nxt })

/-- 45_decoder.md R84 with 10_state.md R32: from a sound state outside COLLECT with a tree, DEC_BIT of either bit completes
without error. -/
def Obligations.DecBitCompletesInSoundStates : Prop :=
  ∀ (b : Bool) (s : State), s.Inv → s.err = .none → s.phase ≠ .collect → s.nsym ≠ 0 →
    ∃ t, exec (.decBit b) s = .next t ∧ t.err = .none

/-- 45_decoder.md R85: DEC_END outside COLLECT changes nothing when DEC_PTR is at the root, and else raises TRUNCATED, which leaves
DEC_PTR as it was; in a sound state with at most one present symbol it always succeeds. Its word is 0x08000000 and its phases
TREE and CODED. -/
def Obligations.DecEndChecksTheRoot : Prop :=
  followsItsFormat .decEnd 0x08000000#32 0x00FFFFFF#32 [.tree, .coded] ∧
  ∀ s : State, s.err = .none → s.phase ≠ .collect →
    (s.Inv → s.nsym ≤ 1 → exec .decEnd s = .next s) ∧
    (s.decPtr = s.root → exec .decEnd s = .next s) ∧
    (s.decPtr ≠ s.root → ∃ t, exec .decEnd s = .next t ∧ t = s.captured .truncated 0x08000000#32 ∧ t.decPtr = s.decPtr)

/-- 45_decoder.md R87: from a sound state with a tree and DEC_PTR at the root, feeding the concatenated codes of present symbols and
then DEC_END completes without error, and osym grows by exactly those symbols; nothing else changes. The codes are those
DERIVE_CODES derives from the tree, whether or not it was issued. -/
def Obligations.DecoderReproducesTheStream : Prop :=
  ∀ (s : State) (c : CodeTable) (xs : List Sym), s.Inv → s.err = .none → s.phase ≠ .collect → s.decPtr = s.root →
    deriveCodes s.tree = some c → (∀ x ∈ xs, s.freqAt x ≠ 0#32) →
    execAll ((xs.flatMap c.code).map .decBit ++ [.decEnd]) s = .next { s with osym := s.osym ++ xs }

/-- 70_reset_and_hazards.md R122: ENC_SYM does not touch the decoder's state nor DEC_BIT the encoder's, and where they complete
without error in one order they do in the other, with the same result. -/
def Obligations.EncoderAndDecoderDoNotInterfere : Prop :=
  (∀ x s t, exec (.encSym x) s = .next t → t.decPtr = s.decPtr ∧ t.osym = s.osym ∧ t.tree = s.tree) ∧
    (∀ b s t, exec (.decBit b) s = .next t → t.encBitcnt = s.encBitcnt ∧ t.obit = s.obit ∧ t.codes = s.codes) ∧
    ∀ (x : Sym) (b : Bool) (s t : State), t.err = .none →
      (execAll [.encSym x, .decBit b] s = .next t ↔ execAll [.decBit b, .encSym x] s = .next t)

/-- The "State written" lines of the commands (40_control.md R66, R67; 41_tabulator.md R70, R71; 42_tree_builder.md R76;
43_code_deriver.md R79; 44_encoder.md R81; 45_decoder.md R84, R85), through the bus's eyes: a command that raises no error
changes no window word but those its rule lets it, one that raises an error only ERR, ERRCMD, ERRARG and STATUS; only ENC_SYM
appends to obit, only DEC_BIT to osym; and no command touches the pins, requests, responses or consumers. -/
def Obligations.CommandsChangeOnlyTheirWords : Prop :=
  ∀ (i : Instr) (s t : State), exec i s = .next t →
    (t.err = s.err ∨ i = .clear → ∀ a : Addr, ¬ mayChange i (regAt a) → memRead t a = memRead s a) ∧
    (t.err ≠ s.err → i ≠ .clear →
      ∀ a : Addr, regAt a ≠ .err → regAt a ≠ .errcmd → regAt a ≠ .errarg → regAt a ≠ .status →
        memRead t a = memRead s a) ∧
    ((∀ x, i ≠ .encSym x) → t.obit = s.obit) ∧ ((∀ b, i ≠ .decBit b) → t.osym = s.osym) ∧ s.sameOutside t

/-! ## The register window and the bus -/

/-- 10_state.md R19: each bit of STATUS, a function of the state, PHASE with its code of 10_state.md R23 (COLLECT 0, TREE 1, CODED
2); a write to STATUS is ignored; after reset it reads 0x8. -/
def Obligations.StatusBits : Prop :=
  memRead State.reset 0x0004#14 = 0x00000008#32 ∧
  (∀ (s : State) (v : Word),
    accept (writeReq 0x0004#14 v) s = .next { s with responses := s.responses ++ [⟨0#32, false⟩] }) ∧
  ∀ s : State,
    (s.phase = .collect → (memRead s 0x0004#14).extractLsb' 0 2 = 0#2) ∧
    (s.phase = .tree → (memRead s 0x0004#14).extractLsb' 0 2 = 1#2) ∧
    (s.phase = .coded → (memRead s 0x0004#14).extractLsb' 0 2 = 2#2) ∧
    ((memRead s 0x0004#14).getLsbD 2 = true ↔ s.err ≠ .none) ∧
    ((memRead s 0x0004#14).getLsbD 3 = true ↔ s.decPtr = s.root) ∧
    ((memRead s 0x0004#14).getLsbD 4 = true ↔ s.phase ≠ .collect ∧ s.root = 511#9) ∧
    ((memRead s 0x0004#14).getLsbD 5 = true ↔ s.phase ≠ .collect ∧ s.root.toNat < 256) ∧
    ∀ i, 6 ≤ i → (memRead s 0x0004#14).getLsbD i = false

/-- 20_memory.md R39: what the control registers read, ERR with its code of 60_exceptions.md R98. -/
def Obligations.ControlRegistersRead : Prop :=
  ∀ s : State,
    memRead s 0x0000#14 = 0x48554631#32 ∧
    ((s.err = .none → memRead s 0x0008#14 = 0#32) ∧ (s.err = .illegalCmd → memRead s 0x0008#14 = 1#32) ∧
      (s.err = .phaseErr → memRead s 0x0008#14 = 2#32) ∧ (s.err = .countOverflow → memRead s 0x0008#14 = 3#32) ∧
      (s.err = .badCount → memRead s 0x0008#14 = 4#32) ∧ (s.err = .duplicate → memRead s 0x0008#14 = 5#32) ∧
      (s.err = .missingCode → memRead s 0x0008#14 = 6#32) ∧ (s.err = .truncated → memRead s 0x0008#14 = 7#32) ∧
      (s.err = .emptyTree → memRead s 0x0008#14 = 8#32)) ∧
    memRead s 0x000C#14 = s.errcmd ∧ memRead s 0x0010#14 = s.errarg ∧ memRead s 0x0014#14 = 0#32 ∧
    memRead s 0x0018#14 = s.arg ∧ (memRead s 0x001C#14).toNat = s.nsym ∧
    (s.total ≤ 2 ^ 32 - 1 → (memRead s 0x0020#14).toNat = s.total) ∧ (memRead s 0x0024#14).toNat = s.root.toNat ∧
    (memRead s 0x0028#14).toNat = s.nint.toNat ∧ (memRead s 0x002C#14).toNat = s.decPtr.toNat ∧
    (memRead s 0x0034#14).toNat * 2 ^ 32 + (memRead s 0x0030#14).toNat = s.encBitcnt.toNat

/-- 20_memory.md R40 to R43: what the FREQ, CODE_LEN, CODE_BITS and node windows read at each of their addresses; in a sound
state a CODE_BITS word holds code bits and 0 beyond the code, and node words from NINT on read 0. -/
def Obligations.ArrayWindowsRead : Prop :=
  ∀ s : State,
    (∀ (x : Sym) (a : Addr), a.toNat = 0x0400 + 4 * x.toNat → memRead s a = s.freqAt x) ∧
    (∀ (x : Sym) (a : Addr), a.toNat = 0x0800 + 4 * x.toNat → memRead s a = (symGet s.codeLen x).setWidth 32) ∧
    (∀ (x : Sym) (w : Nat) (a : Addr), w < 8 → a.toNat = 0x1000 + 32 * x.toNat + 4 * w →
      memRead s a = (symGet s.codeBits x).extractLsb' (32 * w) 32 ∧
      (s.Inv → ∀ j, j < 32 → (memRead s a).getLsbD j = (s.code x).getD (32 * w + j) false)) ∧
    (∀ (k : Fin 255) (a : Addr), a.toNat = 0x3000 + 8 * k.val →
      (memRead s a).extractLsb' 0 9 = nodeGet s.intLeft k ∧ (memRead s a).extractLsb' 9 7 = 0#7 ∧
      (memRead s a).extractLsb' 16 9 = nodeGet s.intRight k ∧ (memRead s a).extractLsb' 25 7 = 0#7) ∧
    (∀ (k : Fin 255) (a : Addr), a.toNat = 0x3004 + 8 * k.val → memRead s a = nodeGet s.intFreq k) ∧
    (s.Inv → ∀ (k : Fin 255) (a : Addr), s.nint.toNat ≤ k.val → a.toNat = 0x3000 + 8 * k.val ∨ a.toNat = 0x3004 + 8 * k.val →
      memRead s a = 0#32)

/-- 20_memory.md R47: a reserved address reads 0 without a bus error, in a sound state an unused node slot too, and a write to
any word but CMD and ARG is answered without error and changes nothing. -/
def Obligations.ReservedWordsReadZeroAndIgnoreWrites : Prop :=
  ∀ (s : State) (a : Addr), a.toNat % 4 = 0 →
    ((0x0038 ≤ a.toNat ∧ a.toNat ≤ 0x03FC) ∨ (0x0C00 ≤ a.toNat ∧ a.toNat ≤ 0x0FFC) ∨ 0x37F8 ≤ a.toNat ∨
        (s.Inv ∧ ∃ k : Fin 255, s.nint.toNat ≤ k.val ∧ (a.toNat = 0x3000 + 8 * k.val ∨ a.toNat = 0x3004 + 8 * k.val)) →
      memRead s a = 0#32 ∧
      accept (readReq a) s = .next { s with responses := s.responses ++ [⟨0#32, false⟩] }) ∧
    (a ≠ 0x0014#14 → a ≠ 0x0018#14 → ∀ v : Word,
      accept (writeReq a v) s = .next { s with responses := s.responses ++ [⟨0#32, false⟩] })

/-- 20_memory.md R44 and R49: an aligned word read is answered with the word's value and no error and changes no state, so a
second read of the address with no write between returns the same value. -/
def Obligations.ReadsHaveNoSideEffect : Prop :=
  ∀ (r : BusReq) (s : State), r.write = false → r.be = 0xF#4 → r.addr.toNat % 4 = 0 →
    ∃ t, accept r s = .next t ∧ t = { s with responses := s.responses ++ [⟨memRead s r.addr, false⟩] } ∧
      ∀ a, memRead t a = memRead s a

/-- 20_memory.md R45: a word write to ARG stores the data, also while `ERR != NONE` (60_exceptions.md R102), and is answered
without error; nothing else changes. -/
def Obligations.ArgWriteStoresTheData : Prop :=
  ∀ (s : State) (v : Word), ∃ t, accept (writeReq 0x0018#14 v) s = .next t ∧ memRead t 0x0018#14 = v ∧
    t = { s with arg := v, responses := s.responses ++ [⟨0#32, false⟩] }

/-- 20_memory.md R46: a request with a byte enable off or a misaligned address is answered with a bus error and has no effect on
any state. -/
def Obligations.MalformedRequestsAreRefused : Prop :=
  ∀ (r : BusReq) (s : State), r.be ≠ 0xF#4 ∨ r.addr.toNat % 4 ≠ 0 →
    accept r s = .next { s with responses := s.responses ++ [⟨0#32, true⟩] }

/-- 20_memory.md R51: an accepted request is answered once: at once, or, if it is a CMD write whose items found no room, when the
command completes: each step from a waiting state leaves it waiting and sends nothing, or ends the wait and sends the one
response, or is a reset (70_reset_and_hazards.md R114). That a command waits exactly while an item has found no room is the
model's reading (log entry 3). -/
def Obligations.EveryRequestIsAnsweredOnce : Prop :=
  (∀ (r : BusReq) (s t : State), s.busy = false → accept r s = .next t →
    (t.busy = false ∧ ∃ p, t.responses = s.responses ++ [p]) ∨
    (t.busy = true ∧ t.responses = s.responses ∧ r.write = true ∧ regAt r.addr = .cmd ∧ t.portsFit = false)) ∧
    ∀ s t : State, s.busy = true → step s = .next t →
      (t.busy = true ∧ t.responses = s.responses) ∨
      (t.busy = false ∧ t.portsFit = true ∧ t.responses = s.responses ++ [⟨0#32, false⟩]) ∨
      (t.rst = true ∧ t.busy = false ∧ t.archReset)

/-! ## Steps -/

/-- A step runs the decoded command: with `rst` released, no command waiting and the host's turn, a step whose oldest request is a
write of a word to CMD issues that word, followed by the response or the wait for a port; issuing a command's word is that
command's meaning (10_state.md R17, 30_encoding.md R63, 20_memory.md R51). That the host moves when `turns` is used up is the
model's choice (log entry 1), and so is what `withFetchWord` stands for (log entry 2). -/
def Obligations.StepRunsTheDecodedCommand : Prop :=
  (∀ (s : State) (w : Word) (rs : List BusReq) (ts : List Turn), s.rst = false → s.busy = false →
    s.requests = writeReq 0x0014#14 w :: rs → (s.turns = .host :: ts ∨ (s.turns = [] ∧ ts = [])) →
    step s = onNext (issue w { s with requests := rs, turns := ts }) (fun t => .next t.finishCommand)) ∧
    (∀ (s : State) (w : Word),
      step (s.withFetchWord 32 w.toNat)
        = onNext (issue w { s with rst := false, busy := false }) (fun t => .next t.finishCommand)) ∧
    ∀ (s : State) (w : Word) (i : Instr), decode w = .ok i → issue w s = exec i s

/-- 20_memory.md R50 and 70_reset_and_hazards.md R118: while a command waits for a port, the host's turn accepts nothing and changes
nothing; with no taking turn the machine makes no progress. The mark of a waiting command is the model's reading (log entry
3), and that the host moves when `turns` is used up its choice (log entry 1). -/
def Obligations.WaitingCommandBlocksTheHost : Prop :=
  ∀ s : State, s.busy = true →
    (s.turns = [] → step s = .next s) ∧ ∀ ts, s.turns = .host :: ts → step s = .next { s with turns := ts }

/-- 20_memory.md R50 and 70_reset_and_hazards.md R118: "A consumer that is slow but not stopped only delays the block": when `n` items
have found no room in one port's buffer, `n` takes of that port's consumer complete the waiting command, its CMD write is
answered, and no value but the count of taken items has changed. That the streams hold the items still waiting, that one turn
takes one item, and that the last take sends the response are the model's reading (log entries 3 and 7). -/
def Obligations.TakingItemsCompletesTheCommand : Prop :=
  ∀ (s : State) (n : Nat) (ts : List Turn), s.Inv → s.busy = true →
    (s.osym.length ≤ s.osymTaken + Config.fifoDepth → s.obit.length = s.obitTaken + Config.fifoDepth + n →
      s.turns = List.replicate n .takeObit ++ ts →
      Host.Core.run core n s = .next { s with obitTaken := s.obitTaken + n, busy := false, turns := ts,
                                              responses := s.responses ++ [⟨0#32, false⟩] }) ∧
    (s.obit.length ≤ s.obitTaken + Config.fifoDepth → s.osym.length = s.osymTaken + Config.fifoDepth + n →
      s.turns = List.replicate n .takeOsym ++ ts →
      Host.Core.run core n s = .next { s with osymTaken := s.osymTaken + n, busy := false, turns := ts,
                                              responses := s.responses ++ [⟨0#32, false⟩] })

/-- 20_memory.md R50, 10_state.md R34 and 70_reset_and_hazards.md R113: a consumer gets each item once and in order, and keeps what it
has taken: no step, CLEAR and reset among them, takes an item back from it; a take delivers the oldest item not yet taken;
and a host turn delivers nothing. The counts of taken items are the model's reading (log entry 7), and that the host moves
when `turns` is used up its choice (log entry 1). -/
def Obligations.ConsumersGetEachItemOnceInOrder : Prop :=
  (∀ s t : State, step s = .next t → s.obitGot <+: t.obitGot ∧ s.osymGot <+: t.osymGot) ∧
    (∀ (s : State) (ts : List Turn) (h : s.obitTaken < s.obit.length), s.turns = .takeObit :: ts →
      ∃ t, step s = .next t ∧ t.obitGot = s.obitGot ++ [s.obit[s.obitTaken]] ∧ t.obit = s.obit ∧ t.osymGot = s.osymGot) ∧
    (∀ (s : State) (ts : List Turn) (h : s.osymTaken < s.osym.length), s.turns = .takeOsym :: ts →
      ∃ t, step s = .next t ∧ t.osymGot = s.osymGot ++ [s.osym[s.osymTaken]] ∧ t.osym = s.osym ∧ t.obitGot = s.obitGot) ∧
    ∀ (s t : State) (ts : List Turn), s.Inv → s.turns = [] ∨ s.turns = .host :: ts → step s = .next t →
      t.obitGot = s.obitGot ∧ t.osymGot = s.osymGot

/-- 10_state.md R34: a step only appends to the two streams, unless `rst` is asserted, which empties them. -/
def Obligations.StreamsOnlyGrow : Prop :=
  ∀ s t : State, step s = .next t →
    (t.rst = true ∧ t.obit = [] ∧ t.osym = []) ∨ (s.obit <+: t.obit ∧ s.osym <+: t.osym)

/-- 10_state.md R24: a step changes PHASE only by reset, CLEAR, BUILD_TREE in COLLECT or DERIVE_CODES in TREE. -/
def Obligations.PhaseChangesOnlyByItsCommands : Prop :=
  ∀ s t : State, step s = .next t → t.phase ≠ s.phase →
    (t.rst = true ∧ t.phase = .collect) ∨
    ∃ r rs, s.requests = r :: rs ∧ r.write = true ∧ r.be = 0xF#4 ∧ r.addr = 0x0014#14 ∧
      ((r.wdata = 0x01000000#32 ∧ t.phase = .collect) ∨
       (r.wdata = 0x04000000#32 ∧ s.err = .none ∧ s.phase = .collect ∧ t.phase = .tree) ∨
       (r.wdata = 0x05000000#32 ∧ s.err = .none ∧ s.phase = .tree ∧ t.phase = .coded))

/-- 10_state.md R21: a step changes FREQ only by reset, CLEAR, or TAB_SYM or FREQ_LOAD in COLLECT, so the table is "never mutated
after construction". -/
def Obligations.TableChangesOnlyInCollect : Prop :=
  ∀ s t : State, step s = .next t → t.freq ≠ s.freq →
    t.rst = true ∨
    ∃ r rs, s.requests = r :: rs ∧ r.write = true ∧ r.be = 0xF#4 ∧ r.addr = 0x0014#14 ∧
      (r.wdata = 0x01000000#32 ∨
       (s.phase = .collect ∧ ∃ x, r.wdata = encode (.tabSym x) ∨ r.wdata = encode (.freqLoad x)))

/-- 10_state.md R16: a step changes ARG only by reset or by the host's write of the new value to ARG; no command does. -/
def Obligations.ArgChangesOnlyByTheBus : Prop :=
  (∀ (i : Instr) (s t : State), exec i s = .next t → t.arg = s.arg) ∧
    ∀ s t : State, step s = .next t → t.arg ≠ s.arg →
      t.rst = true ∨ ∃ r rs, s.requests = r :: rs ∧ r.write = true ∧ r.be = 0xF#4 ∧ r.addr = 0x0018#14 ∧ t.arg = r.wdata

/-- 10_state.md R20 and 60_exceptions.md R102: once an error is recorded, a step changes ERR, ERRCMD or ERRARG only by reset or CLEAR,
and then they are NONE and 0. -/
def Obligations.OnlyClearAndResetLeaveAnError : Prop :=
  ∀ s t : State, s.err ≠ .none → step s = .next t →
    (t.err = s.err ∧ t.errcmd = s.errcmd ∧ t.errarg = s.errarg) ∨
    (t.err = .none ∧ t.errcmd = 0#32 ∧ t.errarg = 0#32 ∧
      (t.rst = true ∨ ∃ r rs, s.requests = r :: rs ∧ r.write = true ∧ r.addr = 0x0014#14 ∧ r.wdata = 0x01000000#32))

/-! ## Reset -/

/-- 70_reset_and_hazards.md R112 and R113: asserting `rst` gives every architectural register its reset value, empties both streams
and buffers, and leaves the consumers what they have taken; the views read ID = 0x48554631, STATUS = 0x8, NSYM = 0, TOTAL = 0;
no step from a sound state with `rst` asserted, the release among them, leaves these values; State.reset is such a state with
`rst` released. That no request is accepted while `rst` is asserted, that requests and responses survive it, and that `rst` is
released in State.reset are the model's choice (log entry 6). -/
def Obligations.ResetValues : Prop :=
  (∀ (s : State) (ts : List Turn), s.turns = .assertReset :: ts → ∃ t, step s = .next t ∧ t.archReset ∧ t.obitTaken = 0 ∧
    t.osymTaken = 0 ∧ t.busy = false ∧ t.rst = true ∧ t.obitGot = s.obitGot ∧ t.osymGot = s.osymGot) ∧
    (∀ t : State, t.archReset → memRead t 0x0000#14 = 0x48554631#32 ∧ memRead t 0x0004#14 = 0x00000008#32 ∧
      memRead t 0x001C#14 = 0#32 ∧ memRead t 0x0020#14 = 0#32) ∧
    (∀ s t : State, s.Inv → s.rst = true → step s = .next t →
      t.archReset ∧ t.requests = s.requests ∧ t.responses = s.responses) ∧
    State.reset.archReset ∧ State.reset.rst = false

/-- 70_reset_and_hazards.md R114: a reset that cuts a request short, or a command that waits for a port, abandons it: the state takes
its reset values, the consumers have got what they had and the next `n` and `m` items of the abandoned command, whatever `n`
and `m` are, and keep them, and the host gets at most one response more, which the statement leaves open. The model's choice:
any oldest request may be cut, a read too (log entry 19); the other requests stay (log entry 6); the response is a free value
(log entry 5); what the consumers have is counted (log entry 7). -/
def Obligations.ResetAbandonsTheCommand : Prop :=
  (∀ (s : State) (r : BusReq) (rs : List BusReq) (ts : List Turn) (n m : Nat), s.rst = false → s.busy = false →
    s.requests = r :: rs → s.turns = .cutByReset n m :: ts →
    ∃ t, step s = .next t ∧ t.archReset ∧ t.rst = true ∧ t.requests = rs ∧
      (t.responses = s.responses ∨ ∃ p, t.responses = s.responses ++ [p]) ∧
      (∀ w u, r = writeReq 0x0014#14 w → issue w { s with requests := rs, turns := ts } = .next u →
        t.obitGot = s.obitPast ++ u.obit.take (s.obitTaken + n) ∧
        t.osymGot = s.osymPast ++ u.osym.take (s.osymTaken + m)) ∧
      (r.write = false ∨ r.addr ≠ 0x0014#14 →
        t.obitGot = s.obitPast ++ s.obit.take (s.obitTaken + n) ∧
        t.osymGot = s.osymPast ++ s.osym.take (s.osymTaken + m))) ∧
    (∀ (s : State) (ts : List Turn) (n m : Nat), s.rst = false → s.busy = true → s.turns = .cutByReset n m :: ts →
      ∃ t, step s = .next t ∧ t.archReset ∧ t.rst = true ∧ t.busy = false ∧ t.requests = s.requests ∧
        (t.responses = s.responses ∨ ∃ p, t.responses = s.responses ++ [p]) ∧
        t.obitGot = s.obitPast ++ s.obit.take (s.obitTaken + n) ∧
        t.osymGot = s.osymPast ++ s.osym.take (s.osymTaken + m)) ∧
    ∀ (s : State) (ts : List Turn), s.busy = true → s.turns = .assertReset :: ts →
      ∃ t, step s = .next t ∧ t.archReset ∧ t.rst = true ∧ t.busy = false ∧ t.requests = s.requests ∧
        (t.responses = s.responses ∨ ∃ p, t.responses = s.responses ++ [p]) ∧ t.obitGot = s.obitGot ∧ t.osymGot = s.osymGot

/-! ## Invariants and safety -/

/-- The invariant holds at reset. -/
def Obligations.ResetStateIsSound : Prop := State.reset.Inv

/-- 10_state.md R36: every step from a sound state leads to a sound state. -/
def Obligations.EveryStepKeepsSoundness : Prop := ∀ s t : State, s.Inv → step s = .next t → t.Inv

/-- 10_state.md R36: a sound state, and so every state of every run from reset, satisfies the six items, in the spec's own
terms. -/
def Obligations.SoundStatesMeetTheSpecInvariants : Prop :=
  ∀ s : State, s.Inv ∨ Reachable s →
    s.total ≤ 2 ^ 32 - 1 ∧
    (s.phase = .collect → s.root = 511#9 ∧ s.nint = 0#8 ∧ s.decPtr = 511#9 ∧
      (∀ k, nodeGet s.intLeft k = 0#9 ∧ nodeGet s.intRight k = 0#9 ∧ nodeGet s.intFreq k = 0#32) ∧
      ∀ x, symGet s.codeLen x = 0#8 ∧ symGet s.codeBits x = 0#256) ∧
    (s.phase ≠ .collect →
      (s.nsym = 0 → s.root = 511#9 ∧ s.nint = 0#8) ∧
      (s.nsym = 1 → (∀ x, s.freqAt x ≠ 0#32 → s.root = leafId x) ∧ s.nint = 0#8) ∧
      (2 ≤ s.nsym → s.root.toNat = 256 + s.nsym - 2 ∧ s.nint.toNat = s.nsym - 1)) ∧
    (s.phase = .tree → ∀ x, symGet s.codeLen x = 0#8 ∧ symGet s.codeBits x = 0#256) ∧
    (s.phase = .coded → ∀ x, symGet s.codeLen x ≠ 0#8 ↔ s.freqAt x ≠ 0#32) ∧
    (s.phase ≠ .collect → 2 ≤ s.nsym →
      s.tree.Strict (presentSyms s.freq) s.nint.toNat ∧
      (∀ k : Fin 255, k.val < s.nint.toNat →
        (nodeGet s.intFreq k).toNat = s.nodeFreq (nodeGet s.intLeft k) + s.nodeFreq (nodeGet s.intRight k)) ∧
      ∀ k : Fin 255, k.val = s.nint.toNat - 1 → (nodeGet s.intFreq k).toNat = s.total)

/-- Safety: in every sound state, and so in every state of every run from reset in any environment, a step and each command of
30_encoding.md R60 answer a next state, never a fault or a refusal (60_exceptions.md R99: errors are captured and the block
goes on). A command that a step runs may still wait for a port (70_reset_and_hazards.md R118). -/
def Obligations.ReachableStatesNeverStop : Prop :=
  (∀ s : State, s.Inv → (∃ t, step s = .next t) ∧ ∀ i : Instr, ∃ t, exec i s = .next t) ∧
    ∀ s : State, Reachable s → (∃ t, step s = .next t) ∧ ∀ i : Instr, ∃ t, exec i s = .next t

/-! ## The host around the block -/

/-- 30_encoding.md R64: a line that assembles gives the requests of the items it reads as, whose operands are in range; each command item is a
CMD write of a word that decodes to that command, never an illegal word, with the operand read; `WR` and `RD` keep their
address and value. How a line is cut into tokens and its numbers read is in part the model's choice (log entry 15). -/
def Obligations.AssemblerNeverMakesAnIllegalWord : Prop :=
  ∀ (line : List Char) (rs : List BusReq), assembleLine line = some rs →
    ∃ items : List AsmItem, (lexLine (line.length + 1) line).bind readLine = some items ∧ rs = items.map asmRequest ∧ (∀ it ∈ items, it.wellFormed = true) ∧
      (∀ it ∈ items, ∀ i, asmInstr it = some i →
        asmRequest it = writeReq 0x0014#14 (encode i) ∧ decode (asmRequest it).wdata = .ok i) ∧
      (∀ n, AsmItem.tabSym n ∈ items → ∃ x : Sym, asmInstr (.tabSym n) = some (.tabSym x) ∧ x.toNat = n) ∧
      (∀ n, AsmItem.freqLoad n ∈ items → ∃ x : Sym, asmInstr (.freqLoad n) = some (.freqLoad x) ∧ x.toNat = n) ∧
      (∀ n, AsmItem.encSym n ∈ items → ∃ x : Sym, asmInstr (.encSym n) = some (.encSym x) ∧ x.toNat = n) ∧
      (∀ n, AsmItem.decBit n ∈ items → ∃ b : Bool, asmInstr (.decBit n) = some (.decBit b) ∧ b.toNat = n) ∧
      (∀ a v, AsmItem.wr a v ∈ items → (asmRequest (.wr a v)).write = true ∧ (asmRequest (.wr a v)).addr.toNat = a ∧
        (asmRequest (.wr a v)).wdata.toNat = v ∧ (asmRequest (.wr a v)).be = 0xF#4) ∧
      ∀ a, AsmItem.rd a ∈ items → (asmRequest (.rd a)).write = false ∧ (asmRequest (.rd a)).addr.toNat = a ∧
        (asmRequest (.rd a)).be = 0xF#4

/-- 46_host_interface.md R88 to R92: reading back the text that a writer persists gives the present symbols with their counts, in
ascending order, and no format error. -/
def Obligations.PersistedTableReadsBack : Prop :=
  ∀ s : State, parseTable (persist s) = ⟨(presentSyms s.freq).map (fun x => (x, s.freqAt x)), none⟩

/-- 46_host_interface.md R89: a reader takes a `SYMBITS` token of any width, leading zeros among it, by its base-2 value, and refuses
an empty one, one with another character, and one above 255. The byte values of the digits are presumed (log entry 18), and
the names of the errors are the model's choice (log entry 16). -/
def Obligations.ReaderTakesAnyWidthSymbol : Prop :=
  (∀ ds : List Nat, ds ≠ [] → (∀ d ∈ ds, d < 2) →
    (ofDigits 2 ds ≤ 255 → parseSymbol (ds.map digitByte) = .ok (BitVec.ofNat 8 (ofDigits 2 ds))) ∧
    (255 < ofDigits 2 ds → parseSymbol (ds.map digitByte) = .error .symbolTooLarge)) ∧
    (∀ token : List Byte, (∃ c ∈ token, c ≠ 0x30#8 ∧ c ≠ 0x31#8) → parseSymbol token = .error .badSymbol) ∧
    parseSymbol [] = .error .emptySymbol

/-- 45_decoder.md R87 with the host procedures of 46_host_interface.md R95 and R96: for any input of at most `2^32 - 1` bytes, read
the same in both passes, and a `PACK` that delivers exactly the bits, encode succeeds from any sound state out of reset, its
`nbits` is the number of bits the reader will recover, and decode of its output with its table, from any sound state out of
reset, succeeds and hands exactly the input to the output sink. The model's choice: the consumers take every item (log entry
17), and `PACK` is a pair of functions (log entry 10). -/
def Obligations.EncodeThenDecodeReproducesTheInput : Prop :=
  ∀ (p : Pack) (input : List Byte) (s : State), p.exact → input.length ≤ 2 ^ 32 - 1 → s.Inv → s.rst = false →
    ∃ r table output nbits, hostEncode p input input none s = .done r ∧ r.table = some table ∧
      r.output = some (output, nbits) ∧ nbits = (p.unpack output).length ∧
      ∀ s' : State, s'.Inv → s'.rst = false →
        ∃ r', hostDecode p output table none s' = .done r' ∧ r'.s.osym = s'.osym ++ input

/-- 46_host_interface.md R95: "The MISSING_CODE check at the end can only fire if pass 2 read different bytes from pass 1": where pass 2
reads a byte that pass 1 did not, encode persists the table of pass 1 and then aborts with MISSING_CODE (60_exceptions.md R98:
6), with no output flushed; where it reads none such, it does not abort. The consumers take every item (log entry 17). -/
def Obligations.EncodeAbortsOnAByteNotTabulated : Prop :=
  ∀ (p : Pack) (pass1 pass2 : List Byte) (s : State), pass1.length ≤ 2 ^ 32 - 1 → s.Inv → s.rst = false →
    ((∃ x ∈ pass2, x ∉ pass1) → ∃ r table, hostEncode p pass1 pass2 none s = .aborted (.coreError 6#32) r ∧
      r.table = some table ∧ r.output = none ∧
      ∀ x c, (x, c) ∈ (parseTable table).entries ↔ x ∈ pass1 ∧ c.toNat = pass1.count x) ∧
    ((∀ x ∈ pass2, x ∈ pass1) → ∃ r, hostEncode p pass1 pass2 none s = .done r)

/-- 60_exceptions.md R103 with 92_eei_decisions.md D30: an I/O failure makes the host abort and issue CLEAR. Where an operation would
have ended well, a failure before any of its lines ends it as an I/O failure, with the block cleared; a failure that never
strikes changes nothing. That it strikes before one of the lines is the model's choice (log entry 17). -/
def Obligations.IoFailureAbortsAndClears : Prop :=
  ∀ (p : Pack) (acts : List HostAct) (n : Nat) (s : State) (r : HostRun), hostRun p acts none s = .done r →
    (n < acts.length → ∃ r', hostRun p acts (some n) s = .aborted .ioFailure r' ∧ r'.s.phase = .collect ∧ r'.s.err = .none ∧
      r'.s.freq = Vector.replicate 256 0#32 ∧ r'.s.encBitcnt = 0#64 ∧ s.obit <+: r'.s.obit ∧ s.osym <+: r'.s.osym) ∧
    (acts.length ≤ n → hostRun p acts (some n) s = .done r)
end

