-- ==== Sys2Proof/Laws/Arrays.lean ====
section
/-! SUPPORT. Laws of the array operations, of the list of all symbols, and of the views NSYM and TOTAL. -/

namespace Sys2Proof.Machine

@[simp] theorem symGet_symSet_same {α : Type} (t : Vector α 256) (x : Sym) (v : α) : symGet (symSet t x v) x = v := by
  simp [symGet, symSet]

theorem symGet_symSet_ne {α : Type} (t : Vector α 256) {x y : Sym} (v : α) (h : y ≠ x) :
    symGet (symSet t x v) y = symGet t y := by
  have : x.toNat ≠ y.toNat := fun e => h (BitVec.eq_of_toNat_eq e.symm)
  simp [symGet, symSet, Vector.getElem_set_ne, this]

theorem symGet_symSet {α : Type} (t : Vector α 256) (x y : Sym) (v : α) :
    symGet (symSet t x v) y = if y = x then v else symGet t y := by
  split
  · next h => subst h; simp
  · next h => exact symGet_symSet_ne t v h

@[simp] theorem symGet_replicate {α : Type} (v : α) (x : Sym) : symGet (Vector.replicate 256 v) x = v := by
  simp [symGet]

@[simp] theorem nodeGet_replicate {α : Type} (v : α) (k : Fin 255) : nodeGet (Vector.replicate 255 v) k = v := by
  simp [nodeGet]

@[simp] theorem nodeGet_tabulate {α : Type} (f : Nat → α) (k : Fin 255) : nodeGet (tabulate 255 f) k = f k.val := by
  simp [nodeGet, tabulate]

/-- Two arrays over the symbols with equal entries are equal. -/
theorem symVector_ext {α : Type} {t u : Vector α 256} (h : ∀ x : Sym, symGet t x = symGet u x) : t = u := by
  apply Vector.ext
  intro i hi
  have hx := h (BitVec.ofNat 8 i)
  have e : (BitVec.ofNat 8 i).toNat = i := by simp; omega
  simpa [symGet, e] using hx

/-- Two arrays over the internal nodes with equal entries are equal. -/
theorem nodeVector_ext {α : Type} {t u : Vector α 255} (h : ∀ k : Fin 255, nodeGet t k = nodeGet u k) : t = u := by
  apply Vector.ext
  intro i hi
  exact h ⟨i, hi⟩

theorem mem_allSyms (x : Sym) : x ∈ allSyms :=
  List.mem_map.2 ⟨x.toNat, List.mem_range.2 x.isLt, by simp⟩

theorem nodup_allSyms : allSyms.Nodup := by
  refine List.Nodup.map_on ?_ List.nodup_range
  intro a ha b hb h
  have := congrArg BitVec.toNat h
  simp only [List.mem_range] at ha hb
  simp only [BitVec.toNat_ofNat] at this
  omega

@[simp] theorem length_allSyms : allSyms.length = 256 := by simp [allSyms]

@[simp] theorem mem_presentSyms (f : Vector Word 256) (x : Sym) : x ∈ presentSyms f ↔ symGet f x ≠ 0#32 := by
  simp [presentSyms, mem_allSyms]

theorem nodup_presentSyms (f : Vector Word 256) : (presentSyms f).Nodup := nodup_allSyms.filter _

theorem length_presentSyms_le (f : Vector Word 256) : (presentSyms f).length ≤ 256 := by
  have := List.length_filter_le (fun x => symGet f x != 0#32) allSyms
  simpa [presentSyms] using this

@[simp] theorem presentSyms_zero : presentSyms (Vector.replicate 256 0#32) = [] := by
  apply List.eq_nil_of_length_eq_zero
  simp [presentSyms]

/-- Changing one entry of a duplicate-free sum changes the sum by the difference. -/
theorem sum_update {α : Type} [DecidableEq α] (g : α → Nat) (a : α) (v : Nat) (l : List α) (hn : l.Nodup) (ha : a ∈ l) :
    (l.map (fun x => if x = a then v else g x)).sum + g a = (l.map g).sum + v := by
  induction l with
  | nil => simp at ha
  | cons b l ih =>
    simp only [List.nodup_cons] at hn
    simp only [List.map_cons, List.sum_cons]
    by_cases hb : b = a
    · subst hb
      have : (l.map (fun x => if x = b then v else g x)) = l.map g := by
        apply List.map_congr_left
        intro x hx
        have : x ≠ b := fun e => hn.1 (e ▸ hx)
        simp [this]
      simp only [this, if_true]
      omega
    · have ha' : a ∈ l := by
        rcases List.mem_cons.1 ha with h | h
        · exact absurd h.symm hb
        · exact h
      have := ih hn.2 ha'
      simp only [hb, if_false]
      omega

/-- What TOTAL becomes when one count is replaced (10_state.md R22). -/
theorem totalOf_symSet (f : Vector Word 256) (x : Sym) (v : Word) :
    totalOf (symSet f x v) + (symGet f x).toNat = totalOf f + v.toNat := by
  have h := sum_update (fun y => (symGet f y).toNat) x v.toNat allSyms nodup_allSyms (mem_allSyms x)
  have e : (allSyms.map (fun y => if y = x then v.toNat else (symGet f y).toNat))
      = allSyms.map (fun y => (symGet (symSet f x v) y).toNat) := by
    apply List.map_congr_left
    intro y _
    rw [symGet_symSet]
    split <;> rfl
  rw [e] at h
  exact h

theorem freq_le_totalOf (f : Vector Word 256) (x : Sym) : (symGet f x).toNat ≤ totalOf f := by
  have := List.single_le_sum (l := allSyms.map (fun y => (symGet f y).toNat)) (by simp) (symGet f x).toNat
    (List.mem_map.2 ⟨x, mem_allSyms x, rfl⟩)
  exact this

@[simp] theorem totalOf_zero : totalOf (Vector.replicate 256 0#32) = 0 := by
  rw [totalOf, List.sum_eq_zero]
  intro n hn
  obtain ⟨x, -, rfl⟩ := List.mem_map.1 hn
  simp

/-- TOTAL is the sum over the present symbols alone. -/
theorem totalOf_eq_present (f : Vector Word 256) :
    totalOf f = ((presentSyms f).map (fun x => (symGet f x).toNat)).sum := by
  unfold totalOf presentSyms
  induction allSyms with
  | nil => rfl
  | cons a l ih =>
    by_cases h : symGet f a = 0#32
    · simp [h, ih]
    · simp [h, ih]

end Sys2Proof.Machine
end

