-- ==== Sys2Proof/Laws/Ids.lean ====
section
/-! SUPPORT. Laws of node ids (10_state.md R29). -/

namespace Sys2Proof.Machine

theorem toNat_leafId (x : Sym) : (leafId x).toNat = x.toNat := by
  have := x.isLt
  simp only [leafId, BitVec.toNat_setWidth]
  omega

@[simp] theorem isLeaf_leafId (x : Sym) : isLeaf (leafId x) = true := by
  have := x.isLt
  simp only [isLeaf, toNat_leafId, decide_eq_true_eq]
  omega

@[simp] theorem leafSym_leafId (x : Sym) : leafSym (leafId x) = x := by
  apply BitVec.eq_of_toNat_eq
  have := x.isLt
  simp only [leafSym, BitVec.toNat_setWidth, toNat_leafId]
  omega

theorem leafId_leafSym {id : NodeId} (h : isLeaf id = true) : leafId (leafSym id) = id := by
  apply BitVec.eq_of_toNat_eq
  simp only [isLeaf, decide_eq_true_eq] at h
  rw [toNat_leafId, leafSym, BitVec.toNat_setWidth]
  omega

theorem leafId_injective : Function.Injective leafId := fun x y h => by
  rw [← leafSym_leafId x, h, leafSym_leafId]

theorem toNat_internalId {k : Nat} (h : k < 256) : (internalId k).toNat = 256 + k := by
  simp only [internalId, BitVec.toNat_ofNat]
  omega

@[simp] theorem isLeaf_internalId {k : Nat} (h : k < 256) : isLeaf (internalId k) = false := by
  simp [isLeaf, toNat_internalId h]

theorem internalIx_internalId {k : Nat} (h : k < 255) : internalIx (internalId k) = some ⟨k, h⟩ := by
  have := toNat_internalId (k := k) (by omega)
  rw [internalIx, dif_pos (by omega)]
  simp only [Option.some.injEq, Fin.mk.injEq]
  omega

theorem internalIx_of_leaf {id : NodeId} (h : isLeaf id = true) : internalIx id = none := by
  simp only [isLeaf, decide_eq_true_eq] at h
  rw [internalIx, dif_neg (by omega)]

theorem isLeaf_of_internalIx {id : NodeId} {k : Fin 255} (h : internalIx id = some k) : isLeaf id = false := by
  by_contra hc
  simp only [Bool.not_eq_false] at hc
  rw [internalIx_of_leaf hc] at h
  cases h

theorem internalId_of_internalIx {id : NodeId} {k : Fin 255} (h : internalIx id = some k) : id = internalId k.val := by
  unfold internalIx at h
  split at h
  · next hr =>
    simp only [Option.some.injEq] at h
    subst h
    apply BitVec.eq_of_toNat_eq
    rw [toNat_internalId (by simp only; omega)]
    simp only
    omega
  · cases h

@[simp] theorem isLeaf_nilId : isLeaf nilId = false := by decide

@[simp] theorem internalIx_nilId : internalIx nilId = none := by decide

theorem leafId_ne_nilId (x : Sym) : leafId x ≠ nilId := fun h => by
  have := isLeaf_leafId x
  rw [h] at this
  cases this

theorem internalId_ne_nilId {k : Nat} (h : k < 255) : internalId k ≠ nilId := fun e => by
  have := internalIx_internalId h
  rw [e] at this
  cases this

/-- An id is a leaf, an internal node or NIL (10_state.md R29). -/
theorem id_cases (id : NodeId) : isLeaf id = true ∨ (∃ k, internalIx id = some k) ∨ id = nilId := by
  by_cases h : id.toNat < 256
  · exact .inl (by simp [isLeaf, h])
  · by_cases h' : id.toNat ≤ 510
    · exact .inr (.inl ⟨⟨id.toNat - 256, by omega⟩, by rw [internalIx, dif_pos (by omega)]⟩)
    · refine .inr (.inr (BitVec.eq_of_toNat_eq ?_))
      have := id.isLt
      simp only [nilId, BitVec.toNat_ofNat]
      omega

end Sys2Proof.Machine
end

