-- ==== Sys2Proof/Laws/Merge.lean ====
section
/-! SUPPORT. Laws of the priority collection and the merge loop (42_tree_builder.md R74 to R77). -/

namespace Sys2Proof.Machine

/-! ## The key order -/

theorem before_iff (a b : QNode) : a.before b = true ↔ a.f < b.f ∨ (a.f = b.f ∧ a.id < b.id) := by
  simp [QNode.before]

theorem before_trans {a b c : QNode} (h : a.before b = true) (h' : b.before c = true) : a.before c = true := by
  rw [before_iff] at *
  omega

theorem before_irrefl (a : QNode) : a.before a = false := by simp [QNode.before]

/-- Keys with different ids are comparable: "this order is total" (42_tree_builder.md R74). -/
theorem before_total {a b : QNode} (h : a.id ≠ b.id) : a.before b = true ∨ b.before a = true := by
  rw [before_iff, before_iff]
  omega

/-! ## Extraction -/

theorem minKey_mem (x : QNode) (l : List QNode) : minKey x l ∈ x :: l := by
  induction l generalizing x with
  | nil => simp [minKey]
  | cons y ys ih =>
    simp only [minKey]
    split
    · exact List.mem_cons_of_mem _ (ih y)
    · rcases List.mem_cons.1 (ih x) with h | h
      · rw [h]; simp
      · exact List.mem_cons_of_mem _ (List.mem_cons_of_mem _ h)

theorem minKey_le (x : QNode) (l : List QNode) :
    ∀ z ∈ x :: l, z.before (minKey x l) = false := by
  induction l generalizing x with
  | nil => intro z hz; simp at hz; subst hz; exact before_irrefl _
  | cons y ys ih =>
    intro z hz
    have ih' := ih (if y.before x then y else x)
    simp only [minKey]
    by_cases hy : y.before x
    · simp only [hy, if_true] at ih' ⊢
      simp only [List.mem_cons] at hz
      rcases hz with h | h | h
      · subst h
        have h1 := ih' y (by simp)
        by_contra hc
        simp only [Bool.not_eq_false] at hc
        rw [before_trans hy hc] at h1
        cases h1
      · exact ih' z (by simp [h])
      · exact ih' z (by simp [h])
    · have hy' : y.before x = false := by simpa using hy
      simp only [hy', Bool.false_eq_true, if_false] at ih' ⊢
      simp only [List.mem_cons] at hz
      rcases hz with h | h | h
      · exact ih' z (by simp [h])
      · subst h
        have h1 := ih' x (by simp)
        by_contra hc
        simp only [Bool.not_eq_false] at hc
        by_cases e : x.id = z.id
        · rw [before_iff] at hc
          have h2 : x.before (minKey x ys) = true := by
            rw [before_iff]
            have h3 : ¬ (z.f < x.f ∨ z.f = x.f ∧ z.id < x.id) := by rw [← before_iff]; simp [hy']
            omega
          rw [h2] at h1; cases h1
        · rcases before_total e with h2 | h2
          · rw [before_trans h2 hc] at h1; cases h1
          · rw [h2] at hy'; cases hy'
      · exact ih' z (by simp [h])

/-- Extraction takes one element out and leaves the others. -/
theorem extractMin_perm {q q1 : List QNode} {a : QNode} (h : extractMin q = some (a, q1)) : q.Perm (a :: q1) := by
  cases q with
  | nil => simp [extractMin] at h
  | cons x xs =>
    simp only [extractMin, Option.some.injEq, Prod.mk.injEq] at h
    obtain ⟨rfl, rfl⟩ := h
    exact List.perm_cons_erase (minKey_mem x xs)

/-- Nothing in the collection has a smaller key than what extraction takes (00_scope.md R9 `min_key`). -/
theorem extractMin_le {q q1 : List QNode} {a : QNode} (h : extractMin q = some (a, q1)) :
    ∀ z ∈ q, z.before a = false := by
  cases q with
  | nil => simp [extractMin] at h
  | cons x xs =>
    simp only [extractMin, Option.some.injEq, Prod.mk.injEq] at h
    obtain ⟨rfl, rfl⟩ := h
    exact minKey_le x xs

theorem extractMin_isSome {q : List QNode} (h : 0 < q.length) : ∃ a q1, extractMin q = some (a, q1) := by
  cases q with
  | nil => simp at h
  | cons x xs => exact ⟨_, _, rfl⟩

/-- One turn of the merge loop: two elements leave the collection, their node is created, and it is put in. -/
theorem mergeLoop_succ {n k : Nat} {q : List QNode} (h : 2 ≤ q.length) :
    ∃ a b q2, q.Perm (a :: b :: q2) ∧ (∀ z ∈ q, z.before a = false) ∧ (∀ z ∈ b :: q2, z.before b = false) ∧
      mergeLoop (n + 1) k q = ⟨a.id, b.id, a.f + b.f⟩ :: mergeLoop n (k + 1) (⟨a.f + b.f, 256 + k⟩ :: q2) := by
  obtain ⟨a, q1, h1⟩ := extractMin_isSome (show 0 < q.length by omega)
  have p1 := extractMin_perm h1
  have l1 : q.length = q1.length + 1 := by simpa using p1.length_eq
  obtain ⟨b, q2, h2⟩ := extractMin_isSome (show 0 < q1.length by omega)
  have p2 := extractMin_perm h2
  refine ⟨a, b, q2, p1.trans (p2.cons a), extractMin_le h1, ?_, ?_⟩
  · intro z hz
    exact extractMin_le h2 z (p2.mem_iff.2 hz)
  · simp [mergeLoop, h1, h2]

/-- The loop creates as many nodes as it merges, while the collection lasts. -/
theorem length_mergeLoop {n k : Nat} {q : List QNode} (h : q.length = n + 1) : (mergeLoop n k q).length = n := by
  induction n generalizing k q with
  | zero => rfl
  | succ n ih =>
    obtain ⟨a, b, q2, hp, -, -, he⟩ := mergeLoop_succ (n := n) (k := k) (q := q) (by omega)
    have hl := hp.length_eq
    simp only [List.length_cons] at hl
    rw [he, List.length_cons, ih]
    simp only [List.length_cons]
    omega

/-- The child ids of created nodes, in order. -/
def childrenOf (ms : List MergedNode) : List Nat := ms.flatMap (fun m => [m.left, m.right])

/-- Every id that was ever in the collection is a child once, but for the last node created: the ids of the loop's children,
with the id left at the end, are the ids at the start with the ids created. -/
theorem mergeLoop_children {n k : Nat} {q : List QNode} (h : q.length = n + 1) :
    ∃ last, (childrenOf (mergeLoop n k q) ++ [last]).Perm (q.map QNode.id ++ (List.range n).map (fun j => 256 + k + j)) ∧
      (0 < n → last = 256 + k + (n - 1)) := by
  induction n generalizing k q with
  | zero =>
    obtain ⟨x, rfl⟩ := List.length_eq_one_iff.1 h
    exact ⟨x.id, by simp [mergeLoop, childrenOf], by simp⟩
  | succ n ih =>
    obtain ⟨a, b, q2, hp, -, -, he⟩ := mergeLoop_succ (n := n) (k := k) (q := q) (by omega)
    have hl := hp.length_eq
    simp only [List.length_cons] at hl
    obtain ⟨last, hperm, hlast⟩ := ih (k := k + 1) (q := ⟨a.f + b.f, 256 + k⟩ :: q2) (by simp; omega)
    refine ⟨last, ?_, ?_⟩
    · have hq : (q.map QNode.id).Perm (a.id :: b.id :: q2.map QNode.id) := by simpa using hp.map QNode.id
      have hr : (List.range (n + 1)).map (fun j => 256 + k + j)
          = (256 + k) :: (List.range n).map (fun j => 256 + (k + 1) + j) := by
        rw [List.range_succ_eq_map]
        simp only [List.map_cons, List.map_map, Nat.add_zero]
        congr 1
        apply List.map_congr_left
        intro j _
        simp only [Function.comp, Nat.succ_eq_add_one]
        omega
      rw [he, hr]
      simp only [childrenOf, List.flatMap_cons, List.cons_append, List.nil_append] at hperm ⊢
      refine List.Perm.trans ?_ (hq.symm.append_right _)
      simp only [List.cons_append]
      refine List.Perm.cons _ (List.Perm.cons _ (hperm.trans ?_))
      simp only [List.map_cons, List.cons_append]
      exact (List.perm_middle).symm
    · intro _
      by_cases hn : 0 < n
      · rw [hlast hn]; omega
      · have : n = 0 := by omega
        subst this
        simp only [mergeLoop, childrenOf, List.flatMap_nil, List.nil_append, List.map_cons, List.range_zero,
          List.map_nil, List.append_nil] at hperm
        have hq2 : q2 = [] := List.eq_nil_of_length_eq_zero (by omega)
        subst hq2
        simpa using hperm

/-- Children are created before their parent (42_tree_builder.md R77 item 5). -/
theorem mergeLoop_older {n k : Nat} {q : List QNode} (h : q.length = n + 1) (hq : ∀ x ∈ q, x.id < 256 + k) :
    ∀ j (hj : j < (mergeLoop n k q).length),
      (mergeLoop n k q)[j].left < 256 + k + j ∧ (mergeLoop n k q)[j].right < 256 + k + j := by
  induction n generalizing k q with
  | zero => intro j hj; simp [mergeLoop] at hj
  | succ n ih =>
    obtain ⟨a, b, q2, hp, -, -, he⟩ := mergeLoop_succ (n := n) (k := k) (q := q) (by omega)
    have hl := hp.length_eq
    simp only [List.length_cons] at hl
    have ha := hq a (hp.mem_iff.2 (by simp))
    have hb := hq b (hp.mem_iff.2 (by simp))
    rw [he]
    intro j hj
    cases j with
    | zero => exact ⟨ha, hb⟩
    | succ j =>
      have := ih (k := k + 1) (q := ⟨a.f + b.f, 256 + k⟩ :: q2) (by simp; omega) (by
        intro x hx
        rcases List.mem_cons.1 hx with h | h
        · subst h; simp only; omega
        · have := hq x (hp.mem_iff.2 (by simp [h])); omega) j (by simpa using hj)
      simp only [List.getElem_cons_succ]
      omega

/-- Frequencies add up (42_tree_builder.md R76, R77 item 4): if `fr` gives each collected node its frequency and each
created node the one the loop gives it, a created node's frequency is the sum of its children's. -/
theorem mergeLoop_freq {n k : Nat} {q : List QNode} (h : q.length = n + 1) (fr : Nat → Nat)
    (hq : ∀ x ∈ q, fr x.id = x.f)
    (hfr : ∀ j (hj : j < (mergeLoop n k q).length), fr (256 + k + j) = (mergeLoop n k q)[j].f) :
    ∀ j (hj : j < (mergeLoop n k q).length),
      (mergeLoop n k q)[j].f = fr (mergeLoop n k q)[j].left + fr (mergeLoop n k q)[j].right := by
  induction n generalizing k q with
  | zero => intro j hj; simp [mergeLoop] at hj
  | succ n ih =>
    obtain ⟨a, b, q2, hp, -, -, he⟩ := mergeLoop_succ (n := n) (k := k) (q := q) (by omega)
    have hl := hp.length_eq
    simp only [List.length_cons] at hl
    have ha := hq a (hp.mem_iff.2 (by simp))
    have hb := hq b (hp.mem_iff.2 (by simp))
    rw [he] at hfr ⊢
    intro j hj
    cases j with
    | zero => simp [ha, hb]
    | succ j =>
      simp only [List.getElem_cons_succ]
      refine ih (k := k + 1) (q := ⟨a.f + b.f, 256 + k⟩ :: q2) (by simp; omega) ?_ ?_ j (by simpa using hj)
      · intro x hx
        rcases List.mem_cons.1 hx with h | h
        · subst h; exact hfr 0 (by simp)
        · exact hq x (hp.mem_iff.2 (by simp [h]))
      · intro i hi
        have := hfr (i + 1) (by simpa using hi)
        simp only [List.getElem_cons_succ] at this
        rw [← this]
        congr 1
        omega

/-- No created node is heavier than the collection (42_tree_builder.md R76: "it cannot wrap"). -/
theorem mergeLoop_freq_le {n k : Nat} {q : List QNode} (h : q.length = n + 1) :
    ∀ m ∈ mergeLoop n k q, m.f ≤ (q.map QNode.f).sum := by
  induction n generalizing k q with
  | zero => intro m hm; simp [mergeLoop] at hm
  | succ n ih =>
    obtain ⟨a, b, q2, hp, -, -, he⟩ := mergeLoop_succ (n := n) (k := k) (q := q) (by omega)
    have hl := hp.length_eq
    simp only [List.length_cons] at hl
    have hs : (q.map QNode.f).sum = a.f + (b.f + (q2.map QNode.f).sum) := by
      simpa using (hp.map QNode.f).sum_eq
    rw [he]
    intro m hm
    rcases List.mem_cons.1 hm with h | h
    · subst h; simp only; omega
    · have := ih (k := k + 1) (q := ⟨a.f + b.f, 256 + k⟩ :: q2) (by simp; omega) m h
      simp only [List.map_cons, List.sum_cons] at this
      omega

/-- The last node created weighs the whole collection (42_tree_builder.md R77 item 4: "Frequency conservation"). -/
theorem mergeLoop_last {n k : Nat} {q : List QNode} (h : q.length = n + 2)
    (hj : n < (mergeLoop (n + 1) k q).length) : (mergeLoop (n + 1) k q)[n].f = (q.map QNode.f).sum := by
  induction n generalizing k q with
  | zero =>
    obtain ⟨a, b, q2, hp, -, -, he⟩ := mergeLoop_succ (n := 0) (k := k) (q := q) (by omega)
    have hl := hp.length_eq
    simp only [List.length_cons] at hl
    have hq2 : q2 = [] := List.eq_nil_of_length_eq_zero (by omega)
    subst hq2
    have hs : (q.map QNode.f).sum = a.f + (b.f + 0) := by simpa using (hp.map QNode.f).sum_eq
    simp [he, hs]
  | succ n ih =>
    obtain ⟨a, b, q2, hp, -, -, he⟩ := mergeLoop_succ (n := n + 1) (k := k) (q := q) (by omega)
    have hl := hp.length_eq
    simp only [List.length_cons] at hl
    have hs : (q.map QNode.f).sum = a.f + (b.f + (q2.map QNode.f).sum) := by
      simpa using (hp.map QNode.f).sum_eq
    simp only [he, List.getElem_cons_succ]
    rw [ih (by simp; omega)]
    simp only [List.map_cons, List.sum_cons]
    omega

end Sys2Proof.Machine
end

