-- ==== Sys2Proof/Laws/Tree.lean ====
section
/-! SUPPORT. Laws of the tree that BUILD_TREE builds (42_tree_builder.md R76, R77). -/

namespace Sys2Proof.Machine

/-! ## Binary trees over symbols, as a proof device -/

/-- A binary tree with symbols at its leaves. -/
inductive HTree where
  | leaf (x : Sym)
  | node (l r : HTree)

/-- The leaves, left to right. -/
def HTree.leaves : HTree → List Sym
  | .leaf x => [x]
  | .node l r => l.leaves ++ r.leaves

/-- The number of branches on the longest path. -/
def HTree.depth : HTree → Nat
  | .leaf _ => 0
  | .node l r => max l.depth r.depth + 1

/-- Each leaf with the path to it, after the path `c`. -/
def HTree.paths : HTree → List Bool → List (Sym × List Bool)
  | .leaf x, c => [(x, c)]
  | .node l r, c => l.paths (c ++ [false]) ++ r.paths (c ++ [true])

theorem HTree.leaves_pos (h : HTree) : 0 < h.leaves.length := by
  induction h with
  | leaf x => simp [HTree.leaves]
  | node l r ihl ihr => simp only [HTree.leaves, List.length_append]; omega

/-- "A path crosses each internal node at most once" (43_code_deriver.md R79). -/
theorem HTree.depth_lt_leaves (h : HTree) : h.depth < h.leaves.length := by
  induction h with
  | leaf x => simp [HTree.leaves, HTree.depth]
  | node l r ihl ihr =>
    have := l.leaves_pos
    have := r.leaves_pos
    simp only [HTree.leaves, HTree.depth, List.length_append]
    omega

/-- `t` unfolds to a binary tree from the node `id`. -/
inductive Tree.Unfolds (t : Tree) : NodeId → HTree → Prop where
  | leaf {id : NodeId} (h : isLeaf id = true) : t.Unfolds id (.leaf (leafSym id))
  | node {id : NodeId} {k : Fin 255} {l r : HTree} (h : internalIx id = some k) (hl : t.Unfolds (t.child k false) l)
      (hr : t.Unfolds (t.child k true) r) : t.Unfolds id (.node l r)

/-! ## The arrays of buildTree -/

theorem length_leafQueue (f : Vector Word 256) : (leafQueue f).length = (presentSyms f).length := by
  simp [leafQueue]

theorem leafQueue_id_lt (f : Vector Word 256) : ∀ x ∈ leafQueue f, x.id < 256 := by
  intro x hx
  obtain ⟨y, -, rfl⟩ := List.mem_map.1 hx
  exact y.isLt

theorem leafQueue_ids (f : Vector Word 256) : (leafQueue f).map QNode.id = (presentSyms f).map BitVec.toNat := by
  simp [leafQueue, Function.comp_def]

theorem leafQueue_freqs (f : Vector Word 256) : ((leafQueue f).map QNode.f).sum = totalOf f := by
  rw [totalOf_eq_present]
  simp [leafQueue, Function.comp_def]

theorem length_mergedNodes {f : Vector Word 256} (h : 1 ≤ (presentSyms f).length) :
    (mergedNodes f).length = (presentSyms f).length - 1 :=
  length_mergeLoop (by rw [length_leafQueue]; omega)

theorem mergedNodes_nil {f : Vector Word 256} (h : (presentSyms f).length ≤ 1) : mergedNodes f = [] := by
  have : (presentSyms f).length - 1 = 0 := by omega
  simp [mergedNodes, this, mergeLoop]

theorem length_mergedNodes_le (f : Vector Word 256) : (mergedNodes f).length ≤ 255 := by
  by_cases h : 1 ≤ (presentSyms f).length
  · have := length_presentSyms_le f
    rw [length_mergedNodes h]; omega
  · rw [mergedNodes_nil (by omega)]; simp

/-- `NINT` (42_tree_builder.md R76). -/
theorem buildTree_nint (f : Vector Word 256) : (buildTree f).nint.toNat = (presentSyms f).length - 1 := by
  have := length_presentSyms_le f
  simp only [buildTree, BitVec.toNat_ofNat]
  omega

theorem buildTree_root (f : Vector Word 256) : (buildTree f).root = rootOf (presentSyms f) := rfl

theorem rootOf_two {p : List Sym} (h : 2 ≤ p.length) : rootOf p = internalId (p.length - 2) := by
  match p, h with
  | _ :: _ :: rest, _ => simp [rootOf]

theorem buildTree_child {f : Vector Word 256} {k : Fin 255} (h : k.val < (mergedNodes f).length) :
    (buildTree f).child k false = BitVec.ofNat 9 (mergedNodes f)[k.val].left ∧
      (buildTree f).child k true = BitVec.ofNat 9 (mergedNodes f)[k.val].right := by
  simp [Tree.child, buildTree, List.getElem?_eq_getElem h]

theorem buildTree_freq {f : Vector Word 256} {k : Fin 255} (h : k.val < (mergedNodes f).length) :
    nodeGet (buildTree f).freq k = BitVec.ofNat 32 (mergedNodes f)[k.val].f := by
  simp [buildTree, List.getElem?_eq_getElem h]

/-- Entries `k >= NINT` are 0 (10_state.md R28). -/
theorem buildTree_unused {f : Vector Word 256} {k : Fin 255} (h : (buildTree f).nint.toNat ≤ k.val) :
    nodeGet (buildTree f).left k = 0#9 ∧ nodeGet (buildTree f).right k = 0#9 ∧ nodeGet (buildTree f).freq k = 0#32 := by
  have hn : (mergedNodes f)[k.val]? = none := by
    rw [List.getElem?_eq_none_iff]
    rw [buildTree_nint] at h
    by_cases h1 : 1 ≤ (presentSyms f).length
    · rw [length_mergedNodes h1]; exact h
    · rw [mergedNodes_nil (by omega)]; simp
  simp [buildTree, hn]

/-- An empty table builds the empty tree (42_tree_builder.md R76). -/
theorem buildTree_zero : buildTree (Vector.replicate 256 0#32) = Tree.empty := by
  have hp : presentSyms (Vector.replicate 256 0#32) = [] := presentSyms_zero
  have hm : mergedNodes (Vector.replicate 256 0#32) = [] := mergedNodes_nil (by simp)
  simp only [buildTree, Tree.empty, Tree.mk.injEq, hp, hm, rootOf]
  refine ⟨trivial, rfl, nodeVector_ext ?_, nodeVector_ext ?_, nodeVector_ext ?_⟩ <;> intro k <;> simp

/-! ## The tree is strict -/

theorem mergedNodes_children {f : Vector Word 256} (h : 2 ≤ (presentSyms f).length) :
    (childrenOf (mergedNodes f)).Perm
      ((presentSyms f).map BitVec.toNat ++ (List.range ((presentSyms f).length - 2)).map (fun j => 256 + j)) := by
  obtain ⟨n, hn⟩ : ∃ n, (presentSyms f).length = n + 2 := ⟨_, (Nat.sub_add_cancel h).symm⟩
  obtain ⟨last, hp, hl⟩ := mergeLoop_children (n := n + 1) (k := 0) (q := leafQueue f)
    (by rw [length_leafQueue]; omega)
  have hl' := hl (by omega)
  rw [leafQueue_ids, List.range_succ, List.map_append, ← List.append_assoc] at hp
  have e : mergedNodes f = mergeLoop (n + 1) 0 (leafQueue f) := by
    simp [mergedNodes, hn]
  rw [e]
  simp only [List.map_cons, List.map_nil, Nat.add_zero] at hp
  have hl'' : last = 256 + n := by omega
  rw [hl''] at hp
  have := (List.perm_append_right_iff _).1 hp
  rw [hn]
  simpa using this

theorem mergedNodes_older {f : Vector Word 256} {j : Nat} (hj : j < (mergedNodes f).length) :
    (mergedNodes f)[j].left < 256 + j ∧ (mergedNodes f)[j].right < 256 + j := by
  have h1 : 1 ≤ (presentSyms f).length := by
    by_contra hc
    rw [mergedNodes_nil (by omega)] at hj
    simp at hj
  have := mergeLoop_older (n := (presentSyms f).length - 1) (k := 0) (q := leafQueue f)
    (by rw [length_leafQueue]; omega) (leafQueue_id_lt f) j hj
  simp only [Nat.add_zero] at this
  exact this

theorem leaf_or_older {id k : Nat} (h : id < 256 + k) :
    isLeaf (BitVec.ofNat 9 id) = true ∨ ∃ j, j < k ∧ BitVec.ofNat 9 id = internalId j := by
  by_cases hl : id < 256
  · left
    simp only [isLeaf, BitVec.toNat_ofNat, decide_eq_true_eq]
    omega
  · have e : 256 + (id - 256) = id := by omega
    exact .inr ⟨id - 256, by omega, by rw [internalId, e]⟩

theorem childIds_buildTree (f : Vector Word 256) :
    (buildTree f).childIds (mergedNodes f).length = (childrenOf (mergedNodes f)).map (BitVec.ofNat 9) := by
  have hle := length_mergedNodes_le f
  have e : (List.finRange 255).filter (fun k => decide (k.val < (mergedNodes f).length))
      = (List.finRange (mergedNodes f).length).map (fun k => ⟨k.val, by omega⟩) := by
    apply List.map_injective_iff.2 Fin.val_injective
    have h1 : ((List.finRange 255).filter (fun k => decide (k.val < (mergedNodes f).length))).map Fin.val
        = (List.range 255).filter (fun j => decide (j < (mergedNodes f).length)) := by
      rw [← List.map_coe_finRange_eq_range, List.filter_map]
      rfl
    rw [h1, List.map_map]
    have h2 : (List.range 255).filter (fun j => decide (j < (mergedNodes f).length))
        = List.range (mergedNodes f).length := by
      obtain ⟨d, hd⟩ := Nat.exists_eq_add_of_le hle
      rw [hd, List.range_add, List.filter_append]
      have a : (List.range (mergedNodes f).length).filter (fun j => decide (j < (mergedNodes f).length))
          = List.range (mergedNodes f).length := by
        rw [List.filter_eq_self]
        intro j hj
        simpa using hj
      have b : ((List.range d).map (fun x => (mergedNodes f).length + x)).filter
          (fun j => decide (j < (mergedNodes f).length)) = [] := by
        rw [List.filter_eq_nil_iff]
        intro j hj
        obtain ⟨i, -, rfl⟩ := List.mem_map.1 hj
        simp
      rw [a, b, List.append_nil]
    rw [h2, ← List.map_coe_finRange_eq_range]
    rfl
  unfold Tree.childIds childrenOf
  rw [e, List.flatMap_map, List.map_flatMap]
  conv_rhs => rw [← List.map_getElem_finRange (mergedNodes f)]
  rw [List.flatMap_map]
  apply List.flatMap_congr
  intro k _
  obtain ⟨hl, hr⟩ := buildTree_child (f := f) (k := ⟨k.val, by omega⟩) k.isLt
  rw [hl, hr]
  rfl

/-- The tree is one strict binary tree over the present symbols (10_state.md R36 item 6; 42_tree_builder.md R77 items 2, 3
and 5). -/
theorem buildTree_strict {f : Vector Word 256} (h : 2 ≤ (presentSyms f).length) :
    (buildTree f).Strict (presentSyms f) ((presentSyms f).length - 1) := by
  have hlen := length_mergedNodes (f := f) (by omega)
  have hle := length_presentSyms_le f
  refine ⟨?_, ?_⟩
  · rw [← hlen, childIds_buildTree, hlen]
    refine ((mergedNodes_children h).map (BitVec.ofNat 9)).trans (List.Perm.of_eq ?_)
    rw [List.map_append, nonRootIds]
    congr 1
    · rw [List.map_map]
      apply List.map_congr_left
      intro x _
      apply BitVec.eq_of_toNat_eq
      have := x.isLt
      rw [toNat_leafId]
      simp only [Function.comp, BitVec.toNat_ofNat]
      omega
    · rw [List.map_map]
      rfl
  · intro k b hk
    rw [← hlen] at hk
    obtain ⟨hl, hr⟩ := buildTree_child hk
    obtain ⟨ol, or_⟩ := mergedNodes_older hk
    cases b
    · rw [hl]; exact leaf_or_older ol
    · rw [hr]; exact leaf_or_older or_

/-! ## The tree unfolds -/

/-- The created nodes `nodes` unfold to a binary tree from an id. -/
inductive Unf (nodes : List MergedNode) : Nat → HTree → Prop where
  | leaf {id : Nat} (h : id < 256) : Unf nodes id (.leaf (BitVec.ofNat 8 id))
  | node {k : Nat} {m : MergedNode} {l r : HTree} (h : nodes[k]? = some m) (hl : Unf nodes m.left l)
      (hr : Unf nodes m.right r) : Unf nodes (256 + k) (.node l r)

theorem unf_mergeLoop {nodes : List MergedNode} {n k : Nat} {q : List QNode} (hlen : q.length = n + 2)
    (hdrop : nodes.drop k = mergeLoop (n + 1) k q) (hid : ∀ x ∈ q, x.id < 256 + k) (lf : Nat → HTree)
    (hq : ∀ x ∈ q, Unf nodes x.id (lf x.id)) :
    ∃ h, Unf nodes (256 + k + n) h ∧ h.leaves.Perm (q.flatMap (fun x => (lf x.id).leaves)) ∧ 1 ≤ h.depth := by
  induction n generalizing k q lf with
  | zero =>
    obtain ⟨a, b, q2, hp, -, -, he⟩ := mergeLoop_succ (n := 0) (k := k) (q := q) (by omega)
    have hl := hp.length_eq
    simp only [List.length_cons] at hl
    have hq2 : q2 = [] := List.eq_nil_of_length_eq_zero (by omega)
    subst hq2
    rw [he] at hdrop
    have hk : nodes[k]? = some ⟨a.id, b.id, a.f + b.f⟩ := by
      have := congrArg (fun l => l[0]?) hdrop
      simpa using this
    refine ⟨.node (lf a.id) (lf b.id), .node hk (hq a (hp.mem_iff.2 (by simp))) (hq b (hp.mem_iff.2 (by simp))), ?_, ?_⟩
    · refine List.Perm.trans (List.Perm.of_eq ?_) (hp.flatMap_right (fun x => (lf x.id).leaves)).symm
      simp [HTree.leaves]
    · simp [HTree.depth]
  | succ n ih =>
    obtain ⟨a, b, q2, hp, -, -, he⟩ := mergeLoop_succ (n := n + 1) (k := k) (q := q) (by omega)
    have hl := hp.length_eq
    simp only [List.length_cons] at hl
    rw [he] at hdrop
    have hk : nodes[k]? = some ⟨a.id, b.id, a.f + b.f⟩ := by
      have := congrArg (fun l => l[0]?) hdrop
      simpa using this
    have hdrop' : nodes.drop (k + 1) = mergeLoop (n + 1) (k + 1) (⟨a.f + b.f, 256 + k⟩ :: q2) := by
      have := congrArg List.tail hdrop
      simpa [List.tail_drop] using this
    have hmem : ∀ x ∈ q2, x ∈ q := fun x hx => hp.mem_iff.2 (by simp [hx])
    have hne : ∀ x ∈ q2, x.id ≠ 256 + k := fun x hx => by have := hid x (hmem x hx); omega
    obtain ⟨h, hu, hperm, hd⟩ := ih (k := k + 1) (q := ⟨a.f + b.f, 256 + k⟩ :: q2) (by simp; omega) hdrop'
      (by
        intro x hx
        rcases List.mem_cons.1 hx with h | h
        · subst h; simp only; omega
        · have := hid x (hmem x h); omega)
      (fun i => if i = 256 + k then .node (lf a.id) (lf b.id) else lf i)
      (by
        intro x hx
        rcases List.mem_cons.1 hx with h | h
        · subst h
          simp only [if_true]
          exact .node hk (hq a (hp.mem_iff.2 (by simp))) (hq b (hp.mem_iff.2 (by simp)))
        · simp only [if_neg (hne x h)]
          exact hq x (hmem x h))
    refine ⟨h, ?_, ?_, hd⟩
    · have : 256 + k + (n + 1) = 256 + (k + 1) + n := by omega
      rw [this]; exact hu
    · refine hperm.trans (List.Perm.trans (List.Perm.of_eq ?_) (hp.flatMap_right (fun x => (lf x.id).leaves)).symm)
      simp only [List.flatMap_cons, if_true, HTree.leaves, List.append_assoc]
      congr 2
      apply List.flatMap_congr
      intro x hx
      rw [if_neg (hne x hx)]

theorem unfolds_of_unf {f : Vector Word 256} {id : Nat} {h : HTree} (hu : Unf (mergedNodes f) id h) :
    (buildTree f).Unfolds (BitVec.ofNat 9 id) h := by
  induction hu with
  | leaf hlt =>
    rename_i id
    have e : leafSym (BitVec.ofNat 9 id) = BitVec.ofNat 8 id := by
      apply BitVec.eq_of_toNat_eq
      simp only [leafSym, BitVec.toNat_setWidth, BitVec.toNat_ofNat]
      omega
    rw [← e]
    exact .leaf (by simp only [isLeaf, BitVec.toNat_ofNat, decide_eq_true_eq]; omega)
  | @node k m l r hk _ _ ihl ihr =>
    have hklt : k < (mergedNodes f).length := (List.getElem?_eq_some_iff.1 hk).1
    have hm : (mergedNodes f)[k] = m := (List.getElem?_eq_some_iff.1 hk).2
    have h255 := length_mergedNodes_le f
    obtain ⟨hl, hr⟩ := buildTree_child (f := f) (k := ⟨k, by omega⟩) hklt
    simp only [hm] at hl hr
    refine .node (k := ⟨k, by omega⟩) (internalIx_internalId (by omega)) ?_ ?_
    · rw [hl]; exact ihl
    · rw [hr]; exact ihr

/-- With two or more present symbols, the tree unfolds from its root to a binary tree whose leaves are the present symbols,
each once (42_tree_builder.md R77 items 2 and 3). -/
theorem buildTree_unfolds {f : Vector Word 256} (h : 2 ≤ (presentSyms f).length) :
    ∃ t, (buildTree f).Unfolds (buildTree f).root t ∧ t.leaves.Perm (presentSyms f) ∧ 1 ≤ t.depth := by
  obtain ⟨n, hn⟩ : ∃ n, (presentSyms f).length = n + 2 := ⟨_, (Nat.sub_add_cancel h).symm⟩
  obtain ⟨t, hu, hp, hd⟩ := unf_mergeLoop (nodes := mergedNodes f) (n := n) (k := 0) (q := leafQueue f)
    (by rw [length_leafQueue]; omega) (by simp [mergedNodes, hn])
    (fun x hx => by have := leafQueue_id_lt f x hx; omega)
    (fun i => .leaf (BitVec.ofNat 8 i)) (fun x hx => .leaf (leafQueue_id_lt f x hx))
  refine ⟨t, ?_, ?_, hd⟩
  · rw [buildTree_root, rootOf_two h, hn]
    have := unfolds_of_unf hu
    simpa [internalId] using this
  · refine hp.trans (List.Perm.of_eq ?_)
    rw [leafQueue, List.flatMap_map]
    simp [HTree.leaves]

end Sys2Proof.Machine
end

