-- ==== Sys2Proof/Laws/Codes.lean ====
section
/-! SUPPORT. Laws of the CodeTable and of the walk that derives it (43_code_deriver.md R79, R80). -/

namespace Sys2Proof.Machine

/-! ## Recording a code -/

theorem getLsbD_setBit (v : BitVec 256) (i j : Nat) (b : Bool) (hj : j < 256) :
    (setBit v i b).getLsbD j = if j = i then b else v.getLsbD j := by
  cases b <;> simp only [setBit, if_true, Bool.false_eq_true, if_false] <;> by_cases h : i = j <;>
    simp [h, hj, eq_comm]

theorem getLsbD_writeCode (c : List Bool) (i : Nat) (v : BitVec 256) (j : Nat) (hj : j < 256) :
    (writeCode c i v).getLsbD j = if i ≤ j ∧ j < i + c.length then c.getD (j - i) false else v.getLsbD j := by
  induction c generalizing i v with
  | nil =>
    rw [if_neg (by simp only [List.length_nil]; omega)]
    rfl
  | cons b bs ih =>
    rw [writeCode, ih, getLsbD_setBit _ _ _ _ hj]
    by_cases h1 : i + 1 ≤ j ∧ j < i + 1 + bs.length
    · rw [if_pos h1, if_pos (by simp only [List.length_cons]; omega)]
      have e : j - i = (j - (i + 1)) + 1 := by omega
      rw [e, List.getD_cons_succ]
    · rw [if_neg h1]
      by_cases h2 : j = i
      · subst h2
        simp
      · rw [if_neg h2, if_neg (by simp only [List.length_cons]; omega)]

@[simp] theorem code_zero (x : Sym) : CodeTable.zero.code x = [] := by simp [CodeTable.code, CodeTable.zero]

/-- Recording a code leaves every other symbol's entry alone. -/
theorem record_other (t : CodeTable) {x y : Sym} (c : List Bool) (h : y ≠ x) :
    symGet (t.record x c).len y = symGet t.len y ∧ symGet (t.record x c).bits y = symGet t.bits y := by
  simp [CodeTable.record, symGet_symSet_ne, h]

/-- Recording a code makes it the symbol's code, if it is at most `MAXLEN` bits long. -/
theorem record_same (t : CodeTable) (x : Sym) {c : List Bool} (h : c.length ≤ 255) :
    (t.record x c).code x = c ∧ (symGet (t.record x c).len x).toNat = c.length := by
  have hl : (symGet (t.record x c).len x).toNat = c.length := by
    simp only [CodeTable.record, symGet_symSet_same, BitVec.toNat_ofNat]
    omega
  refine ⟨?_, hl⟩
  apply List.ext_getElem
  · simp [CodeTable.code, hl]
  · intro i h1 h2
    simp only [CodeTable.code, List.getElem_map, List.getElem_range]
    simp only [CodeTable.record, symGet_symSet_same]
    rw [getLsbD_writeCode _ _ _ _ (by omega), if_pos (by omega)]
    simp [List.getD_eq_getElem?_getD, h2]

theorem code_congr {t u : CodeTable} {x : Sym} (h1 : symGet t.len x = symGet u.len x)
    (h2 : symGet t.bits x = symGet u.bits x) : t.code x = u.code x := by
  simp [CodeTable.code, h1, h2]

/-! ## The walk records the paths of the unfolded tree -/

/-- Records each leaf's path. -/
def CodeTable.recordAll (t : CodeTable) (ps : List (Sym × List Bool)) : CodeTable :=
  ps.foldl (fun acc p => acc.record p.1 p.2) t

/-- What `walk` does at a node that unfolds: it records the path of each leaf, and it needs no more levels than the depth. -/
theorem walk_unfolds {t : Tree} {id : NodeId} {h : HTree} (hu : t.Unfolds id h) (levels : Nat) (hd : h.depth < levels)
    (c : List Bool) (acc : CodeTable) : walk t levels id c acc = some (acc.recordAll (h.paths c)) := by
  induction hu generalizing levels c acc with
  | leaf hl =>
    obtain ⟨n, rfl⟩ : ∃ n, levels = n + 1 := ⟨levels - 1, by omega⟩
    simp [walk, hl, HTree.paths, CodeTable.recordAll]
  | @node id k l r hk _ _ ihl ihr =>
    simp only [HTree.depth] at hd
    obtain ⟨n, rfl⟩ : ∃ n, levels = n + 1 := ⟨levels - 1, by omega⟩
    rw [walk, if_neg (by simp [isLeaf_of_internalIx hk]), hk]
    simp only
    rw [ihl n (by omega)]
    simp only
    rw [ihr n (by omega)]
    simp [HTree.paths, CodeTable.recordAll]

theorem HTree.paths_syms (h : HTree) (c : List Bool) : (h.paths c).map Prod.fst = h.leaves := by
  induction h generalizing c with
  | leaf x => rfl
  | node l r ihl ihr => simp [HTree.paths, HTree.leaves, ihl, ihr]

theorem HTree.paths_length (h : HTree) (c : List Bool) :
    ∀ p ∈ h.paths c, c.length ≤ p.2.length ∧ p.2.length ≤ c.length + h.depth := by
  induction h generalizing c with
  | leaf x => intro p hp; simp [HTree.paths] at hp; subst hp; simp
  | node l r ihl ihr =>
    intro p hp
    simp only [HTree.paths, List.mem_append] at hp
    simp only [HTree.depth]
    rcases hp with hp | hp
    · have := ihl _ p hp
      simp only [List.length_append, List.length_cons, List.length_nil] at this
      omega
    · have := ihr _ p hp
      simp only [List.length_append, List.length_cons, List.length_nil] at this
      omega

theorem recordAll_other (t : CodeTable) (ps : List (Sym × List Bool)) {y : Sym} (h : y ∉ ps.map Prod.fst) :
    symGet (t.recordAll ps).len y = symGet t.len y ∧ symGet (t.recordAll ps).bits y = symGet t.bits y := by
  induction ps generalizing t with
  | nil => exact ⟨rfl, rfl⟩
  | cons p ps ih =>
    simp only [List.map_cons, List.mem_cons, not_or] at h
    have := ih (t.record p.1 p.2) h.2
    have h' := record_other t p.2 h.1
    simp only [CodeTable.recordAll, List.foldl_cons] at this ⊢
    rw [this.1, this.2, h'.1, h'.2]
    exact ⟨rfl, rfl⟩

/-- After recording the paths of distinct symbols, each has its own path as its code. -/
theorem recordAll_same (t : CodeTable) (ps : List (Sym × List Bool)) (hn : (ps.map Prod.fst).Nodup)
    (hl : ∀ p ∈ ps, p.2.length ≤ 255) : ∀ p ∈ ps, (t.recordAll ps).code p.1 = p.2 ∧
      (symGet (t.recordAll ps).len p.1).toNat = p.2.length := by
  induction ps generalizing t with
  | nil => simp
  | cons p ps ih =>
    simp only [List.map_cons, List.nodup_cons] at hn
    intro q hq
    rcases List.mem_cons.1 hq with h | h
    · subst h
      have ho := recordAll_other (t.record q.1 q.2) ps hn.1
      have hs := record_same t q.1 (hl q (by simp))
      simp only [CodeTable.recordAll, List.foldl_cons] at ho ⊢
      rw [code_congr ho.1 ho.2, ho.1]
      exact hs
    · exact ih (t.record p.1 p.2) hn.2 (fun p hp => hl p (by simp [hp])) q h

/-! ## What the derived CodeTable is -/

/-- The walk never fails on a built tree: DERIVE_CODES "raises no error of its own" (43_code_deriver.md R79). -/
theorem deriveCodes_buildTree_two {f : Vector Word 256} (h : 2 ≤ (presentSyms f).length) :
    ∃ t, (buildTree f).Unfolds (buildTree f).root t ∧ t.leaves.Perm (presentSyms f) ∧ 1 ≤ t.depth ∧ t.depth ≤ 255 ∧
      deriveCodes (buildTree f) = some (CodeTable.zero.recordAll (t.paths [])) := by
  obtain ⟨t, hu, hp, hd⟩ := buildTree_unfolds h
  have hlen := length_presentSyms_le f
  have hdep := t.depth_lt_leaves
  rw [hp.length_eq] at hdep
  have hr : (buildTree f).root = internalId ((presentSyms f).length - 2) := by rw [buildTree_root, rootOf_two h]
  refine ⟨t, hu, hp, hd, by omega, ?_⟩
  rw [deriveCodes, if_neg (by rw [hr]; exact internalId_ne_nilId (by omega)),
    if_neg (by rw [hr, isLeaf_internalId (by omega)]; simp)]
  exact walk_unfolds hu _ (by simp only [Config.maxLen]; omega) _ _

theorem deriveCodes_buildTree_one {f : Vector Word 256} {x : Sym} (h : presentSyms f = [x]) :
    deriveCodes (buildTree f) = some (CodeTable.zero.record x [false]) := by
  rw [deriveCodes, buildTree_root, h]
  simp [rootOf, leafId_ne_nilId]

theorem deriveCodes_buildTree_none {f : Vector Word 256} (h : presentSyms f = []) :
    deriveCodes (buildTree f) = some CodeTable.zero := by
  rw [deriveCodes, buildTree_root, h]
  simp [rootOf]

theorem presentSyms_cases (f : Vector Word 256) :
    presentSyms f = [] ∨ (∃ x, presentSyms f = [x]) ∨ 2 ≤ (presentSyms f).length := by
  match presentSyms f with
  | [] => exact .inl rfl
  | [x] => exact .inr (.inl ⟨x, rfl⟩)
  | _ :: _ :: _ => exact .inr (.inr (by simp))

theorem deriveCodes_buildTree_isSome (f : Vector Word 256) : ∃ c, deriveCodes (buildTree f) = some c := by
  rcases presentSyms_cases f with h | ⟨x, h⟩ | h
  · exact ⟨_, deriveCodes_buildTree_none h⟩
  · exact ⟨_, deriveCodes_buildTree_one h⟩
  · obtain ⟨t, -, -, -, -, hd⟩ := deriveCodes_buildTree_two h
    exact ⟨_, hd⟩

/-- Each present symbol's code is the path to its leaf, and no other symbol has one (43_code_deriver.md R80 items 1, 2). -/
theorem codes_of_paths {f : Vector Word 256} {t : HTree} {c : CodeTable} (hp : t.leaves.Perm (presentSyms f))
    (hd : t.depth ≤ 255) (hc : c = CodeTable.zero.recordAll (t.paths [])) :
    (∀ p ∈ t.paths [], c.code p.1 = p.2 ∧ (symGet c.len p.1).toNat = p.2.length) ∧
      ∀ x, x ∉ presentSyms f → symGet c.len x = 0#8 ∧ symGet c.bits x = 0#256 := by
  subst hc
  constructor
  · apply recordAll_same
    · rw [HTree.paths_syms]
      exact hp.nodup_iff.2 (nodup_presentSyms f)
    · intro p hpm
      have := t.paths_length [] p hpm
      simp only [List.length_nil] at this
      omega
  · intro x hx
    have := recordAll_other CodeTable.zero (t.paths []) (y := x) (by
      rw [HTree.paths_syms]
      exact fun hm => hx (hp.mem_iff.1 hm))
    rw [this.1, this.2]
    simp [CodeTable.zero]

/-! ## Paths of a binary tree are prefix-free and full -/

theorem HTree.paths_extend (h : HTree) (c : List Bool) : ∀ p ∈ h.paths c, c <+: p.2 := by
  induction h generalizing c with
  | leaf x => intro p hp; simp [HTree.paths] at hp; subst hp; exact List.prefix_refl _
  | node l r ihl ihr =>
    intro p hp
    simp only [HTree.paths, List.mem_append] at hp
    rcases hp with hp | hp
    · exact (List.prefix_append c [false]).trans (ihl _ p hp)
    · exact (List.prefix_append c [true]).trans (ihr _ p hp)

theorem branches_differ {c d : List Bool} {b : Bool} (h : c ++ [b] <+: d) (h' : c ++ [!b] <+: d) : False := by
  obtain ⟨u, rfl⟩ := h
  obtain ⟨v, hv⟩ := h'
  simp only [List.append_assoc, List.cons_append, List.nil_append] at hv
  have := List.append_cancel_left hv
  simp at this

/-- No path of a binary tree is the beginning of another (43_code_deriver.md R80 item 3). -/
theorem HTree.paths_prefixFree (h : HTree) (c : List Bool) :
    ∀ p ∈ h.paths c, ∀ q ∈ h.paths c, p.2 <+: q.2 → p = q := by
  induction h generalizing c with
  | leaf x => intro p hp q hq _; simp [HTree.paths] at hp hq; rw [hp, hq]
  | node l r ihl ihr =>
    intro p hp q hq hpre
    simp only [HTree.paths, List.mem_append] at hp hq
    rcases hp with hp | hp <;> rcases hq with hq | hq
    · exact ihl _ p hp q hq hpre
    · exact (branches_differ (b := false) ((HTree.paths_extend _ _ p hp).trans hpre)
        (HTree.paths_extend _ _ q hq)).elim
    · exact (branches_differ (b := true) ((HTree.paths_extend _ _ p hp).trans hpre)
        (HTree.paths_extend _ _ q hq)).elim
    · exact ihr _ p hp q hq hpre

/-- The path lengths of a binary tree fill a budget (43_code_deriver.md R80 item 4, Kraft's equality). -/
theorem HTree.paths_kraft (h : HTree) (c : List Bool) (n : Nat) (hn : c.length + h.depth ≤ n) :
    ((h.paths c).map (fun p => 2 ^ (n - p.2.length))).sum = 2 ^ (n - c.length) := by
  induction h generalizing c with
  | leaf x => simp [HTree.paths]
  | node l r ihl ihr =>
    simp only [HTree.depth] at hn
    simp only [HTree.paths, List.map_append, List.sum_append]
    rw [ihl _ (by simp only [List.length_append, List.length_cons, List.length_nil]; omega),
      ihr _ (by simp only [List.length_append, List.length_cons, List.length_nil]; omega)]
    simp only [List.length_append, List.length_cons, List.length_nil]
    have e : n - c.length = (n - (c.length + (0 + 1))) + 1 := by omega
    rw [e, Nat.pow_succ]
    omega

/-- A path leads to its leaf (43_code_deriver.md R79; 45_decoder.md R84). -/
theorem follow_path {t : Tree} {id : NodeId} {h : HTree} (hu : t.Unfolds id h) (c : List Bool) :
    ∀ p ∈ h.paths c, ∃ d, p.2 = c ++ d ∧ t.follow id d = some (leafId p.1) := by
  induction hu generalizing c with
  | leaf hl =>
    intro p hp
    simp only [HTree.paths, List.mem_singleton] at hp
    subst hp
    exact ⟨[], by simp, by simp [Tree.follow, leafId_leafSym hl]⟩
  | @node id k l r hk _ _ ihl ihr =>
    intro p hp
    simp only [HTree.paths, List.mem_append] at hp
    rcases hp with hp | hp
    · obtain ⟨d, hd, hf⟩ := ihl _ p hp
      exact ⟨false :: d, by simpa using hd, by simp [Tree.follow, hk, hf]⟩
    · obtain ⟨d, hd, hf⟩ := ihr _ p hp
      exact ⟨true :: d, by simpa using hd, by simp [Tree.follow, hk, hf]⟩

end Sys2Proof.Machine
end

