-- ==== Sys2Proof/Laws/Decode.lean ====
section
/-! SUPPORT. Laws of decoding and encoding (30_encoding.md R57 to R61). -/

namespace Sys2Proof

theorem Instr.operand_lt (i : Instr) : i.operand < 2 ^ 24 := by
  cases i <;> simp only [Instr.operand] <;> first | omega | (next b => cases b <;> decide)

theorem Instr.opcode_lt (i : Instr) : i.opcode < 9 := by cases i <;> simp [Instr.opcode]

theorem toNat_encode (i : Instr) : (encode i).toNat = i.opcode * 2 ^ 24 + i.operand := by
  have h := i.operand_lt
  have h' := i.opcode_lt
  simp only [encode, BitVec.toNat_ofNat]
  omega

@[simp] theorem opField_encode (i : Instr) : opField (encode i) = i.opcode := by
  have h := i.operand_lt
  simp only [opField, toNat_encode]
  omega

@[simp] theorem lowField_encode (i : Instr) : lowField (encode i) = i.operand := by
  have h := i.operand_lt
  simp only [lowField, toNat_encode]
  omega

theorem toNat_symField (w : Word) : (symField w).toNat = w.toNat % 256 := by simp [symField]

theorem bitField_toNat (w : Word) : (bitField w).toNat = w.toNat % 2 := by
  simp only [bitField, BitVec.getLsbD, Nat.testBit_zero]
  rcases Nat.mod_two_eq_zero_or_one w.toNat with h | h <;> simp [h]

theorem symField_encode_of_operand (i : Instr) (x : Sym) (h : i.operand = x.toNat) : symField (encode i) = x := by
  apply BitVec.eq_of_toNat_eq
  have := x.isLt
  rw [toNat_symField, toNat_encode, h]
  omega

theorem bitField_encode_of_operand (i : Instr) (b : Bool) (h : i.operand = b.toNat) : bitField (encode i) = b := by
  have hb := bitField_toNat (encode i)
  rw [toNat_encode, h] at hb
  cases b <;> cases hc : bitField (encode i) <;> simp_all <;> omega

/-- A word that decodes to a command is that command's word: each command has one word (30_encoding.md R60). -/
theorem encode_of_decode {w : Word} {i : Instr} (h : decode w = .ok i) : encode i = w := by
  have key : ∀ j : Instr, opField w = j.opcode → lowField w = j.operand → encode j = w := by
    intro j ho hl
    apply BitVec.eq_of_toNat_eq
    rw [toNat_encode]
    simp only [opField, lowField] at ho hl
    omega
  have hs : ∀ x, lowField w / 2 ^ 8 = 0 → x = symField w → lowField w = x.toNat := by
    intro x h0 hx
    subst hx
    rw [toNat_symField]
    simp only [lowField] at *
    omega
  have hb : ∀ b, lowField w / 2 = 0 → b = bitField w → lowField w = b.toNat := by
    intro b h0 hx
    subst hx
    rw [bitField_toNat]
    simp only [lowField] at *
    omega
  unfold decode at h
  split at h
  case h_10 => cases h
  all_goals next ho =>
    simp only [decodeN, decodeS, decodeB] at h
    split at h
    · injection h with h
      subst h
      first
        | exact key _ ho (by assumption)
        | exact key _ ho (hs _ (by assumption) rfl)
        | exact key _ ho (hb _ (by assumption) rfl)
    · cases h

/-- Masking off the low `k` bits. -/
theorem toNat_and_mask (w : Word) (k : Nat) (hk : k ≤ 32) :
    (w &&& (BitVec.allOnes 32 <<< k)).toNat = w.toNat / 2 ^ k * 2 ^ k := by
  have h1 : w &&& (BitVec.allOnes 32 <<< k) = (w >>> k) <<< k := by
    apply BitVec.eq_of_getLsbD_eq
    intro i hi
    simp only [BitVec.getLsbD_and, BitVec.getLsbD_shiftLeft, BitVec.getLsbD_ushiftRight, BitVec.getLsbD_allOnes]
    by_cases h : i < k
    · simp [h]
    · have e : k + (i - k) = i := by omega
      have e' : i - k < 32 := by omega
      simp [h, hi, e, e']
  rw [h1]
  simp only [BitVec.toNat_shiftLeft, BitVec.toNat_ushiftRight, Nat.shiftLeft_eq, Nat.shiftRight_eq_div_pow]
  apply Nat.mod_eq_of_lt
  have := Nat.div_mul_le_self w.toNat (2 ^ k)
  have := w.isLt
  omega

/-- A row of the opcode map holds of a word exactly when OP is the row's and the reserved field above its operand's `k`
bits is zero (30_encoding.md R58, R60). -/
theorem row_holds_iff (op : Nat) (p m : Word) (k : Nat) (hk : k = 0 ∨ k = 1 ∨ k = 8) (hm : m = BitVec.allOnes 32 <<< k)
    (hp : p.toNat = op * 2 ^ 24) (w : Word) :
    (OpcodeRow.mk op p m).holds w = true ↔ opField w = op ∧ lowField w / 2 ^ k = 0 := by
  subst hm
  simp only [OpcodeRow.holds, beq_iff_eq]
  rw [← BitVec.toNat_inj, toNat_and_mask w k (by omega), hp]
  simp only [opField, lowField]
  rcases hk with rfl | rfl | rfl <;> omega

end Sys2Proof
end

