-- ==== Sys2Proof/Laws/State.lean ====
section
/-! SUPPORT. For each update of the state, what each field becomes: one lemma per field per update, so that no later proof
unfolds a record update. -/

namespace Sys2Proof.Machine.State

variable (s : State)

/-! ## setFreq -/

@[simp] theorem setFreq_arg (x : Sym) (v : Word) : (s.setFreq x v).arg = s.arg := rfl
@[simp] theorem setFreq_phase (x : Sym) (v : Word) : (s.setFreq x v).phase = s.phase := rfl
@[simp] theorem setFreq_err (x : Sym) (v : Word) : (s.setFreq x v).err = s.err := rfl
@[simp] theorem setFreq_errcmd (x : Sym) (v : Word) : (s.setFreq x v).errcmd = s.errcmd := rfl
@[simp] theorem setFreq_errarg (x : Sym) (v : Word) : (s.setFreq x v).errarg = s.errarg := rfl
@[simp] theorem setFreq_freq (x : Sym) (v : Word) : (s.setFreq x v).freq = symSet s.freq x v := rfl
@[simp] theorem setFreq_root (x : Sym) (v : Word) : (s.setFreq x v).root = s.root := rfl
@[simp] theorem setFreq_nint (x : Sym) (v : Word) : (s.setFreq x v).nint = s.nint := rfl
@[simp] theorem setFreq_intLeft (x : Sym) (v : Word) : (s.setFreq x v).intLeft = s.intLeft := rfl
@[simp] theorem setFreq_intRight (x : Sym) (v : Word) : (s.setFreq x v).intRight = s.intRight := rfl
@[simp] theorem setFreq_intFreq (x : Sym) (v : Word) : (s.setFreq x v).intFreq = s.intFreq := rfl
@[simp] theorem setFreq_codeLen (x : Sym) (v : Word) : (s.setFreq x v).codeLen = s.codeLen := rfl
@[simp] theorem setFreq_codeBits (x : Sym) (v : Word) : (s.setFreq x v).codeBits = s.codeBits := rfl
@[simp] theorem setFreq_decPtr (x : Sym) (v : Word) : (s.setFreq x v).decPtr = s.decPtr := rfl
@[simp] theorem setFreq_encBitcnt (x : Sym) (v : Word) : (s.setFreq x v).encBitcnt = s.encBitcnt := rfl
@[simp] theorem setFreq_obit (x : Sym) (v : Word) : (s.setFreq x v).obit = s.obit := rfl
@[simp] theorem setFreq_osym (x : Sym) (v : Word) : (s.setFreq x v).osym = s.osym := rfl
@[simp] theorem setFreq_obitTaken (x : Sym) (v : Word) : (s.setFreq x v).obitTaken = s.obitTaken := rfl
@[simp] theorem setFreq_osymTaken (x : Sym) (v : Word) : (s.setFreq x v).osymTaken = s.osymTaken := rfl
@[simp] theorem setFreq_obitPast (x : Sym) (v : Word) : (s.setFreq x v).obitPast = s.obitPast := rfl
@[simp] theorem setFreq_osymPast (x : Sym) (v : Word) : (s.setFreq x v).osymPast = s.osymPast := rfl
@[simp] theorem setFreq_busy (x : Sym) (v : Word) : (s.setFreq x v).busy = s.busy := rfl
@[simp] theorem setFreq_rst (x : Sym) (v : Word) : (s.setFreq x v).rst = s.rst := rfl
@[simp] theorem setFreq_requests (x : Sym) (v : Word) : (s.setFreq x v).requests = s.requests := rfl
@[simp] theorem setFreq_responses (x : Sym) (v : Word) : (s.setFreq x v).responses = s.responses := rfl
@[simp] theorem setFreq_turns (x : Sym) (v : Word) : (s.setFreq x v).turns = s.turns := rfl
@[simp] theorem setFreq_freeIx (x : Sym) (v : Word) : (s.setFreq x v).freeIx = s.freeIx := rfl
@[simp] theorem setFreq_tree (x : Sym) (v : Word) : (s.setFreq x v).tree = s.tree := rfl
@[simp] theorem setFreq_codes (x : Sym) (v : Word) : (s.setFreq x v).codes = s.codes := rfl

/-! ## setTree -/

@[simp] theorem setTree_arg (t : Tree) : (s.setTree t).arg = s.arg := rfl
@[simp] theorem setTree_phase (t : Tree) : (s.setTree t).phase = s.phase := rfl
@[simp] theorem setTree_err (t : Tree) : (s.setTree t).err = s.err := rfl
@[simp] theorem setTree_errcmd (t : Tree) : (s.setTree t).errcmd = s.errcmd := rfl
@[simp] theorem setTree_errarg (t : Tree) : (s.setTree t).errarg = s.errarg := rfl
@[simp] theorem setTree_freq (t : Tree) : (s.setTree t).freq = s.freq := rfl
@[simp] theorem setTree_root (t : Tree) : (s.setTree t).root = t.root := rfl
@[simp] theorem setTree_nint (t : Tree) : (s.setTree t).nint = t.nint := rfl
@[simp] theorem setTree_intLeft (t : Tree) : (s.setTree t).intLeft = t.left := rfl
@[simp] theorem setTree_intRight (t : Tree) : (s.setTree t).intRight = t.right := rfl
@[simp] theorem setTree_intFreq (t : Tree) : (s.setTree t).intFreq = t.freq := rfl
@[simp] theorem setTree_codeLen (t : Tree) : (s.setTree t).codeLen = s.codeLen := rfl
@[simp] theorem setTree_codeBits (t : Tree) : (s.setTree t).codeBits = s.codeBits := rfl
@[simp] theorem setTree_decPtr (t : Tree) : (s.setTree t).decPtr = s.decPtr := rfl
@[simp] theorem setTree_encBitcnt (t : Tree) : (s.setTree t).encBitcnt = s.encBitcnt := rfl
@[simp] theorem setTree_obit (t : Tree) : (s.setTree t).obit = s.obit := rfl
@[simp] theorem setTree_osym (t : Tree) : (s.setTree t).osym = s.osym := rfl
@[simp] theorem setTree_obitTaken (t : Tree) : (s.setTree t).obitTaken = s.obitTaken := rfl
@[simp] theorem setTree_osymTaken (t : Tree) : (s.setTree t).osymTaken = s.osymTaken := rfl
@[simp] theorem setTree_obitPast (t : Tree) : (s.setTree t).obitPast = s.obitPast := rfl
@[simp] theorem setTree_osymPast (t : Tree) : (s.setTree t).osymPast = s.osymPast := rfl
@[simp] theorem setTree_busy (t : Tree) : (s.setTree t).busy = s.busy := rfl
@[simp] theorem setTree_rst (t : Tree) : (s.setTree t).rst = s.rst := rfl
@[simp] theorem setTree_requests (t : Tree) : (s.setTree t).requests = s.requests := rfl
@[simp] theorem setTree_responses (t : Tree) : (s.setTree t).responses = s.responses := rfl
@[simp] theorem setTree_turns (t : Tree) : (s.setTree t).turns = s.turns := rfl
@[simp] theorem setTree_freeIx (t : Tree) : (s.setTree t).freeIx = s.freeIx := rfl
@[simp] theorem setTree_tree (t : Tree) : (s.setTree t).tree = t := rfl
@[simp] theorem setTree_codes (t : Tree) : (s.setTree t).codes = s.codes := rfl

/-! ## setCodes -/

@[simp] theorem setCodes_arg (c : CodeTable) : (s.setCodes c).arg = s.arg := rfl
@[simp] theorem setCodes_phase (c : CodeTable) : (s.setCodes c).phase = s.phase := rfl
@[simp] theorem setCodes_err (c : CodeTable) : (s.setCodes c).err = s.err := rfl
@[simp] theorem setCodes_errcmd (c : CodeTable) : (s.setCodes c).errcmd = s.errcmd := rfl
@[simp] theorem setCodes_errarg (c : CodeTable) : (s.setCodes c).errarg = s.errarg := rfl
@[simp] theorem setCodes_freq (c : CodeTable) : (s.setCodes c).freq = s.freq := rfl
@[simp] theorem setCodes_root (c : CodeTable) : (s.setCodes c).root = s.root := rfl
@[simp] theorem setCodes_nint (c : CodeTable) : (s.setCodes c).nint = s.nint := rfl
@[simp] theorem setCodes_intLeft (c : CodeTable) : (s.setCodes c).intLeft = s.intLeft := rfl
@[simp] theorem setCodes_intRight (c : CodeTable) : (s.setCodes c).intRight = s.intRight := rfl
@[simp] theorem setCodes_intFreq (c : CodeTable) : (s.setCodes c).intFreq = s.intFreq := rfl
@[simp] theorem setCodes_codeLen (c : CodeTable) : (s.setCodes c).codeLen = c.len := rfl
@[simp] theorem setCodes_codeBits (c : CodeTable) : (s.setCodes c).codeBits = c.bits := rfl
@[simp] theorem setCodes_decPtr (c : CodeTable) : (s.setCodes c).decPtr = s.decPtr := rfl
@[simp] theorem setCodes_encBitcnt (c : CodeTable) : (s.setCodes c).encBitcnt = s.encBitcnt := rfl
@[simp] theorem setCodes_obit (c : CodeTable) : (s.setCodes c).obit = s.obit := rfl
@[simp] theorem setCodes_osym (c : CodeTable) : (s.setCodes c).osym = s.osym := rfl
@[simp] theorem setCodes_obitTaken (c : CodeTable) : (s.setCodes c).obitTaken = s.obitTaken := rfl
@[simp] theorem setCodes_osymTaken (c : CodeTable) : (s.setCodes c).osymTaken = s.osymTaken := rfl
@[simp] theorem setCodes_obitPast (c : CodeTable) : (s.setCodes c).obitPast = s.obitPast := rfl
@[simp] theorem setCodes_osymPast (c : CodeTable) : (s.setCodes c).osymPast = s.osymPast := rfl
@[simp] theorem setCodes_busy (c : CodeTable) : (s.setCodes c).busy = s.busy := rfl
@[simp] theorem setCodes_rst (c : CodeTable) : (s.setCodes c).rst = s.rst := rfl
@[simp] theorem setCodes_requests (c : CodeTable) : (s.setCodes c).requests = s.requests := rfl
@[simp] theorem setCodes_responses (c : CodeTable) : (s.setCodes c).responses = s.responses := rfl
@[simp] theorem setCodes_turns (c : CodeTable) : (s.setCodes c).turns = s.turns := rfl
@[simp] theorem setCodes_freeIx (c : CodeTable) : (s.setCodes c).freeIx = s.freeIx := rfl
@[simp] theorem setCodes_tree (c : CodeTable) : (s.setCodes c).tree = s.tree := rfl
@[simp] theorem setCodes_codes (c : CodeTable) : (s.setCodes c).codes = c := rfl

/-! ## emitBits -/

@[simp] theorem emitBits_arg (bs : List Bool) : (s.emitBits bs).arg = s.arg := rfl
@[simp] theorem emitBits_phase (bs : List Bool) : (s.emitBits bs).phase = s.phase := rfl
@[simp] theorem emitBits_err (bs : List Bool) : (s.emitBits bs).err = s.err := rfl
@[simp] theorem emitBits_errcmd (bs : List Bool) : (s.emitBits bs).errcmd = s.errcmd := rfl
@[simp] theorem emitBits_errarg (bs : List Bool) : (s.emitBits bs).errarg = s.errarg := rfl
@[simp] theorem emitBits_freq (bs : List Bool) : (s.emitBits bs).freq = s.freq := rfl
@[simp] theorem emitBits_root (bs : List Bool) : (s.emitBits bs).root = s.root := rfl
@[simp] theorem emitBits_nint (bs : List Bool) : (s.emitBits bs).nint = s.nint := rfl
@[simp] theorem emitBits_intLeft (bs : List Bool) : (s.emitBits bs).intLeft = s.intLeft := rfl
@[simp] theorem emitBits_intRight (bs : List Bool) : (s.emitBits bs).intRight = s.intRight := rfl
@[simp] theorem emitBits_intFreq (bs : List Bool) : (s.emitBits bs).intFreq = s.intFreq := rfl
@[simp] theorem emitBits_codeLen (bs : List Bool) : (s.emitBits bs).codeLen = s.codeLen := rfl
@[simp] theorem emitBits_codeBits (bs : List Bool) : (s.emitBits bs).codeBits = s.codeBits := rfl
@[simp] theorem emitBits_decPtr (bs : List Bool) : (s.emitBits bs).decPtr = s.decPtr := rfl
@[simp] theorem emitBits_encBitcnt (bs : List Bool) : (s.emitBits bs).encBitcnt = s.encBitcnt := rfl
@[simp] theorem emitBits_obit (bs : List Bool) : (s.emitBits bs).obit = s.obit ++ bs := rfl
@[simp] theorem emitBits_osym (bs : List Bool) : (s.emitBits bs).osym = s.osym := rfl
@[simp] theorem emitBits_obitTaken (bs : List Bool) : (s.emitBits bs).obitTaken = s.obitTaken := rfl
@[simp] theorem emitBits_osymTaken (bs : List Bool) : (s.emitBits bs).osymTaken = s.osymTaken := rfl
@[simp] theorem emitBits_obitPast (bs : List Bool) : (s.emitBits bs).obitPast = s.obitPast := rfl
@[simp] theorem emitBits_osymPast (bs : List Bool) : (s.emitBits bs).osymPast = s.osymPast := rfl
@[simp] theorem emitBits_busy (bs : List Bool) : (s.emitBits bs).busy = s.busy := rfl
@[simp] theorem emitBits_rst (bs : List Bool) : (s.emitBits bs).rst = s.rst := rfl
@[simp] theorem emitBits_requests (bs : List Bool) : (s.emitBits bs).requests = s.requests := rfl
@[simp] theorem emitBits_responses (bs : List Bool) : (s.emitBits bs).responses = s.responses := rfl
@[simp] theorem emitBits_turns (bs : List Bool) : (s.emitBits bs).turns = s.turns := rfl
@[simp] theorem emitBits_freeIx (bs : List Bool) : (s.emitBits bs).freeIx = s.freeIx := rfl
@[simp] theorem emitBits_tree (bs : List Bool) : (s.emitBits bs).tree = s.tree := rfl
@[simp] theorem emitBits_codes (bs : List Bool) : (s.emitBits bs).codes = s.codes := rfl

/-! ## emitSym -/

@[simp] theorem emitSym_arg (x : Sym) : (s.emitSym x).arg = s.arg := rfl
@[simp] theorem emitSym_phase (x : Sym) : (s.emitSym x).phase = s.phase := rfl
@[simp] theorem emitSym_err (x : Sym) : (s.emitSym x).err = s.err := rfl
@[simp] theorem emitSym_errcmd (x : Sym) : (s.emitSym x).errcmd = s.errcmd := rfl
@[simp] theorem emitSym_errarg (x : Sym) : (s.emitSym x).errarg = s.errarg := rfl
@[simp] theorem emitSym_freq (x : Sym) : (s.emitSym x).freq = s.freq := rfl
@[simp] theorem emitSym_root (x : Sym) : (s.emitSym x).root = s.root := rfl
@[simp] theorem emitSym_nint (x : Sym) : (s.emitSym x).nint = s.nint := rfl
@[simp] theorem emitSym_intLeft (x : Sym) : (s.emitSym x).intLeft = s.intLeft := rfl
@[simp] theorem emitSym_intRight (x : Sym) : (s.emitSym x).intRight = s.intRight := rfl
@[simp] theorem emitSym_intFreq (x : Sym) : (s.emitSym x).intFreq = s.intFreq := rfl
@[simp] theorem emitSym_codeLen (x : Sym) : (s.emitSym x).codeLen = s.codeLen := rfl
@[simp] theorem emitSym_codeBits (x : Sym) : (s.emitSym x).codeBits = s.codeBits := rfl
@[simp] theorem emitSym_decPtr (x : Sym) : (s.emitSym x).decPtr = s.decPtr := rfl
@[simp] theorem emitSym_encBitcnt (x : Sym) : (s.emitSym x).encBitcnt = s.encBitcnt := rfl
@[simp] theorem emitSym_obit (x : Sym) : (s.emitSym x).obit = s.obit := rfl
@[simp] theorem emitSym_osym (x : Sym) : (s.emitSym x).osym = s.osym ++ [x] := rfl
@[simp] theorem emitSym_obitTaken (x : Sym) : (s.emitSym x).obitTaken = s.obitTaken := rfl
@[simp] theorem emitSym_osymTaken (x : Sym) : (s.emitSym x).osymTaken = s.osymTaken := rfl
@[simp] theorem emitSym_obitPast (x : Sym) : (s.emitSym x).obitPast = s.obitPast := rfl
@[simp] theorem emitSym_osymPast (x : Sym) : (s.emitSym x).osymPast = s.osymPast := rfl
@[simp] theorem emitSym_busy (x : Sym) : (s.emitSym x).busy = s.busy := rfl
@[simp] theorem emitSym_rst (x : Sym) : (s.emitSym x).rst = s.rst := rfl
@[simp] theorem emitSym_requests (x : Sym) : (s.emitSym x).requests = s.requests := rfl
@[simp] theorem emitSym_responses (x : Sym) : (s.emitSym x).responses = s.responses := rfl
@[simp] theorem emitSym_turns (x : Sym) : (s.emitSym x).turns = s.turns := rfl
@[simp] theorem emitSym_freeIx (x : Sym) : (s.emitSym x).freeIx = s.freeIx := rfl
@[simp] theorem emitSym_tree (x : Sym) : (s.emitSym x).tree = s.tree := rfl
@[simp] theorem emitSym_codes (x : Sym) : (s.emitSym x).codes = s.codes := rfl

/-! ## respond -/

@[simp] theorem respond_arg (r : BusRsp) : (s.respond r).arg = s.arg := rfl
@[simp] theorem respond_phase (r : BusRsp) : (s.respond r).phase = s.phase := rfl
@[simp] theorem respond_err (r : BusRsp) : (s.respond r).err = s.err := rfl
@[simp] theorem respond_errcmd (r : BusRsp) : (s.respond r).errcmd = s.errcmd := rfl
@[simp] theorem respond_errarg (r : BusRsp) : (s.respond r).errarg = s.errarg := rfl
@[simp] theorem respond_freq (r : BusRsp) : (s.respond r).freq = s.freq := rfl
@[simp] theorem respond_root (r : BusRsp) : (s.respond r).root = s.root := rfl
@[simp] theorem respond_nint (r : BusRsp) : (s.respond r).nint = s.nint := rfl
@[simp] theorem respond_intLeft (r : BusRsp) : (s.respond r).intLeft = s.intLeft := rfl
@[simp] theorem respond_intRight (r : BusRsp) : (s.respond r).intRight = s.intRight := rfl
@[simp] theorem respond_intFreq (r : BusRsp) : (s.respond r).intFreq = s.intFreq := rfl
@[simp] theorem respond_codeLen (r : BusRsp) : (s.respond r).codeLen = s.codeLen := rfl
@[simp] theorem respond_codeBits (r : BusRsp) : (s.respond r).codeBits = s.codeBits := rfl
@[simp] theorem respond_decPtr (r : BusRsp) : (s.respond r).decPtr = s.decPtr := rfl
@[simp] theorem respond_encBitcnt (r : BusRsp) : (s.respond r).encBitcnt = s.encBitcnt := rfl
@[simp] theorem respond_obit (r : BusRsp) : (s.respond r).obit = s.obit := rfl
@[simp] theorem respond_osym (r : BusRsp) : (s.respond r).osym = s.osym := rfl
@[simp] theorem respond_obitTaken (r : BusRsp) : (s.respond r).obitTaken = s.obitTaken := rfl
@[simp] theorem respond_osymTaken (r : BusRsp) : (s.respond r).osymTaken = s.osymTaken := rfl
@[simp] theorem respond_obitPast (r : BusRsp) : (s.respond r).obitPast = s.obitPast := rfl
@[simp] theorem respond_osymPast (r : BusRsp) : (s.respond r).osymPast = s.osymPast := rfl
@[simp] theorem respond_busy (r : BusRsp) : (s.respond r).busy = s.busy := rfl
@[simp] theorem respond_rst (r : BusRsp) : (s.respond r).rst = s.rst := rfl
@[simp] theorem respond_requests (r : BusRsp) : (s.respond r).requests = s.requests := rfl
@[simp] theorem respond_responses (r : BusRsp) : (s.respond r).responses = s.responses ++ [r] := rfl
@[simp] theorem respond_turns (r : BusRsp) : (s.respond r).turns = s.turns := rfl
@[simp] theorem respond_freeIx (r : BusRsp) : (s.respond r).freeIx = s.freeIx := rfl
@[simp] theorem respond_tree (r : BusRsp) : (s.respond r).tree = s.tree := rfl
@[simp] theorem respond_codes (r : BusRsp) : (s.respond r).codes = s.codes := rfl

/-! ## captured -/

@[simp] theorem captured_arg (e : ErrCode) (w : Word) : (s.captured e w).arg = s.arg := rfl
@[simp] theorem captured_phase (e : ErrCode) (w : Word) : (s.captured e w).phase = s.phase := rfl
@[simp] theorem captured_err (e : ErrCode) (w : Word) : (s.captured e w).err = e := rfl
@[simp] theorem captured_errcmd (e : ErrCode) (w : Word) : (s.captured e w).errcmd = w := rfl
@[simp] theorem captured_errarg (e : ErrCode) (w : Word) : (s.captured e w).errarg = s.arg := rfl
@[simp] theorem captured_freq (e : ErrCode) (w : Word) : (s.captured e w).freq = s.freq := rfl
@[simp] theorem captured_root (e : ErrCode) (w : Word) : (s.captured e w).root = s.root := rfl
@[simp] theorem captured_nint (e : ErrCode) (w : Word) : (s.captured e w).nint = s.nint := rfl
@[simp] theorem captured_intLeft (e : ErrCode) (w : Word) : (s.captured e w).intLeft = s.intLeft := rfl
@[simp] theorem captured_intRight (e : ErrCode) (w : Word) : (s.captured e w).intRight = s.intRight := rfl
@[simp] theorem captured_intFreq (e : ErrCode) (w : Word) : (s.captured e w).intFreq = s.intFreq := rfl
@[simp] theorem captured_codeLen (e : ErrCode) (w : Word) : (s.captured e w).codeLen = s.codeLen := rfl
@[simp] theorem captured_codeBits (e : ErrCode) (w : Word) : (s.captured e w).codeBits = s.codeBits := rfl
@[simp] theorem captured_decPtr (e : ErrCode) (w : Word) : (s.captured e w).decPtr = s.decPtr := rfl
@[simp] theorem captured_encBitcnt (e : ErrCode) (w : Word) : (s.captured e w).encBitcnt = s.encBitcnt := rfl
@[simp] theorem captured_obit (e : ErrCode) (w : Word) : (s.captured e w).obit = s.obit := rfl
@[simp] theorem captured_osym (e : ErrCode) (w : Word) : (s.captured e w).osym = s.osym := rfl
@[simp] theorem captured_obitTaken (e : ErrCode) (w : Word) : (s.captured e w).obitTaken = s.obitTaken := rfl
@[simp] theorem captured_osymTaken (e : ErrCode) (w : Word) : (s.captured e w).osymTaken = s.osymTaken := rfl
@[simp] theorem captured_obitPast (e : ErrCode) (w : Word) : (s.captured e w).obitPast = s.obitPast := rfl
@[simp] theorem captured_osymPast (e : ErrCode) (w : Word) : (s.captured e w).osymPast = s.osymPast := rfl
@[simp] theorem captured_busy (e : ErrCode) (w : Word) : (s.captured e w).busy = s.busy := rfl
@[simp] theorem captured_rst (e : ErrCode) (w : Word) : (s.captured e w).rst = s.rst := rfl
@[simp] theorem captured_requests (e : ErrCode) (w : Word) : (s.captured e w).requests = s.requests := rfl
@[simp] theorem captured_responses (e : ErrCode) (w : Word) : (s.captured e w).responses = s.responses := rfl
@[simp] theorem captured_turns (e : ErrCode) (w : Word) : (s.captured e w).turns = s.turns := rfl
@[simp] theorem captured_freeIx (e : ErrCode) (w : Word) : (s.captured e w).freeIx = s.freeIx := rfl
@[simp] theorem captured_tree (e : ErrCode) (w : Word) : (s.captured e w).tree = s.tree := rfl
@[simp] theorem captured_codes (e : ErrCode) (w : Word) : (s.captured e w).codes = s.codes := rfl

end Sys2Proof.Machine.State
end

