-- ==== Sys2Proof/Laws/Exec.lean ====
section
/-! SUPPORT. What each shared operation and each meaning can do, said once (30_encoding.md R62, R63; 60_exceptions.md R99). -/

namespace Sys2Proof.Machine

theorem onNext_eq_next {r : Result} {f : State → Result} {t : State} :
    onNext r f = .next t ↔ ∃ u, r = .next u ∧ f u = .next t := by
  cases r <;> simp [onNext]

@[simp] theorem onNext_next (s : State) (f : State → Result) : onNext (.next s) f = f s := rfl

@[simp] theorem raise_eq (e : ErrCode) (w : Word) (s : State) : raise e w s = .next (s.captured e w) := rfl

/-- A gated command is discarded, captures PHASE_ERR, or runs (30_encoding.md R63). -/
theorem gated_cases (i : Instr) (s : State) (body : Result) :
    (s.err ≠ .none ∧ gated i s body = .next s) ∨
    (s.err = .none ∧ legalIn i s.phase = false ∧ gated i s body = .next (s.captured .phaseErr (encode i))) ∨
    (s.err = .none ∧ legalIn i s.phase = true ∧ gated i s body = body) := by
  unfold gated
  by_cases h : s.err = .none
  · cases hl : legalIn i s.phase <;> simp [h]
  · exact .inl ⟨h, by simp [h]⟩

@[simp] theorem gated_run {i : Instr} {s : State} (body : Result) (h : s.err = .none) (hl : legalIn i s.phase = true) :
    gated i s body = body := by simp [gated, h, hl]

theorem gated_illegal {i : Instr} {s : State} (body : Result) (h : s.err = .none) (hl : legalIn i s.phase = false) :
    gated i s body = .next (s.captured .phaseErr (encode i)) := by simp [gated, h, hl]

theorem gated_discard {i : Instr} {s : State} (body : Result) (h : s.err ≠ .none) : gated i s body = .next s := by
  simp [gated, h]

/-- What a command of the list may do to a state, when it goes on: nothing, an error capture, or its own effect. -/
inductive Effect (s : State) : Instr → State → Prop where
  | same (i : Instr) : Effect s i s
  | clear : Effect s .clear s.cleared
  | error {i : Instr} {e : ErrCode} (h : s.err = .none) (he : e ≠ .none) (hi : i ≠ .nop) (hc : i ≠ .clear) :
      Effect s i (s.captured e (encode i))
  | tabSym (x : Sym) (h : s.err = .none) (hp : s.phase = .collect) (hf : s.total + 1 ≤ Config.totalMax) :
      Effect s (.tabSym x) (s.setFreq x (s.freqAt x + 1#32))
  | freqLoad (x : Sym) (h : s.err = .none) (hp : s.phase = .collect) (h0 : s.arg ≠ 0#32) (ha : s.freqAt x = 0#32)
      (hf : s.total + s.arg.toNat ≤ Config.totalMax) : Effect s (.freqLoad x) (s.setFreq x s.arg)
  | buildTree (h : s.err = .none) (hp : s.phase = .collect) :
      Effect s .buildTree { s.setTree (buildTree s.freq) with decPtr := (buildTree s.freq).root, phase := .tree }
  | deriveCodes (c : CodeTable) (h : s.err = .none) (hp : s.phase = .tree) (hc : deriveCodes s.tree = some c) :
      Effect s .deriveCodes { s.setCodes c with phase := .coded }
  | encSym (x : Sym) (h : s.err = .none) (hp : s.phase = .coded) (hl : symGet s.codeLen x ≠ 0#8) :
      Effect s (.encSym x)
        { s.emitBits (s.code x) with encBitcnt := s.encBitcnt + (symGet s.codeLen x).setWidth 64 }
  | decLeafRoot (b : Bool) (h : s.err = .none) (hp : s.phase ≠ .collect) (hr : isLeaf s.root = true) :
      Effect s (.decBit b) (s.emitSym (leafSym s.root))
  | decArrive (b : Bool) (k : Fin 255) (h : s.err = .none) (hp : s.phase ≠ .collect) (hn : s.root ≠ nilId)
      (hr : isLeaf s.root = false) (hk : internalIx s.decPtr = some k) :
      Effect s (.decBit b) (arriveAt (s.tree.child k b) s)

/-- Everything a command can do when it answers a next state. -/
theorem exec_effect {i : Instr} {s t : State} (h : exec i s = .next t) : Effect s i t := by
  cases i with
  | nop =>
    simp only [exec, execNop, Host.Outcome.next.injEq] at h
    subst h
    exact .same _
  | clear =>
    simp only [exec, execClear, Host.Outcome.next.injEq] at h
    subst h
    exact .clear
  | tabSym x =>
    simp only [exec, execTabSym] at h
    rcases gated_cases (.tabSym x) s _ with ⟨_, hg⟩ | ⟨he, _, hg⟩ | ⟨he, hl, hg⟩ <;> rw [hg] at h
    · injection h with h; subst h; exact .same _
    · injection h with h; subst h; exact .error he (by simp) (by simp) (by simp)
    · split at h
      · injection h with h; subst h; exact .error he (by simp) (by simp) (by simp)
      · next hf =>
        injection h with h; subst h
        exact .tabSym x he (by simpa [legalIn] using hl) (by omega)
  | freqLoad x =>
    simp only [exec, execFreqLoad] at h
    rcases gated_cases (.freqLoad x) s _ with ⟨_, hg⟩ | ⟨he, _, hg⟩ | ⟨he, hl, hg⟩ <;> rw [hg] at h
    · injection h with h; subst h; exact .same _
    · injection h with h; subst h; exact .error he (by simp) (by simp) (by simp)
    · split at h
      · injection h with h; subst h; exact .error he (by simp) (by simp) (by simp)
      · split at h
        · injection h with h; subst h; exact .error he (by simp) (by simp) (by simp)
        · split at h
          · injection h with h; subst h; exact .error he (by simp) (by simp) (by simp)
          · next h0 h1 h2 =>
            injection h with h; subst h
            simp only [countOperand] at *
            exact .freqLoad x he (by simpa [legalIn] using hl) h0 (by simpa using h1) (by omega)
  | buildTree =>
    simp only [exec, execBuildTree] at h
    rcases gated_cases .buildTree s _ with ⟨_, hg⟩ | ⟨he, _, hg⟩ | ⟨he, hl, hg⟩ <;> rw [hg] at h
    · injection h with h; subst h; exact .same _
    · injection h with h; subst h; exact .error he (by simp) (by simp) (by simp)
    · injection h with h; subst h
      exact .buildTree he (by simpa [legalIn] using hl)
  | deriveCodes =>
    simp only [exec, execDeriveCodes] at h
    rcases gated_cases .deriveCodes s _ with ⟨_, hg⟩ | ⟨he, _, hg⟩ | ⟨he, hl, hg⟩ <;> rw [hg] at h
    · injection h with h; subst h; exact .same _
    · injection h with h; subst h; exact .error he (by simp) (by simp) (by simp)
    · split at h
      · next c hc =>
        injection h with h; subst h
        exact .deriveCodes c he (by simpa [legalIn] using hl) hc
      · cases h
  | encSym x =>
    simp only [exec, execEncSym] at h
    rcases gated_cases (.encSym x) s _ with ⟨_, hg⟩ | ⟨he, _, hg⟩ | ⟨he, hl, hg⟩ <;> rw [hg] at h
    · injection h with h; subst h; exact .same _
    · injection h with h; subst h; exact .error he (by simp) (by simp) (by simp)
    · split at h
      · injection h with h; subst h; exact .error he (by simp) (by simp) (by simp)
      · next hn =>
        injection h with h; subst h
        exact .encSym x he (by simpa [legalIn] using hl) hn
  | decBit b =>
    simp only [exec, execDecBit] at h
    rcases gated_cases (.decBit b) s _ with ⟨_, hg⟩ | ⟨he, _, hg⟩ | ⟨he, hl, hg⟩ <;> rw [hg] at h
    · injection h with h; subst h; exact .same _
    · injection h with h; subst h; exact .error he (by simp) (by simp) (by simp)
    · have hp : s.phase ≠ .collect := by simpa [legalIn] using hl
      split at h
      · injection h with h; subst h; exact .error he (by simp) (by simp) (by simp)
      · next hn =>
        split at h
        · next hr => injection h with h; subst h; exact .decLeafRoot b he hp hr
        · next hr =>
          split at h
          · next k hk =>
            injection h with h; subst h
            exact .decArrive b k he hp hn (by simpa using hr) hk
          · cases h
  | decEnd =>
    simp only [exec, execDecEnd] at h
    rcases gated_cases .decEnd s _ with ⟨_, hg⟩ | ⟨he, _, hg⟩ | ⟨he, hl, hg⟩ <;> rw [hg] at h
    · injection h with h; subst h; exact .same _
    · injection h with h; subst h; exact .error he (by simp) (by simp) (by simp)
    · split at h
      · injection h with h; subst h; exact .error he (by simp) (by simp) (by simp)
      · injection h with h; subst h; exact .same _

/-- Issuing a word is a command's effect, or an error capture by an illegal word, or nothing (30_encoding.md R63). -/
theorem issue_cases {w : Word} {s t : State} (h : issue w s = .next t) :
    (∃ i, encode i = w ∧ decode w = .ok i ∧ exec i s = .next t) ∨
    ((∃ e, decode w = .error e) ∧ s.err = .none ∧ t = s.captured .illegalCmd w) ∨
    ((∃ e, decode w = .error e) ∧ s.err ≠ .none ∧ t = s) := by
  unfold issue at h
  split at h
  · next i hi => exact .inl ⟨i, encode_of_decode hi, hi, h⟩
  · next e he =>
    unfold issueIllegal at h
    split at h
    · next hn => injection h with h; exact .inr (.inr ⟨⟨e, he⟩, hn, h.symm⟩)
    · next hn => injection h with h; exact .inr (.inl ⟨⟨e, he⟩, by simpa using hn, h.symm⟩)

/-- No command touches what lies outside the block's registers. -/
theorem Effect.outside {s t : State} {i : Instr} (h : Effect s i t) : s.sameOutside t := by
  cases h <;> try exact ⟨rfl, rfl, rfl, rfl, rfl, rfl, rfl, rfl, rfl, rfl⟩
  unfold arriveAt
  split <;> exact ⟨rfl, rfl, rfl, rfl, rfl, rfl, rfl, rfl, rfl, rfl⟩

/-- A command only appends to the streams (10_state.md R34). -/
theorem Effect.streams {s t : State} {i : Instr} (h : Effect s i t) : s.obit <+: t.obit ∧ s.osym <+: t.osym := by
  cases h with
  | encSym x _ _ _ => exact ⟨List.prefix_append _ _, List.prefix_refl _⟩
  | decLeafRoot b _ _ _ => exact ⟨List.prefix_refl _, List.prefix_append _ _⟩
  | decArrive b k _ _ _ _ _ =>
    unfold arriveAt
    split
    · exact ⟨List.prefix_refl _, List.prefix_append _ _⟩
    · exact ⟨List.prefix_refl _, List.prefix_refl _⟩
  | _ => exact ⟨List.prefix_refl _, List.prefix_refl _⟩

/-! ## When each meaning has its own effect -/

theorem exec_tabSym_run {x : Sym} {s : State} (h : s.err = .none) (hp : s.phase = .collect)
    (hf : s.total + 1 ≤ Config.totalMax) : exec (.tabSym x) s = .next (s.setFreq x (s.freqAt x + 1#32)) := by
  have hn : ¬ s.total + 1 > Config.totalMax := by omega
  simp [exec, execTabSym, h, hp, legalIn, hn]

theorem exec_tabSym_overflow {x : Sym} {s : State} (h : s.err = .none) (hp : s.phase = .collect)
    (hf : s.total + 1 > Config.totalMax) :
    exec (.tabSym x) s = .next (s.captured .countOverflow (encode (.tabSym x))) := by
  simp [exec, execTabSym, h, hp, legalIn, hf]

theorem exec_freqLoad_run {x : Sym} {s : State} (h : s.err = .none) (hp : s.phase = .collect) (h0 : s.arg ≠ 0#32)
    (ha : s.freqAt x = 0#32) (hf : s.total + s.arg.toNat ≤ Config.totalMax) :
    exec (.freqLoad x) s = .next (s.setFreq x s.arg) := by
  have hn : ¬ s.total + s.arg.toNat > Config.totalMax := by omega
  simp [exec, execFreqLoad, h, hp, legalIn, countOperand, h0, ha, hn]

theorem exec_buildTree_run {s : State} (h : s.err = .none) (hp : s.phase = .collect) :
    exec .buildTree s
      = .next { s.setTree (buildTree s.freq) with decPtr := (buildTree s.freq).root, phase := .tree } := by
  simp [exec, execBuildTree, h, hp, legalIn]

theorem exec_deriveCodes_run {s : State} {c : CodeTable} (h : s.err = .none) (hp : s.phase = .tree)
    (hc : deriveCodes s.tree = some c) : exec .deriveCodes s = .next { s.setCodes c with phase := .coded } := by
  simp [exec, execDeriveCodes, h, hp, legalIn, hc]

theorem exec_encSym_run {x : Sym} {s : State} (h : s.err = .none) (hp : s.phase = .coded)
    (hl : symGet s.codeLen x ≠ 0#8) :
    exec (.encSym x) s = .next
      { s.emitBits (s.code x) with encBitcnt := s.encBitcnt + (symGet s.codeLen x).setWidth 64 } := by
  simp [exec, execEncSym, h, hp, legalIn, hl]

theorem exec_decBit_leafRoot {b : Bool} {s : State} (h : s.err = .none) (hp : s.phase ≠ .collect)
    (hr : isLeaf s.root = true) : exec (.decBit b) s = .next (s.emitSym (leafSym s.root)) := by
  have hn : s.root ≠ nilId := by rintro e; rw [e] at hr; exact absurd hr (by decide)
  have hl : legalIn (.decBit b) s.phase = true := by simpa [legalIn] using hp
  simp [exec, execDecBit, gated_run _ h hl, hr, hn]

theorem exec_decBit_move {b : Bool} {s : State} {k : Fin 255} (h : s.err = .none) (hp : s.phase ≠ .collect)
    (hn : s.root ≠ nilId) (hr : isLeaf s.root = false) (hk : internalIx s.decPtr = some k) :
    exec (.decBit b) s = .next (arriveAt (s.tree.child k b) s) := by
  have hl : legalIn (.decBit b) s.phase = true := by simpa [legalIn] using hp
  simp [exec, execDecBit, gated_run _ h hl, hr, hn, hk]

theorem exec_decEnd_run {s : State} (h : s.err = .none) (hp : s.phase ≠ .collect) (hd : s.decPtr = s.root) :
    exec .decEnd s = .next s := by
  have hl : legalIn .decEnd s.phase = true := by simpa [legalIn] using hp
  simp [exec, execDecEnd, gated_run _ h hl, hd]

end Sys2Proof.Machine
end

