-- ==== Sys2Proof/Laws/Step.lean ====
section
/-! SUPPORT. Laws of the register map, of accepting a bus request, of the ports and of a step, each said once
(20_memory.md R39 to R51; 70_reset_and_hazards.md R112 to R118). -/

namespace Sys2Proof.Machine

/-! ## The register map -/

theorem regOfIndex_cmd {j : Nat} (h : regOfIndex j = .cmd) : j = 5 := by
  unfold regOfIndex at h
  split at h
  · unfold controlReg at h
    split at h <;> first | rfl | cases h
  · split at h
    · cases h
    · split at h
      · cases h
      · split at h
        · cases h
        · split at h
          · cases h
          · unfold nodeReg at h
            split at h
            · split at h <;> cases h
            · cases h

theorem regOfIndex_arg {j : Nat} (h : regOfIndex j = .arg) : j = 6 := by
  unfold regOfIndex at h
  split at h
  · unfold controlReg at h
    split at h <;> first | rfl | cases h
  · split at h
    · cases h
    · split at h
      · cases h
      · split at h
        · cases h
        · split at h
          · cases h
          · unfold nodeReg at h
            split at h
            · split at h <;> cases h
            · cases h

/-- The one aligned address that stands for CMD (20_memory.md R39). -/
theorem addr_of_regAt_cmd {a : Addr} (ha : a.toNat % 4 = 0) (h : regAt a = .cmd) : a = cmdAddr := by
  have := regOfIndex_cmd h
  apply BitVec.eq_of_toNat_eq
  simp only [cmdAddr, BitVec.toNat_ofNat]
  omega

/-- The one aligned address that stands for ARG (20_memory.md R39). -/
theorem addr_of_regAt_arg {a : Addr} (ha : a.toNat % 4 = 0) (h : regAt a = .arg) : a = argAddr := by
  have := regOfIndex_arg h
  apply BitVec.eq_of_toNat_eq
  simp only [argAddr, BitVec.toNat_ofNat]
  omega

theorem malformed_false {r : BusReq} (h : r.malformed = false) : r.be = 0xF#4 ∧ r.addr.toNat % 4 = 0 := by
  simpa [BusReq.malformed] using h

theorem sym_ofNat (x : Sym) {n : Nat} (h : n = x.toNat) : BitVec.ofNat 8 n = x := by
  subst h
  simp

/-- The FREQ window (20_memory.md R40). -/
theorem regAt_freq {x : Sym} {a : Addr} (h : a.toNat = 0x0400 + 4 * x.toNat) : regAt a = .freq x := by
  have := x.isLt
  rw [regAt, regOfIndex, if_neg (by omega), if_pos (by omega), sym_ofNat x (by omega)]

/-- The CODE_LEN window (20_memory.md R41). -/
theorem regAt_codeLen {x : Sym} {a : Addr} (h : a.toNat = 0x0800 + 4 * x.toNat) : regAt a = .codeLen x := by
  have := x.isLt
  rw [regAt, regOfIndex, if_neg (by omega), if_neg (by omega), if_pos (by omega), sym_ofNat x (by omega)]

/-- The CODE_BITS window (20_memory.md R42). -/
theorem regAt_codeBits {x : Sym} {w : Fin 8} {a : Addr} (h : a.toNat = 0x1000 + 32 * x.toNat + 4 * w.val) :
    regAt a = .codeBits x w := by
  have := x.isLt
  have := w.isLt
  have e : Fin.ofNat 8 ((a.toNat / 4 - 0x400) % 8) = w := Fin.ext (by simp only [Fin.ofNat]; omega)
  rw [regAt, regOfIndex, if_neg (by omega), if_neg (by omega), if_neg (by omega), if_neg (by omega), if_pos (by omega),
    sym_ofNat x (by omega), e]

theorem regAt_node {a : Addr} (h : 0x3000 ≤ a.toNat) : regAt a = nodeReg (a.toNat / 4 - 0xC00) := by
  rw [regAt, regOfIndex, if_neg (by omega), if_neg (by omega), if_neg (by omega), if_neg (by omega), if_neg (by omega)]

/-- The node window's first words (20_memory.md R43). -/
theorem regAt_nodeLink {k : Fin 255} {a : Addr} (h : a.toNat = 0x3000 + 8 * k.val) : regAt a = .nodeLink k := by
  have := k.isLt
  have e : (a.toNat / 4 - 0xC00) / 2 = k.val := by omega
  rw [regAt_node (by omega), nodeReg, dif_pos (by omega), if_pos (by omega)]
  simp only [e]

/-- The node window's second words (20_memory.md R43). -/
theorem regAt_nodeFreq {k : Fin 255} {a : Addr} (h : a.toNat = 0x3004 + 8 * k.val) : regAt a = .nodeFreq k := by
  have := k.isLt
  have e : (a.toNat / 4 - 0xC00) / 2 = k.val := by omega
  rw [regAt_node (by omega), nodeReg, dif_pos (by omega), if_neg (by omega)]
  simp only [e]

@[simp] theorem regAt_cmdAddr : regAt cmdAddr = .cmd := rfl

@[simp] theorem regAt_argAddr : regAt argAddr = .arg := rfl

/-- A word write to an aligned address is well formed (20_memory.md R46). -/
theorem malformed_writeReq {a : Addr} (h : a.toNat % 4 = 0) (v : Word) : (writeReq a v).malformed = false := by
  simp [BusReq.malformed, writeReq, h]

/-- A write to CMD issues its word (20_memory.md R45). -/
theorem accept_cmd (w : Word) (s : State) :
    accept (writeReq cmdAddr w) s = onNext (issue w s) (fun t => .next t.finishCommand) := by
  rw [accept, malformed_writeReq rfl]
  simp only [writeReq, Bool.false_eq_true, if_false, if_true, regAt_cmdAddr, acceptWrite]

/-- A write to ARG stores the data (20_memory.md R45). -/
theorem accept_arg (v : Word) (s : State) :
    accept (writeReq argAddr v) s = .next ({ s with arg := v }.respond okRsp) := by
  rw [accept, malformed_writeReq rfl]
  simp only [writeReq, Bool.false_eq_true, if_false, if_true, regAt_argAddr, acceptWrite]

/-! ## Accepting a request -/

/-- Everything accepting a request can do when it answers a next state (20_memory.md R44 to R47, R51). -/
inductive AcceptEffect (r : BusReq) (s : State) : State → Prop where
  | refused (h : r.malformed = true) : AcceptEffect r s (s.respond errRsp)
  | read (hm : r.malformed = false) (hw : r.write = false) : AcceptEffect r s (s.respond ⟨memRead s r.addr, false⟩)
  | arg (hm : r.malformed = false) (hw : r.write = true) (ha : r.addr = argAddr) :
      AcceptEffect r s ({ s with arg := r.wdata }.respond okRsp)
  | ignored (hm : r.malformed = false) (hw : r.write = true) (hc : regAt r.addr ≠ .cmd) (ha : regAt r.addr ≠ .arg) :
      AcceptEffect r s (s.respond okRsp)
  | command {u : State} (hm : r.malformed = false) (hw : r.write = true) (ha : r.addr = cmdAddr)
      (hi : issue r.wdata s = .next u) : AcceptEffect r s u.finishCommand

theorem accept_effect {r : BusReq} {s t : State} (h : accept r s = .next t) : AcceptEffect r s t := by
  unfold accept at h
  split at h
  · next hm => injection h with h; subst h; exact .refused hm
  · next hm =>
    have hm' : r.malformed = false := by simpa using hm
    split at h
    · next hw =>
      have hal := (malformed_false hm').2
      unfold acceptWrite at h
      split at h
      · next hc =>
        obtain ⟨u, hu, hf⟩ := onNext_eq_next.1 h
        injection hf with hf
        subst hf
        exact .command hm' hw (addr_of_regAt_cmd hal hc) hu
      · next hc => injection h with h; subst h; exact .arg hm' hw (addr_of_regAt_arg hal hc)
      · next h1 h2 => injection h with h; subst h; exact .ignored hm' hw h1 h2
    · next hw => injection h with h; subst h; exact .read hm' (by simpa using hw)

/-! ## The ports -/

theorem fitsBuffer_iff {α : Type} (items : List α) (taken depth : Nat) :
    fitsBuffer items taken depth = true ↔ items.length ≤ taken + depth := by simp [fitsBuffer]

theorem portsFit_iff (s : State) :
    s.portsFit = true ↔ s.obit.length ≤ s.obitTaken + Config.fifoDepth ∧ s.osym.length ≤ s.osymTaken + Config.fifoDepth := by
  simp [State.portsFit, fitsBuffer_iff]

/-- Ending a command answers it, or leaves it waiting (20_memory.md R50, R51). -/
theorem finishCommand_cases (s : State) :
    (s.portsFit = true ∧ s.finishCommand = s.respond okRsp) ∨
    (s.portsFit = false ∧ s.finishCommand = { s with busy := true }) := by
  unfold State.finishCommand
  cases s.portsFit <;> simp

@[simp] theorem finishCommand_obit (s : State) : s.finishCommand.obit = s.obit := by
  rcases finishCommand_cases s with ⟨_, h⟩ | ⟨_, h⟩
  · rw [h]; rfl
  · rw [h]

@[simp] theorem finishCommand_osym (s : State) : s.finishCommand.osym = s.osym := by
  rcases finishCommand_cases s with ⟨_, h⟩ | ⟨_, h⟩
  · rw [h]; rfl
  · rw [h]

/-- A request never changes what the consumers have taken, and only appends to the streams (20_memory.md R50). -/
theorem AcceptEffect.ports {r : BusReq} {s t : State} (h : AcceptEffect r s t) :
    t.obitTaken = s.obitTaken ∧ t.osymTaken = s.osymTaken ∧ t.obitPast = s.obitPast ∧ t.osymPast = s.osymPast ∧
      s.obit <+: t.obit ∧ s.osym <+: t.osym := by
  cases h with
  | refused _ => exact ⟨rfl, rfl, rfl, rfl, List.prefix_refl _, List.prefix_refl _⟩
  | read _ _ => exact ⟨rfl, rfl, rfl, rfl, List.prefix_refl _, List.prefix_refl _⟩
  | arg _ _ _ => exact ⟨rfl, rfl, rfl, rfl, List.prefix_refl _, List.prefix_refl _⟩
  | ignored _ _ _ _ => exact ⟨rfl, rfl, rfl, rfl, List.prefix_refl _, List.prefix_refl _⟩
  | @command u _ _ _ hi =>
    have hu : u.obitTaken = s.obitTaken ∧ u.osymTaken = s.osymTaken ∧ u.obitPast = s.obitPast ∧
        u.osymPast = s.osymPast ∧ s.obit <+: u.obit ∧ s.osym <+: u.osym := by
      rcases issue_cases hi with ⟨i, _, _, hx⟩ | ⟨_, _, rfl⟩ | ⟨_, _, rfl⟩
      · have hx := exec_effect hx
        obtain ⟨h1, h2, h3, h4, _⟩ := hx.outside
        exact ⟨h1, h2, h3, h4, hx.streams⟩
      · exact ⟨rfl, rfl, rfl, rfl, List.prefix_refl _, List.prefix_refl _⟩
      · exact ⟨rfl, rfl, rfl, rfl, List.prefix_refl _, List.prefix_refl _⟩
    rcases finishCommand_cases u with ⟨_, h⟩ | ⟨_, h⟩ <;> rw [h] <;> exact hu

theorem settle_cases (s : State) :
    (s.busy = true ∧ s.portsFit = true ∧ s.settle = { s with busy := false }.respond okRsp) ∨
    ((s.busy = false ∨ s.portsFit = false) ∧ s.settle = s) := by
  unfold State.settle
  cases s.busy <;> cases s.portsFit <;> simp

/-! ## Reset -/

theorem archReset_reset : State.reset.archReset :=
  ⟨rfl, rfl, rfl, rfl, rfl, rfl, rfl, rfl, rfl, rfl, rfl, rfl⟩

theorem archReset_underReset (s : State) : s.underReset.archReset :=
  ⟨rfl, rfl, rfl, rfl, rfl, rfl, rfl, rfl, rfl, rfl, rfl, rfl⟩

/-- The free response adds at most one response and changes no more than the free index. -/
theorem cutResponse_cases (s : State) :
    s.cutResponse = { s with freeIx := s.freeIx + 1 } ∨
      ∃ p, s.cutResponse = { s with freeIx := s.freeIx + 1, responses := s.responses ++ [p] } := by
  unfold State.cutResponse
  split
  · exact .inl rfl
  · next d e _ => exact .inr ⟨⟨d, e⟩, rfl⟩

/-- The free response touches the responses and the free index only. -/
theorem cutResponse_eq (s : State) : ∃ ps n, s.cutResponse = { s with responses := s.responses ++ ps, freeIx := n } := by
  rcases cutResponse_cases s with h | ⟨p, h⟩
  · exact ⟨[], s.freeIx + 1, h.trans (by simp)⟩
  · exact ⟨[p], s.freeIx + 1, h⟩

/-! ## What the consumers have got (70_reset_and_hazards.md R113, R114) -/

@[simp] theorem underReset_obitGot (s : State) : s.underReset.obitGot = s.obitGot := List.append_nil _

@[simp] theorem underReset_osymGot (s : State) : s.underReset.osymGot = s.osymGot := List.append_nil _

@[simp] theorem cutResponse_obitGot (s : State) : s.cutResponse.obitGot = s.obitGot := by
  obtain ⟨ps, n, h⟩ := cutResponse_eq s
  rw [h]
  rfl

@[simp] theorem cutResponse_osymGot (s : State) : s.cutResponse.osymGot = s.osymGot := by
  obtain ⟨ps, n, h⟩ := cutResponse_eq s
  rw [h]
  rfl

@[simp] theorem abandon_obitGot (n m : Nat) (s : State) :
    (s.abandon n m).obitGot = s.obitPast ++ s.obit.take (s.obitTaken + n) := by
  rw [State.abandon, cutResponse_obitGot, underReset_obitGot]
  rfl

@[simp] theorem abandon_osymGot (n m : Nat) (s : State) :
    (s.abandon n m).osymGot = s.osymPast ++ s.osym.take (s.osymTaken + m) := by
  rw [State.abandon, cutResponse_osymGot, underReset_osymGot]
  rfl

@[simp] theorem settle_obitGot (s : State) : s.settle.obitGot = s.obitGot := by
  rcases settle_cases s with ⟨_, _, h⟩ | ⟨_, h⟩
  · rw [h]; rfl
  · rw [h]

@[simp] theorem settle_osymGot (s : State) : s.settle.osymGot = s.osymGot := by
  rcases settle_cases s with ⟨_, _, h⟩ | ⟨_, h⟩
  · rw [h]; rfl
  · rw [h]

@[simp] theorem assertReset_obitGot (s : State) : s.assertReset.obitGot = s.obitGot := by
  unfold State.assertReset
  split <;> simp

@[simp] theorem assertReset_osymGot (s : State) : s.assertReset.osymGot = s.osymGot := by
  unfold State.assertReset
  split <;> simp

/-- A state under reset: what a reset turn leaves, whatever the host has pending or got (70_reset_and_hazards.md R112 to
R114). -/
def State.IsUnderReset (t : State) : Prop :=
  ∃ bs xs rs ps ts n, t = { State.reset with obitPast := bs, osymPast := xs, rst := true, requests := rs, responses := ps,
                                             turns := ts, freeIx := n }

theorem underReset_isUnderReset (s : State) : s.underReset.IsUnderReset := ⟨_, _, _, _, _, _, rfl⟩

theorem cutResponse_isUnderReset {s : State} (h : s.IsUnderReset) : s.cutResponse.IsUnderReset := by
  obtain ⟨bs, xs, rs, ps, ts, n, rfl⟩ := h
  rcases cutResponse_cases _ with h | ⟨p, h⟩ <;> rw [h] <;> exact ⟨_, _, _, _, _, _, rfl⟩

theorem assertReset_isUnderReset (s : State) : s.assertReset.IsUnderReset := by
  unfold State.assertReset
  split
  · exact cutResponse_isUnderReset (underReset_isUnderReset s)
  · exact underReset_isUnderReset s

theorem abandon_isUnderReset (n m : Nat) (s : State) : (s.abandon n m).IsUnderReset :=
  cutResponse_isUnderReset (underReset_isUnderReset _)

theorem cutByReset_isUnderReset (n m : Nat) (s : State) : (s.cutByReset n m).IsUnderReset := by
  unfold State.cutByReset
  split
  · exact assertReset_isUnderReset s
  · split
    · exact abandon_isUnderReset n m s
    · split
      · exact assertReset_isUnderReset s
      · exact abandon_isUnderReset n m _

theorem State.IsUnderReset.archReset {t : State} (h : t.IsUnderReset) : t.archReset := by
  obtain ⟨bs, xs, rs, ps, ts, n, rfl⟩ := h
  exact ⟨rfl, rfl, rfl, rfl, rfl, rfl, rfl, rfl, rfl, rfl, rfl, rfl⟩

/-! ## A step -/

/-- Everything a step can do when it answers a next state; `s'` below is `s` with the turn taken off. -/
inductive StepEffect (s' : State) : State → Prop where
  | wait : StepEffect s' s'
  | accept {r : BusReq} {rs : List BusReq} {t : State} (hr : s'.rst = false) (hb : s'.busy = false)
      (hq : s'.requests = r :: rs) (ha : AcceptEffect r { s' with requests := rs } t) : StepEffect s' t
  | takeObit (h : s'.obitTaken < s'.obit.length) : StepEffect s' { s' with obitTaken := s'.obitTaken + 1 }.settle
  | takeOsym (h : s'.osymTaken < s'.osym.length) : StepEffect s' { s' with osymTaken := s'.osymTaken + 1 }.settle
  | assertReset : StepEffect s' s'.assertReset
  | cutByReset (n m : Nat) : StepEffect s' (s'.cutByReset n m)
  | releaseReset : StepEffect s' { s' with rst := false }

theorem hostTurn_effect {s t : State} (h : hostTurn s = .next t) : StepEffect s t := by
  unfold hostTurn at h
  split at h
  · injection h with h; subst h; exact .wait
  · next hn =>
    simp only [Bool.or_eq_true, not_or, Bool.not_eq_true] at hn
    split at h
    · injection h with h; subst h; exact .wait
    · next r rs hq => exact .accept hn.1 hn.2 hq (accept_effect h)

theorem takeTurn_effect {u : Turn} {s t : State} (h : takeTurn u s = .next t) : StepEffect s t := by
  cases u with
  | host => exact hostTurn_effect h
  | takeObit =>
    simp only [takeTurn, Host.Outcome.next.injEq, State.takeObit] at h
    subst h
    split
    · next hl => exact .takeObit hl
    · exact .wait
  | takeOsym =>
    simp only [takeTurn, Host.Outcome.next.injEq, State.takeOsym] at h
    subst h
    split
    · next hl => exact .takeOsym hl
    · exact .wait
  | assertReset => injection h with h; subst h; exact .assertReset
  | cutByReset n m => injection h with h; subst h; exact .cutByReset n m
  | releaseReset => injection h with h; subst h; exact .releaseReset

/-- A step is an effect on the state with its turn taken off. -/
theorem step_effect {s t : State} (h : step s = .next t) : StepEffect { s with turns := s.turns.tail } t := by
  unfold step at h
  split at h
  · next hts =>
    have : { s with turns := s.turns.tail } = s := by rw [hts]; simp only [List.tail_nil]; rw [← hts]
    rw [this]
    exact hostTurn_effect h
  · next u ts hts =>
    have : { s with turns := s.turns.tail } = { s with turns := ts } := by rw [hts]; rfl
    rw [this]
    exact takeTurn_effect h

/-- A run of one step and more. -/
theorem run_next {M : Host.Core} {s t : M.State} (h : M.step s = .next t) (n : Nat) : M.run (n + 1) s = M.run n t := by
  rw [Host.Core.run, h]

end Sys2Proof.Machine
end

