-- ==== Sys2Proof/Laws/Derived.lean ====
section
/-! SUPPORT. What follows for a whole state: the frequencies of the built tree, the entries of the derived CodeTable, the
present symbols after a count changes, and which error a command can leave. -/

namespace Sys2Proof.Machine

/-! ## Frequencies of the built tree -/

/-- The frequency of a node of the built tree, by the number of its id (42_tree_builder.md R74). -/
def idFreq (f : Vector Word 256) (id : Nat) : Nat :=
  if id < 256 then (symGet f (BitVec.ofNat 8 id)).toNat else ((mergedNodes f)[id - 256]?).elim 0 MergedNode.f

theorem mergedNodes_freq {f : Vector Word 256} {j : Nat} (hj : j < (mergedNodes f).length) :
    (mergedNodes f)[j].f = idFreq f (mergedNodes f)[j].left + idFreq f (mergedNodes f)[j].right := by
  have h1 : 1 ≤ (presentSyms f).length := by
    by_contra hc
    rw [mergedNodes_nil (by omega)] at hj
    simp at hj
  refine mergeLoop_freq (n := (presentSyms f).length - 1) (k := 0) (q := leafQueue f) (by rw [length_leafQueue]; omega)
    (idFreq f) ?_ ?_ j hj
  · intro x hx
    obtain ⟨y, -, rfl⟩ := List.mem_map.1 hx
    simp [idFreq, y.isLt]
  · intro i hi
    have hi' : i < (mergedNodes f).length := hi
    have e : 256 + 0 + i - 256 = i := by omega
    rw [idFreq, if_neg (by omega), e, List.getElem?_eq_getElem hi']
    rfl

theorem mergedNodes_freq_le {f : Vector Word 256} {j : Nat} (hj : j < (mergedNodes f).length) :
    (mergedNodes f)[j].f ≤ totalOf f := by
  have h1 : 1 ≤ (presentSyms f).length := by
    by_contra hc
    rw [mergedNodes_nil (by omega)] at hj
    simp at hj
  have := mergeLoop_freq_le (k := 0) (n := (presentSyms f).length - 1) (q := leafQueue f)
    (by rw [length_leafQueue]; omega) (mergedNodes f)[j] (List.getElem_mem _)
  rwa [leafQueue_freqs] at this

theorem nodeFreq_buildTree {s : State} (hb : s.tree = buildTree s.freq) (ht : s.total ≤ 2 ^ 32 - 1) {id : Nat}
    (hid : id < 511) : s.nodeFreq (BitVec.ofNat 9 id) = idFreq s.freq id := by
  have hf : s.intFreq = (buildTree s.freq).freq := congrArg Tree.freq hb
  by_cases hl : id < 256
  · have hx : BitVec.ofNat 9 id = leafId (BitVec.ofNat 8 id) := by
      apply BitVec.eq_of_toNat_eq
      rw [toNat_leafId]
      simp only [BitVec.toNat_ofNat]
      omega
    rw [hx, State.nodeFreq, internalIx_of_leaf (by simp)]
    simp [idFreq, hl, State.freqAt]
  · have hx : BitVec.ofNat 9 id = internalId (id - 256) := by
      rw [internalId, show 256 + (id - 256) = id from by omega]
    rw [hx, State.nodeFreq, internalIx_internalId (by omega)]
    rw [idFreq, if_neg hl]
    simp only [State.total] at ht
    by_cases hk : id - 256 < (mergedNodes s.freq).length
    · have hle := mergedNodes_freq_le hk
      have hb' := buildTree_freq (k := ⟨id - 256, by omega⟩) hk
      simp only at hb'
      simp only [hf, hb', List.getElem?_eq_getElem hk, BitVec.toNat_ofNat, Option.elim]
      exact Nat.mod_eq_of_lt (by omega)
    · simp only [hf]
      simp [buildTree, List.getElem?_eq_none_iff.2 (Nat.le_of_not_lt hk)]

/-- The frequencies of the built tree add up (42_tree_builder.md R77 item 4). -/
theorem intFreq_buildTree {s : State} (hb : s.tree = buildTree s.freq) (ht : s.total ≤ 2 ^ 32 - 1) (k : Fin 255)
    (hk : k.val < s.nint.toNat) :
    (nodeGet s.intFreq k).toNat = s.nodeFreq (nodeGet s.intLeft k) + s.nodeFreq (nodeGet s.intRight k) := by
  have hn : s.nint = (buildTree s.freq).nint := congrArg Tree.nint hb
  have hf : s.intFreq = (buildTree s.freq).freq := congrArg Tree.freq hb
  have hl : s.intLeft = (buildTree s.freq).left := congrArg Tree.left hb
  have hr : s.intRight = (buildTree s.freq).right := congrArg Tree.right hb
  rw [hn, buildTree_nint] at hk
  have hk' : k.val < (mergedNodes s.freq).length := by rw [length_mergedNodes (by omega)]; exact hk
  have hc := buildTree_child (k := k) hk'
  simp only [Tree.child, Bool.false_eq_true, if_false, if_true] at hc
  have ho := mergedNodes_older hk'
  have hle := mergedNodes_freq_le hk'
  rw [hf, hl, hr, hc.1, hc.2, nodeFreq_buildTree hb ht (by omega), nodeFreq_buildTree hb ht (by omega),
    ← mergedNodes_freq hk', buildTree_freq hk']
  simp only [State.total] at ht
  simp only [BitVec.toNat_ofNat]
  omega

theorem last_freq {f : Vector Word 256} (h2 : 2 ≤ (presentSyms f).length) (hj : (presentSyms f).length - 2 < (mergedNodes f).length) :
    (mergedNodes f)[(presentSyms f).length - 2].f = totalOf f := by
  obtain ⟨n, hn⟩ : ∃ n, (presentSyms f).length = n + 2 := ⟨_, (Nat.sub_add_cancel h2).symm⟩
  have hm : mergedNodes f = mergeLoop (n + 1) 0 (leafQueue f) := by simp [mergedNodes, hn]
  have := mergeLoop_last (n := n) (k := 0) (q := leafQueue f) (by rw [length_leafQueue, hn]) (by rw [← hm]; omega)
  rw [leafQueue_freqs] at this
  rw [← this]
  simp [hn, hm]

/-- The root's frequency is TOTAL (42_tree_builder.md R77 item 4). -/
theorem rootFreq_buildTree {s : State} (hb : s.tree = buildTree s.freq) (ht : s.total ≤ 2 ^ 32 - 1) (h1 : 1 ≤ s.nsym) :
    s.nodeFreq s.root = s.total := by
  have hr : s.root = rootOf (presentSyms s.freq) := congrArg Tree.root hb
  simp only [State.nsym] at h1
  rcases presentSyms_cases s.freq with hp | ⟨x, hp⟩ | hp
  · simp [hp] at h1
  · rw [hr, hp, State.nodeFreq, rootOf, internalIx_of_leaf (by simp), State.total, totalOf_eq_present, hp]
    simp [State.freqAt]
  · have hle := length_presentSyms_le s.freq
    have hlen := length_mergedNodes (f := s.freq) (by omega)
    rw [hr, rootOf_two hp, internalId, nodeFreq_buildTree hb ht (by omega), idFreq, if_neg (by omega)]
    have e : 256 + ((presentSyms s.freq).length - 2) - 256 = (presentSyms s.freq).length - 2 := by omega
    rw [e, List.getElem?_eq_getElem (by omega)]
    exact last_freq hp (by omega)

/-! ## Entries of the derived CodeTable -/

theorem record_high (t : CodeTable) (x : Sym) {c : List Bool} (h0 : symGet t.bits x = 0#256) :
    ∀ i, c.length ≤ i → (symGet (t.record x c).bits x).getLsbD i = false := by
  intro i hi
  simp only [CodeTable.record, symGet_symSet_same]
  by_cases h256 : i < 256
  · rw [getLsbD_writeCode _ _ _ _ h256, if_neg (by omega), h0]; simp
  · exact BitVec.getLsbD_of_ge _ _ (by omega)

theorem recordAll_high (t : CodeTable) (ps : List (Sym × List Bool)) (hn : (ps.map Prod.fst).Nodup)
    (h0 : ∀ p ∈ ps, symGet t.bits p.1 = 0#256) : ∀ p ∈ ps, ∀ i, p.2.length ≤ i → 
     (symGet (t.recordAll ps).bits p.1).getLsbD i = false := by
  induction ps generalizing t with
  | nil => simp
  | cons p ps ih =>
    simp only [List.map_cons, List.nodup_cons] at hn
    intro q hq
    rcases List.mem_cons.1 hq with h | h
    · subst h
      have ho := recordAll_other (t.record q.1 q.2) ps hn.1
      simp only [CodeTable.recordAll, List.foldl_cons] at ho ⊢
      rw [ho.2]
      exact record_high t q.1 (h0 q (by simp))
    · refine ih (t.record p.1 p.2) hn.2 ?_ q h
      intro r hr
      rw [(record_other t p.2 (x := p.1) (y := r.1) ?_).2]
      · exact h0 r (by simp [hr])
      · rintro e; exact hn.1 (e ▸ List.mem_map.2 ⟨r, hr, rfl⟩)

/-- The three cases of DERIVE_CODES on a built tree (43_code_deriver.md R79). -/
theorem derived_cases (f : Vector Word 256) (c : CodeTable) (h : deriveCodes (buildTree f) = some c) :
    (presentSyms f = [] ∧ c = CodeTable.zero) ∨ (∃ x, presentSyms f = [x] ∧ c = CodeTable.zero.record x [false]) ∨
    (2 ≤ (presentSyms f).length ∧ ∃ t, (buildTree f).Unfolds (buildTree f).root t ∧ t.leaves.Perm (presentSyms f) ∧
      1 ≤ t.depth ∧ t.depth ≤ 255 ∧ c = CodeTable.zero.recordAll (t.paths [])) := by
  rcases presentSyms_cases f with hp | ⟨x, hp⟩ | hp
  · rw [deriveCodes_buildTree_none hp] at h; exact .inl ⟨hp, by simpa using h.symm⟩
  · rw [deriveCodes_buildTree_one hp] at h; exact .inr (.inl ⟨x, hp, by simpa using h.symm⟩)
  · obtain ⟨t, a, b, c', d, e⟩ := deriveCodes_buildTree_two hp
    rw [e] at h
    exact .inr (.inr ⟨hp, t, a, b, c', d, by simpa using h.symm⟩)

theorem path_of_present {f : Vector Word 256} {t : HTree} (hp : t.leaves.Perm (presentSyms f)) {x : Sym} (hx : symGet f x ≠ 0#32) :
   ∃ p ∈ t.paths [], p.1 = x := by
  have : x ∈ t.leaves := hp.mem_iff.2 ((mem_presentSyms _ _).2 hx)
  rw [← t.paths_syms []] at this
  obtain ⟨p, h1, h2⟩ := List.mem_map.1 this
  exact ⟨p, h1, h2⟩

theorem path_pos {t : HTree} (hd : 1 ≤ t.depth) : ∀ p ∈ t.paths [], 1 ≤ p.2.length := by
  cases t with
  | leaf x => simp [HTree.depth] at hd
  | node l r =>
    intro p hp
    simp only [HTree.paths, List.mem_append] at hp
    rcases hp with hp | hp
    · have := HTree.paths_length _ _ p hp; simp at this; omega
    · have := HTree.paths_length _ _ p hp; simp at this; omega

/-- A symbol has a code exactly when it is present, and else its bits are 0 (43_code_deriver.md R80 items 1 and 2). -/
theorem derived_len (f : Vector Word 256) (c : CodeTable) (h : deriveCodes (buildTree f) = some c) (x : Sym) :
   (symGet c.len x ≠ 0#8 ↔ symGet f x ≠ 0#32) ∧ (symGet f x = 0#32 → symGet c.bits x = 0#256) := by
  rcases derived_cases f c h with ⟨hp, rfl⟩ | ⟨y, hp, rfl⟩ | ⟨h2, t, hu, hperm, hd1, hd, rfl⟩
  · have : symGet f x = 0#32 := by
      by_contra hc; have := (mem_presentSyms f x).2 hc; rw [hp] at this; simp at this
    simp [CodeTable.zero, this]
  · have hy : ∀ z, symGet f z ≠ 0#32 ↔ z = y := by intro z; rw [← mem_presentSyms, hp]; simp
    by_cases hx : x = y
    · subst hx
      have := record_same CodeTable.zero x (c := [false]) (by simp)
      refine ⟨?_, fun h0 => absurd h0 ((hy x).2 rfl)⟩
      constructor
      · intro _; exact (hy x).2 rfl
      · intro _ h0; rw [h0] at this; simp at this
    · have := record_other CodeTable.zero (x := y) [false] hx
      rw [this.1, this.2]
      have : symGet f x = 0#32 := by by_contra hc; exact hx ((hy x).1 hc)
      simp [CodeTable.zero, this]
  · have hc := codes_of_paths hperm hd rfl
    constructor
    · constructor
      · intro hl
        rw [← mem_presentSyms]
        by_contra hn
        exact hl (hc.2 x hn).1
      · intro hx h0
        obtain ⟨p, hpm, rfl⟩ := path_of_present hperm hx
        have := (hc.1 p hpm).2
        rw [h0] at this
        have := path_pos hd1 p hpm
        simp at *
        omega
    · intro h0
      exact (hc.2 x (by simp [h0])).2

/-! ## The present symbols -/

theorem nsym_set (s : State) (x : Sym) (v : Word) (hv : v ≠ 0#32) :
   (presentSyms (symSet s.freq x v)).length = (presentSyms s.freq).length + (if symGet s.freq x = 0#32 then 1 else 0) := by
  by_cases h : symGet s.freq x = 0#32
  · have : (presentSyms (symSet s.freq x v)).Perm (x :: presentSyms s.freq) := by
      rw [List.perm_ext_iff_of_nodup (nodup_presentSyms _) (by simp [nodup_presentSyms, h])]
      intro y
      rw [mem_presentSyms, symGet_symSet]
      by_cases hy : y = x
      · simp [hy, hv]
      · simp [hy]
    rw [this.length_eq]; simp [h]
  · have : (presentSyms (symSet s.freq x v)).Perm (presentSyms s.freq) := by
      rw [List.perm_ext_iff_of_nodup (nodup_presentSyms _) (nodup_presentSyms _)]
      intro y
      rw [mem_presentSyms, symGet_symSet]
      by_cases hy : y = x
      · simp [hy, hv, h]
      · simp [hy]
    rw [this.length_eq]; simp [h]

/-! ## Errors -/

theorem gated_of (i : Instr) (hn : i ≠ .nop) (hc : i ≠ .clear) (s : State) : ∃ b, exec i s = gated i s b := by
  cases i <;> first | (exact absurd rfl hn) | (exact absurd rfl hc) | exact ⟨_, rfl⟩

theorem exec_discard (i : Instr) (hn : i ≠ .nop) (hc : i ≠ .clear) (s : State) (h : s.err ≠ .none) : exec i s = .next s := by
  obtain ⟨b, hb⟩ := gated_of i hn hc s
  rw [hb, gated_discard b h]

theorem exec_illegal (i : Instr) (s : State) (h : s.err = .none) (hl : legalIn i s.phase = false) :
   exec i s = .next (s.captured .phaseErr (encode i)) := by
  have hn : i ≠ .nop := by rintro rfl; simp [legalIn] at hl
  have hc : i ≠ .clear := by rintro rfl; simp [legalIn] at hl
  obtain ⟨b, hb⟩ := gated_of i hn hc s
  rw [hb, gated_illegal b h hl]

theorem effect_err {s t : State} {i : Instr} (h : Effect s i t) : t.err = s.err ∨ i = .clear ∨
   (s.err = .none ∧ t.err ≠ .none ∧ t = s.captured t.err (encode i)) := by
  cases h <;> simp_all
  unfold arriveAt; split <;> simp_all

end Sys2Proof.Machine
end

