-- ==== Sys2Proof/Laws/Host.lean ====
section
/-! SUPPORT. Laws of the host's procedures, each said once (46_host_interface.md R94 to R96). -/

namespace Sys2Proof.Machine

/-- Taking every item touches what the consumers have taken and the wait for them, nothing else. -/
theorem drained_eq (s : State) : ∃ b ps, s.drained =
    { s with obitTaken := s.obit.length, osymTaken := s.osym.length, busy := b, responses := s.responses ++ ps } := by
  unfold State.drained
  rcases settle_cases { s with obitTaken := s.obit.length, osymTaken := s.osym.length } with ⟨_, _, h⟩ | ⟨_, h⟩
  · exact ⟨false, [okRsp], h⟩
  · exact ⟨s.busy, [], h.trans (by simp)⟩

/-- Ending a command and taking every item of it: the block's registers are the command's. -/
theorem finishCommand_drained_eq (s : State) : ∃ b ps, s.finishCommand.drained =
    { s with obitTaken := s.obit.length, osymTaken := s.osym.length, busy := b, responses := s.responses ++ ps } := by
  rcases finishCommand_cases s with ⟨_, h⟩ | ⟨_, h⟩ <;> rw [h]
  · obtain ⟨b, ps, h⟩ := drained_eq (s.respond okRsp)
    exact ⟨b, okRsp :: ps, h.trans (by simp [State.respond])⟩
  · obtain ⟨b, ps, h⟩ := drained_eq { s with busy := true }
    exact ⟨b, ps, h⟩

/-- The host's write of a command's word issues that word. -/
theorem hostWrite_command (i : Instr) (s : State) :
    hostWrite (writeCommand i) s = onNext (issue (encode i) s) (fun t => .next t.finishCommand.drained) := by
  rw [hostWrite, writeCommand, accept_cmd]
  cases issue (encode i) s <;> rfl

/-- The host's write to ARG stores the data. -/
theorem hostWrite_arg (v : Word) (s : State) :
    hostWrite ⟨argAddr, v⟩ s = .next ({ s with arg := v }.respond okRsp).drained := by
  rw [hostWrite, accept_arg]
  rfl

/-- A bus write by the host only appends to the streams (10_state.md R34). -/
theorem hostWrite_streams {w : HostWrite} {s t : State} (h : hostWrite w s = .next t) :
    s.obit <+: t.obit ∧ s.osym <+: t.osym := by
  obtain ⟨u, hu, hf⟩ := onNext_eq_next.1 h
  injection hf with hf
  obtain ⟨b, ps, hd⟩ := drained_eq u
  rw [← hf, hd]
  exact ⟨(accept_effect hu).ports.2.2.2.2.1, (accept_effect hu).ports.2.2.2.2.2⟩

theorem hostWrites_append (ws vs : List HostWrite) (s : State) :
    hostWrites (ws ++ vs) s = onNext (hostWrites ws s) (hostWrites vs) := by
  induction ws generalizing s with
  | nil => rfl
  | cons w ws ih =>
    simp only [List.cons_append, hostWrites]
    cases hostWrite w s with
    | next t => exact ih t
    | fault _ => rfl
    | refused _ => rfl

/-- Lines that end well are followed by the rest. -/
theorem hostActs_append {p : Pack} {start : Nat} {as : List HostAct} {r r' : HostRun}
    (h : hostActs p start as none r = .done r') (bs : List HostAct) :
    hostActs p start (as ++ bs) none r = hostActs p start bs none r' := by
  induction as generalizing r with
  | nil =>
    injection h with h
    rw [h]
    rfl
  | cons a as ih =>
    simp only [List.cons_append, hostActs, reduceCtorEq, if_false, Option.map_none] at h ⊢
    cases ha : hostAct p start r a with
    | done q => rw [ha] at h; exact ih h
    | aborted _ _ => rw [ha] at h; cases h
    | stopped _ => rw [ha] at h; cases h

/-- Lines that write are the writes. -/
theorem hostActs_writes {p : Pack} {start : Nat} {ws : List HostWrite} {r : HostRun} {t : State}
    (h : hostWrites ws r.s = .next t) : hostActs p start (ws.map .write) none r = .done { r with s := t } := by
  induction ws generalizing r with
  | nil => injection h with h; subst h; rfl
  | cons w ws ih =>
    obtain ⟨u, hu, hf⟩ := onNext_eq_next.1 h
    simp only [List.map_cons, hostActs, hostAct, HostRun.access, hu]
    exact ih (r := { r with s := u }) hf

end Sys2Proof.Machine
end

