-- ==== Sys2Proof/Laws/PerInstr.lean ====
section
/-! SUPPORT. Statements about every command, one lemma per constructor of `Instr` (30_encoding.md R58 to R60). -/

namespace Sys2Proof.Laws.RoundTrip

/-- Decoding the word of a command gives the command back. -/
def Statement (i : Instr) : Prop := decode (encode i) = .ok i

/-- Format N: the decoder reads back a command with no operand. -/
theorem of_format_n {i : Instr} (ho : i.operand = 0) (hd : decode (encode i) = decodeN i (encode i)) :
    Statement i := by
  simp [Statement, hd, decodeN, ho]

/-- Format S: the decoder reads back a symbol operand. -/
theorem of_format_s {make : Sym → Instr} {x : Sym} (ho : (make x).operand = x.toNat)
    (hd : decode (encode (make x)) = decodeS make (encode (make x))) : Statement (make x) := by
  simpa [Statement, hd, decodeS, symField_encode_of_operand _ x ho, ho] using x.isLt

/-- Format B: the decoder reads back a bit operand. -/
theorem of_format_b {make : Bool → Instr} {b : Bool} (ho : (make b).operand = b.toNat)
    (hd : decode (encode (make b)) = decodeB make (encode (make b))) : Statement (make b) := by
  have : b.toNat / 2 = 0 := Nat.div_eq_of_lt (by cases b <;> decide)
  simp [Statement, hd, decodeB, bitField_encode_of_operand _ b ho, ho, this]

theorem nop : Statement .nop := of_format_n rfl (by simp [decode, Instr.opcode])
theorem clear : Statement .clear := of_format_n rfl (by simp [decode, Instr.opcode])
theorem tabSym (sym : Sym) : Statement (.tabSym sym) := of_format_s rfl (by simp [decode, Instr.opcode])
theorem freqLoad (sym : Sym) : Statement (.freqLoad sym) := of_format_s rfl (by simp [decode, Instr.opcode])
theorem buildTree : Statement .buildTree := of_format_n rfl (by simp [decode, Instr.opcode])
theorem deriveCodes : Statement .deriveCodes := of_format_n rfl (by simp [decode, Instr.opcode])
theorem encSym (sym : Sym) : Statement (.encSym sym) := of_format_s rfl (by simp [decode, Instr.opcode])
theorem decBit (bit : Bool) : Statement (.decBit bit) := of_format_b rfl (by simp [decode, Instr.opcode])
theorem decEnd : Statement .decEnd := of_format_n rfl (by simp [decode, Instr.opcode])

end Sys2Proof.Laws.RoundTrip
end

