-- ==== Sys2Proof/Tests/Slice0.lean ====
section
/-! SUPPORT. Small tests of one step each, with the values of spec/95_test_vectors.md, and for every obligation with
hypotheses a concrete case that meets them all. -/

namespace Sys2Proof.Tests

open Sys2Proof.Machine

set_option Elab.async false

/-! ## WellFormed refuses an ill-formed term for each of its checks (30_encoding.md R64) -/

theorem test_wf_tabSym : AsmItem.wellFormed (.tabSym 256) = false ∧ AsmItem.wellFormed (.tabSym 255) = true := by decide
theorem test_wf_freqLoad : AsmItem.wellFormed (.freqLoad 256) = false ∧ AsmItem.wellFormed (.freqLoad 255) = true := by
  decide
theorem test_wf_encSym : AsmItem.wellFormed (.encSym 256) = false ∧ AsmItem.wellFormed (.encSym 255) = true := by decide
theorem test_wf_decBit : AsmItem.wellFormed (.decBit 2) = false ∧ AsmItem.wellFormed (.decBit 1) = true := by decide
theorem test_wf_wr_addr : AsmItem.wellFormed (.wr 0x4000 0) = false ∧ AsmItem.wellFormed (.wr 0x3FFF 0) = true := by
  decide
theorem test_wf_wr_value : AsmItem.wellFormed (.wr 0 0x100000000) = false ∧ AsmItem.wellFormed (.wr 0 0xFFFFFFFF) = true := by
  decide
theorem test_wf_rd : AsmItem.wellFormed (.rd 0x4000) = false ∧ AsmItem.wellFormed (.rd 0x3FFF) = true := by decide

/-! ## Decoding: each constructor's word written out from 30_encoding.md R58 and R60 -/

theorem test_decode_nop : decode 0b00000000_00000000_00000000_00000000#32 = .ok .nop := rfl
theorem test_decode_clear : decode 0b00000001_00000000_00000000_00000000#32 = .ok .clear := rfl
theorem test_decode_tabSym : decode 0b00000010_00000000_00000000_01100001#32 = .ok (.tabSym 0x61#8) := rfl
theorem test_decode_freqLoad : decode 0b00000011_00000000_00000000_11111111#32 = .ok (.freqLoad 0xFF#8) := rfl
theorem test_decode_buildTree : decode 0b00000100_00000000_00000000_00000000#32 = .ok .buildTree := rfl
theorem test_decode_deriveCodes : decode 0b00000101_00000000_00000000_00000000#32 = .ok .deriveCodes := rfl
theorem test_decode_encSym : decode 0b00000110_00000000_00000000_10000000#32 = .ok (.encSym 0x80#8) := rfl
theorem test_decode_decBit : decode 0b00000111_00000000_00000000_00000000#32 = .ok (.decBit false) ∧
    decode 0b00000111_00000000_00000000_00000001#32 = .ok (.decBit true) := ⟨rfl, rfl⟩
theorem test_decode_decEnd : decode 0b00001000_00000000_00000000_00000000#32 = .ok .decEnd := rfl

/-- V-ER1, V-ER2, V-C6, V-C8, V-TA12, V-DE11, V-TB12: no command, each rejected by its name (30_encoding.md R61). -/
theorem test_decode_illegal :
    decode 0x09000000#32 = .error .reservedOpcode ∧ decode 0xFF000000#32 = .error .reservedOpcode ∧
      decode 0x00000001#32 = .error .reservedField ∧ decode 0x01000001#32 = .error .reservedField ∧
      decode 0x02000161#32 = .error .reservedField ∧ decode 0x07000002#32 = .error .reservedField ∧
      decode 0x04000001#32 = .error .reservedField := ⟨rfl, rfl, rfl, rfl, rfl, rfl, rfl⟩

theorem test_decodeTableWord : decodeTableWord 32 0x06000063 = some (.encSym 0x63#8) ∧
    decodeTableWord 32 0x09000000 = none := by decide

/-! ## Small states -/

/-- The state an outcome goes on with. -/
def after : Result → State
  | .next s => s
  | _ => State.reset

def isNext : Result → Bool
  | .next _ => true
  | _ => false

theorem next_of_isNext {r : Result} (h : isNext r = true) : r = .next (after r) := by
  cases r <;> first | rfl | cases h

/-- Reset, with some counts. -/
def counts (es : List (Sym × Word)) : State :=
  { State.reset with freq := es.foldl (fun f e => symSet f e.1 e.2) State.reset.freq }

/-- What BUILD_TREE makes of a table. -/
def builtOf (s : State) : State := { s.setTree (buildTree s.freq) with decPtr := (buildTree s.freq).root, phase := .tree }

/-- What DERIVE_CODES makes of it. -/
def codedOf (s : State) : State :=
  { (builtOf s).setCodes ((deriveCodes (buildTree s.freq)).getD CodeTable.zero) with phase := .coded }

/-- The table of V-TB1. -/
def table1 : State := counts [(0x61#8, 3#32), (0x62#8, 2#32), (0x63#8, 1#32)]
def tree1 : State := builtOf table1
def coded1 : State := codedOf table1
/-- The decoder one branch down (V-DE2). -/
def down1 : State := { tree1 with decPtr := 256#9 }
/-- Two symbols (V-TB9): the smallest table with an internal node. -/
def table9 : State := counts [(0x00#8, 1#32), (0xFF#8, 2#32)]
def tree9 : State := builtOf table9
def coded9 : State := codedOf table9
/-- One symbol (V-TB4). -/
def table4 : State := counts [(0x7A#8, 4#32)]
def tree4 : State := builtOf table4
def coded4 : State := codedOf table4
/-- No symbol (V-TB5). -/
def table5 : State := counts []
def tree5 : State := builtOf table5
def coded5 : State := codedOf table5
/-- The table full to `2^32 - 1` (V-TA6). -/
def full : State := { counts [(0x61#8, 0xFFFFFFFF#32)] with arg := 0xFFFFFFFF#32 }
/-- One below full. -/
def almostFull : State := { counts [(0x61#8, 0xFFFFFFFE#32)] with arg := 1#32 }
/-- An error is recorded (V-C4). -/
def failed : State := { State.reset with err := .illegalCmd, errcmd := 0x09000000#32 }

theorem fits_empty {s : State} (ho : s.obit = []) (hs : s.osym = []) : s.portsFit = true := by
  simp [portsFit_iff, ho, hs]

theorem inv_counts (es : List (Sym × Word)) (h : (counts es).total ≤ Config.totalMax) : (counts es).Inv where
  totalFits := h
  noTree _ := ⟨rfl, rfl⟩
  builtTree h := absurd rfl h
  noCodes _ := rfl
  derivedCodes h := by cases h
  decPtrNamed := .inl rfl
  errQuiet _ := ⟨rfl, rfl⟩
  obitTakenLe := Nat.le_refl _
  osymTakenLe := Nat.le_refl _
  busyIff := by rw [fits_empty rfl rfl]; rfl
  rstHolds h := by cases h

theorem inv_built (es : List (Sym × Word)) (h : (counts es).total ≤ Config.totalMax) : (builtOf (counts es)).Inv where
  totalFits := h
  noTree h := by cases h
  builtTree _ := rfl
  noCodes _ := rfl
  derivedCodes h := by cases h
  decPtrNamed := .inl rfl
  errQuiet _ := ⟨rfl, rfl⟩
  obitTakenLe := Nat.le_refl _
  osymTakenLe := Nat.le_refl _
  busyIff := by rw [fits_empty rfl rfl]; rfl
  rstHolds h := by cases h

theorem inv_coded (es : List (Sym × Word)) (h : (counts es).total ≤ Config.totalMax) : (codedOf (counts es)).Inv := by
  obtain ⟨c, hc⟩ := deriveCodes_buildTree_isSome (counts es).freq
  have e : (codedOf (counts es)).codes = c := by rw [codedOf, hc]; rfl
  exact {
    totalFits := h
    noTree := fun h => by cases h
    builtTree := fun _ => rfl
    noCodes := fun h => absurd rfl h
    derivedCodes := fun _ => by rw [e]; exact hc
    decPtrNamed := .inl rfl
    errQuiet := fun _ => ⟨rfl, rfl⟩
    obitTakenLe := Nat.le_refl _
    osymTakenLe := Nat.le_refl _
    busyIff := by rw [fits_empty rfl rfl]; rfl
    rstHolds := fun h => by cases h }

theorem present1 : presentSyms table1.freq = [0x61#8, 0x62#8, 0x63#8] := by decide +kernel
theorem present9 : presentSyms table9.freq = [0x00#8, 0xFF#8] := by decide +kernel
theorem present4 : presentSyms table4.freq = [0x7A#8] := by decide +kernel
theorem present5 : presentSyms table5.freq = [] := presentSyms_zero
theorem present_full : presentSyms full.freq = [0x61#8] := by decide +kernel
theorem present_almost : presentSyms almostFull.freq = [0x61#8] := by decide +kernel

theorem total1 : table1.total = 6 := by rw [State.total, totalOf_eq_present, present1]; decide +kernel
theorem total9 : table9.total = 3 := by rw [State.total, totalOf_eq_present, present9]; decide +kernel
theorem total4 : table4.total = 4 := by rw [State.total, totalOf_eq_present, present4]; decide +kernel
theorem total5 : table5.total = 0 := totalOf_zero
theorem total_full : full.total = 2 ^ 32 - 1 := by rw [State.total, totalOf_eq_present, present_full]; decide +kernel
theorem total_almost : almostFull.total = 2 ^ 32 - 2 := by
  rw [State.total, totalOf_eq_present, present_almost]; decide +kernel

theorem inv_table1 : table1.Inv := inv_counts _ (total1.trans_le (by decide))
theorem inv_tree1 : tree1.Inv := inv_built _ (total1.trans_le (by decide))
theorem inv_coded1 : coded1.Inv := inv_coded _ (total1.trans_le (by decide))
theorem inv_tree9 : tree9.Inv := inv_built _ (total9.trans_le (by decide))
theorem inv_coded9 : coded9.Inv := inv_coded _ (total9.trans_le (by decide))
theorem inv_tree4 : tree4.Inv := inv_built _ (total4.trans_le (by decide))
theorem inv_coded4 : coded4.Inv := inv_coded _ (total4.trans_le (by decide))
theorem inv_tree5 : tree5.Inv := inv_built _ (total5.trans_le (by decide))
theorem inv_coded5 : coded5.Inv := inv_coded _ (total5.trans_le (by decide))

/-! ## One step of each command (spec/95_test_vectors.md) -/

/-- V-C3: NOP changes nothing while an error is recorded. -/
theorem test_nop : (after (exec .nop failed)).err = .illegalCmd ∧ isNext (exec .nop failed) = true := by decide +kernel

/-- V-C4: CLEAR leaves the error. -/
theorem test_clear_error : memRead (after (exec .clear failed)) 0x0004#14 = 0x8#32 ∧
    (after (exec .clear failed)).errcmd = 0#32 := by decide +kernel

/-- V-C5: CLEAR keeps ARG. -/
theorem test_clear_arg : (after (exec .clear { table1 with arg := 0xDEADBEEF#32 })).arg = 0xDEADBEEF#32 := by decide +kernel

/-- V-TA10, its third command: TAB_SYM counts on from a loaded count. -/
theorem test_tabSym : (after (exec (.tabSym 0x62#8) (counts [(0x61#8, 1#32), (0x62#8, 5#32)]))).freqAt 0x62#8 = 6#32 := by
  decide +kernel

/-- V-TA7: COUNT_OVERFLOW. -/
theorem test_tabSym_overflow :
    (after (exec (.tabSym 0x62#8) full)).err = .countOverflow ∧ (after (exec (.tabSym 0x62#8) full)).errcmd = 0x02000062#32 ∧
      (after (exec (.tabSym 0x62#8) full)).errarg = 0xFFFFFFFF#32 := by decide +kernel

/-- V-TA3: FREQ_LOAD stores ARG. -/
theorem test_freqLoad : (after (exec (.freqLoad 0x61#8) { State.reset with arg := 3#32 })).freqAt 0x61#8 = 3#32 := by
  decide +kernel

/-- V-TA9: DUPLICATE comes before COUNT_OVERFLOW. -/
theorem test_freqLoad_order : (after (exec (.freqLoad 0x61#8) full)).err = .duplicate := by decide +kernel

/-- V-TB1: links, root and STATUS of the built tree. -/
theorem test_buildTree : memRead (after (exec .buildTree table1)) 0x3000#14 = 0x00620063#32 ∧
    memRead (after (exec .buildTree table1)) 0x3008#14 = 0x01000061#32 ∧
    (after (exec .buildTree table1)).root = 257#9 ∧ memRead (after (exec .buildTree table1)) 0x0004#14 = 0x9#32 := by
  decide +kernel

/-- V-TB6: ties go to leaves first, and the merged node is the right child. -/
theorem test_buildTree_ties :
    memRead (after (exec .buildTree (counts [(0x30#8, 1#32), (0x31#8, 1#32), (0x32#8, 2#32), (0x33#8, 3#32),
      (0x34#8, 5#32), (0x35#8, 8#32)]))) 0x3020#14 = 0x01030035#32 := by decide +kernel

/-- V-CD1: the codes, through the bus. -/
theorem test_deriveCodes : memRead (after (exec .deriveCodes tree1)) 0x1C60#14 = 1#32 ∧
    memRead (after (exec .deriveCodes tree1)) 0x1C40#14 = 3#32 ∧
    memRead (after (exec .deriveCodes tree1)) 0x0984#14 = 1#32 ∧ memRead (after (exec .deriveCodes tree1)) 0x0004#14 = 0xA#32 := by decide +kernel

/-- V-CD6: the degenerate tree. -/
theorem test_deriveCodes_leaf : (after (exec .deriveCodes tree4)).code 0x7A#8 = [false] ∧
    memRead (after (exec .deriveCodes tree4)) 0x0004#14 = 0x2A#32 := by decide +kernel

/-- V-EN2: the root's branch is emitted first. -/
theorem test_encSym : (after (exec (.encSym 0x63#8) coded1)).obit = [true, false] ∧
    (after (exec (.encSym 0x63#8) coded1)).encBitcnt = 2#64 := by decide +kernel

/-- V-EN4: MISSING_CODE. -/
theorem test_encSym_missing : (after (exec (.encSym 0x64#8) coded1)).err = .missingCode ∧
    (after (exec (.encSym 0x64#8) coded1)).errcmd = 0x06000064#32 ∧ (after (exec (.encSym 0x64#8) coded1)).obit = [] := by
  decide +kernel

/-- V-DE2 and V-DE3: down one branch, then the symbol and back to the root. -/
theorem test_decBit : (after (exec (.decBit true) tree1)).decPtr = 256#9 ∧ (after (exec (.decBit true) tree1)).osym = [] ∧
    (after (exec (.decBit false) down1)).osym = [0x63#8] ∧
    (after (exec (.decBit false) down1)).decPtr = 257#9 := by decide +kernel

/-- V-DE7 and V-DE8: the leaf root on a 1 bit, and the empty tree. -/
theorem test_decBit_corners : (after (exec (.decBit true) tree4)).osym = [0x7A#8] ∧
    (after (exec (.decBit false) tree5)).err = .emptyTree ∧
    memRead (after (exec (.decBit false) tree5)) 0x0004#14 = 0x1D#32 := by decide +kernel

/-- V-DE5: TRUNCATED. -/
theorem test_decEnd : (after (exec .decEnd down1)).err = .truncated ∧ (after (exec .decEnd down1)).decPtr = 256#9 ∧
    memRead (after (exec .decEnd down1)) 0x0004#14 = 0x5#32 := by decide +kernel

/-- V-DE9: no error on the empty tree. -/
theorem test_decEnd_empty : (after (exec .decEnd tree5)).err = .none := by decide +kernel

/-! ## Steps, the bus and the ports -/

/-- V-BU5: a misaligned read gets a bus error. -/
theorem test_bus_misaligned :
    (after (step { State.reset with requests := [readReq 0x0002#14] })).responses = [⟨0#32, true⟩] := by decide +kernel

/-- V-BU6: a byte write to CMD gets a bus error and issues no command. -/
theorem test_bus_bytes :
    (after (step { State.reset with requests := [⟨true, 0x0014#14, 0x02000061#32, 0x1#4⟩] })).responses = [⟨0#32, true⟩] ∧
      (after (step { State.reset with requests := [⟨true, 0x0014#14, 0x02000061#32, 0x1#4⟩] })).freqAt 0x61#8 = 0#32 := by
  decide +kernel

/-- V-BU8: reserved words read 0. -/
theorem test_bus_reserved : memRead full 0x0038#14 = 0#32 ∧ memRead full 0x0C00#14 = 0#32 ∧ memRead full 0x37F8#14 = 0#32 ∧
    memRead full 0x3FFC#14 = 0#32 := by decide +kernel

/-- A step runs the word placed for it, and answers the write (20_memory.md R51). -/
theorem test_step_withFetchWord : (after (step (State.reset.withFetchWord 32 0x02000061))).freqAt 0x61#8 = 1#32 ∧
    (after (step (State.reset.withFetchWord 32 0x02000061))).responses = [⟨0#32, false⟩] := by decide +kernel

/-- V-RS1: reset clears ARG. -/
theorem test_reset : (after (step { table1 with arg := 5#32, turns := [.assertReset] })).arg = 0#32 ∧
    (after (step { table1 with arg := 5#32, turns := [.assertReset] })).freqAt 0x61#8 = 0#32 := by decide +kernel

/-- 70_reset_and_hazards.md R114, U4: a 1-bit ENC_SYM cut short after its bit was taken and before it was answered; the bit
stays taken. -/
theorem test_reset_cut :
    (State.cutByReset 1 0 { coded4 with requests := [writeReq 0x0014#14 0x0600007A#32] }).obitGot = [false] ∧
      (State.cutByReset 1 0 { coded4 with requests := [writeReq 0x0014#14 0x0600007A#32] }).archReset := by
  refine ⟨?_, (cutByReset_isUnderReset _ _ _).archReset⟩
  have h : State.cutByReset 1 0 { coded4 with requests := [writeReq 0x0014#14 0x0600007A#32] } =
      (State.inExecution (writeReq 0x0014#14 0x0600007A#32) { coded4 with requests := [] }).abandon 1 0 := rfl
  rw [h, abandon_obitGot]
  decide +kernel

/-- The ERR codes of 60_exceptions.md R98. -/
theorem test_err_codes :
    [ErrCode.none, .illegalCmd, .phaseErr, .countOverflow, .badCount, .duplicate, .missingCode, .truncated, .emptyTree].map
      (fun e => memRead { State.reset with err := e } 0x0008#14)
      = [0#32, 1#32, 2#32, 3#32, 4#32, 5#32, 6#32, 7#32, 8#32] := by decide +kernel

/-! ## The persisted text and the assembler -/

/-- V-PF1: the 30 bytes. -/
theorem test_persist : persist table1 =
    [0x31#8, 0x31#8, 0x30#8, 0x30#8, 0x30#8, 0x30#8, 0x31#8, 0x3A#8, 0x33#8, 0x0A#8,
      0x31#8, 0x31#8, 0x30#8, 0x30#8, 0x30#8, 0x31#8, 0x30#8, 0x3A#8, 0x32#8, 0x0A#8] ++
    [0x31#8, 0x31#8, 0x30#8, 0x30#8, 0x30#8, 0x31#8, 0x31#8, 0x3A#8, 0x31#8, 0x0A#8] := by decide +kernel

/-- The bytes of characters below 256. -/
def bytes (cs : List Char) : List Byte := cs.map (fun c => BitVec.ofNat 8 c.toNat)

/-- V-PF2, V-PF13: any width of symbol and count; CR LF. -/
theorem test_parse : parseTable (bytes ['0', '1', '1', '0', '0', '0', '0', '1', ':', '0', '0', '3', '\r', '\n', '0', ':', '5'])
    = ⟨[(0x61#8, 3#32), (0x00#8, 5#32)], none⟩ := by decide +kernel

/-- V-PF3, V-PF4, V-PF5, V-PF9, V-PF15: format errors. -/
theorem test_parse_errors :
    (parseTable (bytes ['1', ':', '0'])).error = some .zeroCount ∧
      (parseTable (bytes ['2', ':', '1'])).error = some .badSymbol ∧
      (parseTable (bytes ['1', '0', '0', '0', '0', '0', '0', '0', '0', ':', '1'])).error = some .symbolTooLarge ∧
      (parseTable (bytes ['1', ' ', ':', '3'])).error = some .badSymbol ∧
      (parseTable (bytes ['1', ':', '3', ':', '1'])).error = some .extraDelimiter := by decide +kernel

/-- P3 line 2 and P1 line 17, with a label and a comment (30_encoding.md R64, R65). -/
theorem test_assemble :
    assembleLine ['t', 'a', 'b', '_', 's', 't', 'r', ' ', '"', 'z', 'z', '"'] =
      some [writeReq 0x0014#14 0x0200007A#32, writeReq 0x0014#14 0x0200007A#32] ∧
    assembleLine ['x', ':', ' ', 'R', 'D', ' ', 'E', 'R', 'R', ' ', '-', '>', ' ', 'e', ' ', ';', 'c'] =
      some [readReq 0x0008#14] := by decide +kernel

/-- P2 line 2, and an operand out of range (30_encoding.md R64, R65). -/
theorem test_assemble_load :
    assembleLine ['L', 'O', 'A', 'D', ' ', '\'', 'c', '\'', ',', ' ', '1'] =
      some [writeReq 0x0018#14 1#32, writeReq 0x0014#14 0x03000063#32] ∧
    assembleLine ['T', 'A', 'B', '_', 'S', 'Y', 'M', ' ', '2', '5', '6'] = none := by decide +kernel

/-! ## The host's procedures -/

/-- Each bit in a byte of its own: a `PACK` that delivers exactly the bits. -/
def bitPerByte : Pack := ⟨List.map (fun b => if b then 1#8 else 0#8), List.map (fun c => c == 1#8)⟩

/-- How an operation ended, with what it persisted and the phase it left. -/
def ending : HostOutcome → Option (Option HostAbort × Option (List Byte) × Phase)
  | .done r => some (none, r.table, r.s.phase)
  | .aborted e r => some (some e, r.table, r.s.phase)
  | .stopped _ => none

/-- 46_host_interface.md R95: pass 2 reads a byte that pass 1 did not; the table `1111010:1` is already persisted. -/
theorem test_encode_missing : ending (hostEncode bitPerByte [0x7A#8] [0x61#8] none table5) =
    some (some (.coreError 6#32), some (bytes ['1', '1', '1', '1', '0', '1', '0', ':', '1', '\n']), .coded) := by decide +kernel

/-- 92_eei_decisions.md D30: an I/O failure before DERIVE_CODES; the host issues CLEAR. -/
theorem test_encode_io : ending (hostEncode bitPerByte [0x7A#8] [0x7A#8] (some 5) table5) =
    some (some .ioFailure, some (bytes ['1', '1', '1', '1', '0', '1', '0', ':', '1', '\n']), .collect) := by decide +kernel

/-- V-PF3 in 46_host_interface.md R96: a format error ends decode before BUILD_TREE. -/
theorem test_decode_format : ending (hostDecode bitPerByte [] (bytes ['1', ':', '0']) none table5) =
    some (some (.format .zeroCount), none, .collect) := by decide +kernel

/-! ## For every obligation with hypotheses, a case that meets them all -/

theorem witness_DecodeInvertsEncode : Instr.wellFormed (.encSym 0xFF#8) = true ∧ decode 0x060000FF#32 = .ok (.encSym 0xFF#8) :=
  ⟨rfl, rfl⟩

theorem witness_OpcodeMapDecides :
    (⟨0x06, 0x06000000#32, 0xFFFFFF00#32⟩ : OpcodeRow) ∈ opcodeTable ∧
      OpcodeRow.holds ⟨0x06, 0x06000000#32, 0xFFFFFF00#32⟩ 0x060000FF#32 = true ∧
      decode 0x020000FF#32 = .ok (.tabSym 0xFF#8) ∧ decode 0x030000FF#32 = .ok (.freqLoad 0xFF#8) ∧
      decode 0x060000FF#32 = .ok (.encSym 0xFF#8) ∧ decode 0x07000001#32 = .ok (.decBit true) :=
  ⟨by decide, by decide, rfl, rfl, rfl, rfl⟩

theorem witness_IllegalWordsTrapOrAreDiscarded :
    (0x09 ≤ ((0x09000000#32 : Word) >>> 24).toNat) ∧ (0x09 ≤ ((0xFFFFFFFF#32 : Word) >>> 24).toNat) ∧
      ((0x08000001#32 : Word) >>> 24).toNat ≤ 0x08 ∧ (∀ r ∈ opcodeTable, r.holds 0x08000001#32 = false) ∧
      (∀ r ∈ opcodeTable, r.holds 0x07000002#32 = false) ∧ decode 0x08000001#32 = .error .reservedField ∧
      State.reset.err = .none ∧ failed.err ≠ .none :=
  ⟨by decide, by decide, by decide, by decide, by decide, rfl, rfl, by decide⟩

theorem witness_IssueFollowsDispatchOrder :
    failed.err ≠ .none ∧ State.reset.err = .none ∧ decode 0x09000000#32 = .error .reservedOpcode ∧
      decode 0x05000000#32 = .ok .deriveCodes ∧ legalIn .deriveCodes State.reset.phase = false ∧
      decode 0x04000000#32 = .ok .buildTree ∧ legalIn .buildTree State.reset.phase = true :=
  ⟨by decide, rfl, rfl, rfl, rfl, rfl, rfl⟩

theorem witness_PhaseLegality :
    State.reset.err = .none ∧ legalIn .deriveCodes State.reset.phase = false ∧ legalIn .buildTree table5.phase = true ∧
      exec .buildTree table5 = .next tree5 := ⟨rfl, rfl, rfl, exec_buildTree_run rfl rfl⟩

theorem witness_ErrorCaptureIsPrecise :
    issue 0x09000000#32 State.reset = .next failed ∧ failed.err ≠ State.reset.err ∧ failed.err ≠ .none ∧
      (0x02000061#32 : Word) ≠ 0x00000000#32 ∧ (0x02000061#32 : Word) ≠ 0x01000000#32 :=
  ⟨rfl, by decide, by decide, by decide, by decide⟩

theorem witness_FirstErrorInOrder :
    State.reset.err = .none ∧ decode 0x09000001#32 = .error .reservedOpcode ∧ decode 0x05000000#32 = .ok .deriveCodes ∧
      legalIn .deriveCodes State.reset.phase = false ∧ decode 0x03000061#32 = .ok (.freqLoad 0x61#8) ∧
      State.reset.phase = .collect ∧ State.reset.arg = 0#32 ∧ full.err = .none ∧ full.phase = .collect ∧ full.arg ≠ 0#32 ∧
      full.freqAt 0x61#8 ≠ 0#32 := ⟨rfl, rfl, rfl, rfl, rfl, rfl, rfl, rfl, rfl, by decide, by decide +kernel⟩

/-- The last clause at its boundary: one count more than fits. -/
theorem witness_FirstErrorInOrder_overflow :
    decode 0x03000062#32 = .ok (.freqLoad 0x62#8) ∧ ({ full with arg := 1#32 } : State).freqAt 0x62#8 = 0#32 ∧
      2 ^ 32 - 1 < ({ full with arg := 1#32 } : State).total + (1#32 : Word).toNat := by
  refine ⟨rfl, by decide +kernel, ?_⟩
  have : ({ full with arg := 1#32 } : State).total = 2 ^ 32 - 1 := total_full
  rw [this]
  decide

/-- The clauses of `followsItsFormat`, for each format: the lowest and the highest reserved bit, a phase that is not legal, and
a recorded error. -/
theorem witness_followsItsFormat :
    ((0x02000161#32 : Word) >>> 24 = (0x02000061#32 : Word) >>> 24) ∧ (0x02000161#32 : Word) &&& 0x00FFFF00#32 ≠ 0#32 ∧
      (0x02800061#32 : Word) &&& 0x00FFFF00#32 ≠ 0#32 ∧ (0x07000002#32 : Word) &&& 0x00FFFFFE#32 ≠ 0#32 ∧
      (0x04000001#32 : Word) &&& 0x00FFFFFF#32 ≠ 0#32 ∧ State.reset.err = .none ∧ tree5.err = .none ∧
      tree5.phase ∉ [Phase.collect] ∧ tree5.phase ∉ [Phase.coded] ∧ State.reset.phase ∉ [Phase.tree] ∧
      State.reset.phase ∉ [Phase.tree, Phase.coded] ∧ failed.err ≠ .none :=
  ⟨by decide, by decide, by decide, by decide, by decide, rfl, rfl, by decide, by decide, by decide, by decide, by decide⟩

theorem witness_NopChangesNothing :
    decode 0x00000000#32 = .ok .nop ∧ (0x00000001#32 : Word) >>> 24 = 0x00#32 ∧ (0x00000001#32 : Word) ≠ 0x00000000#32 ∧
      State.reset.err = .none := ⟨rfl, by decide, by decide, rfl⟩

theorem witness_ClearStartsNewSession :
    decode 0x01000000#32 = .ok .clear ∧ failed.err ≠ .none ∧ issue 0x01000000#32 failed = .next State.reset ∧
      State.reset.err = .none := ⟨rfl, by decide, rfl, rfl⟩

theorem witness_FirstErrorInOrder_sticky : failed.err ≠ .none ∧ issue 0x02000061#32 failed = .next failed :=
  ⟨by decide, rfl⟩

theorem witness_ClearedWindowReadsAsAfterReset :
    exec .clear table1 = .next table1.cleared ∧ regAt 0x0584#14 ≠ .arg ∧ regAt 0x3FFC#14 ≠ .arg :=
  ⟨rfl, by decide +kernel, by decide +kernel⟩

theorem witness_TabSymCountsOneSymbol :
    almostFull.err = .none ∧ almostFull.phase = .collect ∧ almostFull.total < 2 ^ 32 - 1 ∧ full.err = .none ∧
      full.phase = .collect ∧ 2 ^ 32 - 1 ≤ full.total :=
  ⟨rfl, rfl, total_almost.trans_lt (by decide), rfl, rfl, total_full.ge⟩

/-- The first clause at its boundary, and BAD_COUNT and DUPLICATE; COUNT_OVERFLOW's case is
`witness_FirstErrorInOrder_overflow`. -/
theorem witness_FreqLoadStoresArg :
    almostFull.err = .none ∧ almostFull.phase = .collect ∧ almostFull.arg ≠ 0#32 ∧ almostFull.freqAt 0xFF#8 = 0#32 ∧
      almostFull.total + almostFull.arg.toNat ≤ 2 ^ 32 - 1 ∧ table1.arg = 0#32 ∧ almostFull.freqAt 0x61#8 ≠ 0#32 := by
  refine ⟨rfl, rfl, by decide, by decide +kernel, ?_, rfl, by decide +kernel⟩
  rw [total_almost]
  decide

theorem witness_TabulatorCountsTheStream :
    table5.err = .none ∧ table5.phase = .collect ∧ table5.freq = Vector.replicate 256 0#32 ∧
      [0x00#8, 0xFF#8, 0xFF#8].length ≤ 2 ^ 32 - 1 ∧ full.err = .none ∧ full.phase = .collect ∧
      full.total = 2 ^ 32 - 1 := ⟨rfl, rfl, rfl, by decide, rfl, rfl, total_full⟩

/-- Two lines that load. -/
theorem loads_in_order : isNext (hostLoad [(0x61#8, 3#32), (0x62#8, 2#32)] table5) = true ∧
    (after (hostLoad [(0x61#8, 3#32), (0x62#8, 2#32)] table5)).err = .none := by decide +kernel

theorem witness_FreqLoadOrderDoesNotMatter :
    [(0x61#8, 3#32), (0x62#8, 2#32)].Perm [(0x62#8, 2#32), ((0x61#8 : Sym), (3#32 : Word))] ∧ table5.err = .none ∧
      isNext (hostLoad [(0x61#8, 3#32), (0x62#8, 2#32)] table5) = true ∧
      (after (hostLoad [(0x61#8, 3#32), (0x62#8, 2#32)] table5)).err = .none :=
  ⟨List.Perm.swap _ _ _, rfl, loads_in_order.1, loads_in_order.2⟩

theorem witness_MergeTakesTheTwoSmallestKeys :
    ([⟨2, 0x78⟩, ⟨2, 256⟩].map QNode.id).Nodup ∧ 2 ≤ [QNode.mk 2 0x78, QNode.mk 2 256].length ∧
      (QNode.mk 2 0x78).id ≠ (QNode.mk 2 256).id := by decide

theorem witness_BuildTreeBuildsFromTheTable :
    table5.err = .none ∧ table5.phase = .collect ∧ table5.nsym = 0 ∧ table4.nsym = 1 ∧ table9.nsym = 2 ∧
      table9.total ≤ 2 ^ 32 - 1 ∧ (0 : Fin 255).val < tree9.nint.toNat ∧ tree9.nint.toNat ≤ (1 : Fin 255).val := by
  have h : tree9.nint.toNat = 1 := (buildTree_nint _).trans (by rw [present9]; rfl)
  exact ⟨rfl, rfl, by rw [State.nsym, present5]; rfl, by rw [State.nsym, present4]; rfl, by rw [State.nsym, present9]; rfl,
    total9.trans_le (by decide), by rw [h]; decide, by rw [h]; decide⟩

theorem witness_BuiltTreeIsAStrictBinaryTree :
    table9.err = .none ∧ table9.phase = .collect ∧ table9.total ≤ 2 ^ 32 - 1 ∧ exec .buildTree table9 = .next tree9 ∧
      2 ≤ table9.nsym ∧ (0 : Fin 255).val < tree9.nint.toNat ∧ table4.nsym = 1 ∧ table4.total ≤ 2 ^ 32 - 1 ∧
      exec .buildTree table4 = .next tree4 := by
  have h : tree9.nint.toNat = 1 := (buildTree_nint _).trans (by rw [present9]; rfl)
  exact ⟨rfl, rfl, total9.trans_le (by decide), exec_buildTree_run rfl rfl, by rw [State.nsym, present9]; decide,
    by rw [h]; decide, by rw [State.nsym, present4]; rfl, total4.trans_le (by decide), exec_buildTree_run rfl rfl⟩

theorem builtOf_root (s : State) : (builtOf s).root = rootOf (presentSyms s.freq) := rfl

theorem builtOf_decPtr (s : State) : (builtOf s).decPtr = (builtOf s).root := rfl

theorem root1 : tree1.root = 257#9 := by rw [tree1, builtOf_root, present1]; decide +kernel
theorem root9 : tree9.root = 256#9 := by rw [tree9, builtOf_root, present9]; decide +kernel
theorem root4 : tree4.root = 0x7A#9 := by rw [tree4, builtOf_root, present4]; decide +kernel
theorem root5 : tree5.root = 511#9 := by rw [tree5, builtOf_root, present5]; decide +kernel

theorem witness_DeriveCodesRecordsThePaths :
    tree5.Inv ∧ tree5.err = .none ∧ tree5.phase = .tree ∧ tree5.root = 511#9 ∧ tree4.Inv ∧ isLeaf tree4.root = true ∧
      tree9.Inv ∧ isInternal tree9.root = true ∧ tree9.freqAt 0xFF#8 ≠ 0#32 ∧ tree9.freqAt 0xFE#8 = 0#32 :=
  ⟨inv_tree5, rfl, rfl, root5, inv_tree4, by rw [root4]; decide, inv_tree9, by rw [root9]; decide, by decide +kernel,
    by decide +kernel⟩

theorem nsym_coded9 : coded9.nsym = 2 := by show (presentSyms table9.freq).length = 2; rw [present9]; rfl
theorem nsym_coded4 : coded4.nsym = 1 := by show (presentSyms table4.freq).length = 1; rw [present4]; rfl
theorem nsym_coded5 : coded5.nsym = 0 := by show (presentSyms table5.freq).length = 0; rw [present5]; rfl

theorem witness_CodeTableIsPrefixFree :
    coded9.Inv ∧ coded9.phase = .coded ∧ coded9.freqAt 0x00#8 ≠ 0#32 ∧ coded9.freqAt 0xFF#8 ≠ 0#32 ∧
      coded9.code 0x00#8 <+: coded9.code 0x00#8 ∧ coded4.Inv ∧ coded4.phase = .coded ∧ coded4.nsym = 1 ∧
      coded4.freqAt 0x7A#8 ≠ 0#32 :=
  ⟨inv_coded9, rfl, by decide +kernel, by decide +kernel, List.prefix_refl _, inv_coded4, rfl, nsym_coded4,
    by decide +kernel⟩

theorem witness_CodeLengthsMeetKraftEquality :
    coded9.Inv ∧ coded9.phase = .coded ∧ 2 ≤ coded9.nsym ∧ coded4.Inv ∧ coded4.phase = .coded ∧ coded4.nsym = 1 ∧
      coded5.Inv ∧ coded5.phase = .coded ∧ coded5.nsym = 0 :=
  ⟨inv_coded9, rfl, nsym_coded9.ge, inv_coded4, rfl, nsym_coded4, inv_coded5, rfl, nsym_coded5⟩

/-- A symbol with a code and one without. -/
theorem code_lengths4 : symGet coded4.codeLen 0x7A#8 = 1#8 ∧ symGet coded4.codeLen 0x7B#8 = 0#8 := by decide +kernel

theorem witness_EncSymEmitsTheCode :
    coded4.err = .none ∧ coded4.phase = .coded ∧ symGet coded4.codeLen 0x7A#8 ≠ 0#8 ∧ symGet coded4.codeLen 0x7B#8 = 0#8 :=
  ⟨rfl, rfl, by rw [code_lengths4.1]; decide, code_lengths4.2⟩

theorem witness_EncoderConcatenatesTheCodes :
    coded4.err = .none ∧ coded4.phase = .coded ∧ ∀ x ∈ [0x7A#8, 0x7A#8], symGet coded4.codeLen x ≠ 0#8 :=
  ⟨rfl, rfl, by intro x hx; simp at hx; rw [hx, code_lengths4.1]; decide⟩

/-- All three roots; from the root of V-TB1 a 0 bit reaches a leaf and a 1 bit an internal node. -/
theorem witness_DecBitWalksOneBranch :
    tree5.err = .none ∧ tree5.phase ≠ .collect ∧ tree5.root = 511#9 ∧ isLeaf tree4.root = true ∧
      isInternal tree1.root = true ∧ tree1.decPtr = internalId (1 : Fin 255) ∧
      isLeaf (nodeGet tree1.intLeft 1) = true ∧ isLeaf (nodeGet tree1.intRight 1) = false :=
  ⟨rfl, by decide, root5, by rw [root4]; decide, by rw [root1]; decide, root1, by decide +kernel, by decide +kernel⟩

theorem witness_DecBitCompletesInSoundStates :
    tree4.Inv ∧ tree4.err = .none ∧ tree4.phase ≠ .collect ∧ tree4.nsym ≠ 0 := by
  refine ⟨inv_tree4, rfl, by decide, ?_⟩
  show (presentSyms table4.freq).length ≠ 0
  rw [present4]
  decide

theorem witness_DecEndChecksTheRoot :
    tree5.err = .none ∧ tree5.phase ≠ .collect ∧ tree5.decPtr = tree5.root ∧ down1.err = .none ∧ down1.phase ≠ .collect ∧
      down1.decPtr ≠ down1.root ∧ tree4.Inv ∧ tree4.nsym ≤ 1 := by
  refine ⟨rfl, by decide, builtOf_decPtr table5, rfl, by decide, ?_, inv_tree4, nsym_coded4.le⟩
  have h : down1.root = tree1.root := rfl
  rw [h, root1]
  decide

theorem witness_DecoderReproducesTheStream :
    tree4.Inv ∧ tree4.err = .none ∧ tree4.phase ≠ .collect ∧ tree4.decPtr = tree4.root ∧
      deriveCodes tree4.tree = some coded4.codes ∧ ∀ x ∈ [0x7A#8, 0x7A#8], tree4.freqAt x ≠ 0#32 :=
  ⟨inv_tree4, rfl, by decide, rfl, inv_coded4.derivedCodes rfl, by decide +kernel⟩

theorem witness_EncoderAndDecoderDoNotInterfere :
    exec (.encSym 0x7A#8) coded4 = .next (after (exec (.encSym 0x7A#8) coded4)) ∧
      exec (.decBit true) coded4 = .next (after (exec (.decBit true) coded4)) ∧
      execAll [.encSym 0x7A#8, .decBit true] coded4 = .next (after (execAll [.encSym 0x7A#8, .decBit true] coded4)) ∧
      (after (execAll [.encSym 0x7A#8, .decBit true] coded4)).err = .none ∧
      execAll [.decBit true, .encSym 0x7A#8] coded4 = .next (after (execAll [.decBit true, .encSym 0x7A#8] coded4)) ∧
      (after (execAll [.decBit true, .encSym 0x7A#8] coded4)).err = .none :=
  ⟨next_of_isNext (by decide +kernel), next_of_isNext (by decide +kernel), next_of_isNext (by decide +kernel),
    by decide +kernel, next_of_isNext (by decide +kernel), by decide +kernel⟩

theorem witness_CommandsChangeOnlyTheirWords :
    exec .buildTree table5 = .next tree5 ∧ tree5.err = table5.err ∧ ¬ mayChange .buildTree (regAt 0x0400#14) ∧
      exec .deriveCodes table5 = .next (table5.captured .phaseErr 0x05000000#32) ∧
      (table5.captured .phaseErr 0x05000000#32).err ≠ table5.err ∧ regAt 0x0400#14 ≠ .err ∧ regAt 0x0400#14 ≠ .errcmd ∧
      regAt 0x0400#14 ≠ .errarg ∧ regAt 0x0400#14 ≠ .status := by
  have h : regAt 0x0400#14 = .freq 0#8 := by decide +kernel
  refine ⟨exec_buildTree_run rfl rfl, rfl, ?_, rfl, by decide, ?_⟩
  · rw [h]
    simp [mayChange]
  · rw [h]
    decide

theorem witness_StatusBits : table1.phase = .collect ∧ tree1.phase = .tree ∧ coded1.phase = .coded := ⟨rfl, rfl, rfl⟩

/-- Each error code: any state can be given any of them. -/
theorem witness_ControlRegistersRead :
    full.total ≤ 2 ^ 32 - 1 ∧ full.err = .none ∧ ∀ e : ErrCode, ({ full with err := e } : State).err = e :=
  ⟨total_full.le, rfl, fun _ => rfl⟩

theorem witness_ArrayWindowsRead :
    (0x07FC#14 : Addr).toNat = 0x0400 + 4 * (0xFF#8 : Sym).toNat ∧ (0x0BFC#14 : Addr).toNat = 0x0800 + 4 * (0xFF#8 : Sym).toNat ∧
      (0x2FFC#14 : Addr).toNat = 0x1000 + 32 * (0xFF#8 : Sym).toNat + 4 * 7 ∧
      (0x37F0#14 : Addr).toNat = 0x3000 + 8 * (254 : Fin 255).val ∧ (0x37F4#14 : Addr).toNat = 0x3004 + 8 * (254 : Fin 255).val ∧
      table1.Inv ∧ table1.nint.toNat ≤ (0 : Fin 255).val ∧ (0x3000#14 : Addr).toNat = 0x3000 + 8 * (0 : Fin 255).val :=
  ⟨by decide, by decide, by decide, by decide, by decide, inv_table1, by decide, by decide⟩

theorem witness_ReservedWordsReadZeroAndIgnoreWrites :
    (0x0038#14 : Addr).toNat % 4 = 0 ∧ 0x0038 ≤ (0x0038#14 : Addr).toNat ∧ (0x03FC#14 : Addr).toNat ≤ 0x03FC ∧
      0x0C00 ≤ (0x0C00#14 : Addr).toNat ∧ (0x0FFC#14 : Addr).toNat ≤ 0x0FFC ∧ 0x37F8 ≤ (0x37F8#14 : Addr).toNat ∧
      0x37F8 ≤ (0x3FFC#14 : Addr).toNat ∧ (0x0400#14 : Addr) ≠ 0x0014#14 ∧ (0x0400#14 : Addr) ≠ 0x0018#14 := by decide

theorem witness_ReadsHaveNoSideEffect :
    (readReq 0x3FFC#14).write = false ∧ (readReq 0x3FFC#14).be = 0xF#4 ∧ (readReq 0x3FFC#14).addr.toNat % 4 = 0 := by decide

theorem witness_MalformedRequestsAreRefused :
    (BusReq.mk true 0x0014#14 0x02000061#32 0x1#4).be ≠ 0xF#4 ∧ (readReq 0x0002#14).addr.toNat % 4 ≠ 0 := by decide

/-- Both ways in which the host comes to move. -/
theorem witness_StepRunsTheDecodedCommand :
    ({ State.reset with requests := [writeReq 0x0014#14 0x04000000#32], turns := [.host] } : State).rst = false ∧
      ({ State.reset with requests := [writeReq 0x0014#14 0x04000000#32], turns := [.host] } : State).busy = false ∧
      ({ State.reset with requests := [writeReq 0x0014#14 0x04000000#32], turns := [.host] } : State).turns = [.host] ∧
      ({ State.reset with requests := [writeReq 0x0014#14 0x04000000#32] } : State).turns = [] ∧
      decode 0x04000000#32 = .ok .buildTree := ⟨rfl, rfl, rfl, rfl, rfl⟩

/-- One bit more on obit than its buffer has room for: the command waits. -/
def waiting : State :=
  { State.reset with obit := List.replicate (Config.fifoDepth + 1) false, busy := true, turns := [.takeObit] }

/-- One symbol more on osym than its buffer has room for: the command waits. -/
def waitingSym : State :=
  { State.reset with osym := List.replicate (Config.fifoDepth + 1) 0x61#8, busy := true, turns := [.takeOsym] }

theorem waits {s : State} (h : s.portsFit = false) (bs : List Bool) (xs : List Sym) (ts : List Turn)
    (hs : s = { State.reset with obit := bs, osym := xs, busy := true, turns := ts }) : s.Inv where
  totalFits := by subst hs; exact totalOf_zero.trans_le (Nat.zero_le _)
  noTree _ := by subst hs; exact ⟨rfl, rfl⟩
  builtTree h := by subst hs; exact absurd rfl h
  noCodes _ := by subst hs; rfl
  derivedCodes h := by subst hs; cases h
  decPtrNamed := by subst hs; exact .inl rfl
  errQuiet _ := by subst hs; exact ⟨rfl, rfl⟩
  obitTakenLe := by subst hs; exact Nat.zero_le _
  osymTakenLe := by subst hs; exact Nat.zero_le _
  busyIff := by rw [h]; subst hs; rfl
  rstHolds h := by subst hs; cases h

theorem waiting_full : waiting.portsFit = false := by
  rw [Bool.eq_false_iff, Ne, portsFit_iff]
  simp [waiting, State.reset]

theorem waitingSym_full : waitingSym.portsFit = false := by
  rw [Bool.eq_false_iff, Ne, portsFit_iff]
  simp [waitingSym, State.reset]

theorem inv_waiting : waiting.Inv := waits waiting_full _ _ _ rfl
theorem inv_waitingSym : waitingSym.Inv := waits waitingSym_full _ _ _ rfl

theorem witness_EveryRequestIsAnsweredOnce :
    State.reset.busy = false ∧
      accept (readReq 0x0000#14) State.reset = .next (after (accept (readReq 0x0000#14) State.reset)) ∧
      waiting.busy = true ∧ step { waiting with turns := [] } = .next { waiting with turns := [] } :=
  ⟨rfl, next_of_isNext (by decide +kernel), rfl, rfl⟩

theorem witness_WaitingCommandBlocksTheHost :
    ({ waiting with turns := [] } : State).busy = true ∧ ({ waiting with turns := [] } : State).turns = [] ∧
      ({ waiting with turns := [.host] } : State).turns = [.host] := ⟨rfl, rfl, rfl⟩

theorem witness_TakingItemsCompletesTheCommand :
    waiting.Inv ∧ waiting.busy = true ∧ waiting.osym.length ≤ waiting.osymTaken + Config.fifoDepth ∧
      waiting.obit.length = waiting.obitTaken + Config.fifoDepth + 1 ∧
      waiting.turns = List.replicate 1 .takeObit ++ [] :=
  ⟨inv_waiting, rfl, Nat.zero_le _, by simp [waiting, State.reset], rfl⟩

/-- The other port. -/
theorem witness_TakingItemsCompletesTheCommand_osym :
    waitingSym.Inv ∧ waitingSym.busy = true ∧ waitingSym.obit.length ≤ waitingSym.obitTaken + Config.fifoDepth ∧
      waitingSym.osym.length = waitingSym.osymTaken + Config.fifoDepth + 1 ∧
      waitingSym.turns = List.replicate 1 .takeOsym ++ [] :=
  ⟨inv_waitingSym, rfl, Nat.zero_le _, by simp [waitingSym, State.reset], rfl⟩

theorem witness_ConsumersGetEachItemOnceInOrder :
    waiting.obitTaken < waiting.obit.length ∧ waiting.turns = [.takeObit] ∧ waitingSym.osymTaken < waitingSym.osym.length ∧
      waitingSym.turns = [.takeOsym] ∧ ({ waiting with turns := [] } : State).Inv ∧
      step { waiting with turns := [] } = .next { waiting with turns := [] } :=
  ⟨by simp [waiting, State.reset], rfl, by simp [waitingSym, State.reset], rfl, waits waiting_full _ _ _ rfl, rfl⟩

/-- A step that starts each of the three commands that change PHASE or FREQ, or writes ARG. -/
theorem witness_steps :
    step (table5.withCommand 0x04000000#32) = .next (after (step (table5.withCommand 0x04000000#32))) ∧
      (after (step (table5.withCommand 0x04000000#32))).phase ≠ (table5.withCommand 0x04000000#32).phase ∧
      step { table5 with requests := [writeReq 0x0018#14 7#32] } =
        .next (after (step { table5 with requests := [writeReq 0x0018#14 7#32] })) ∧
      (after (step { table5 with requests := [writeReq 0x0018#14 7#32] })).arg ≠ table5.arg ∧
      step (table4.withCommand 0x01000000#32) = .next (after (step (table4.withCommand 0x01000000#32))) ∧
      (after (step (table4.withCommand 0x01000000#32))).freqAt 0x7A#8 ≠ (table4.withCommand 0x01000000#32).freqAt 0x7A#8 :=
  ⟨next_of_isNext (by decide +kernel), by decide +kernel, next_of_isNext (by decide +kernel), by decide +kernel,
    next_of_isNext (by decide +kernel), by decide +kernel⟩

/-- `StreamsOnlyGrow` and `PhaseChangesOnlyByItsCommands`. -/
theorem witness_PhaseChangesOnlyByItsCommands :
    step (table5.withCommand 0x04000000#32) = .next (after (step (table5.withCommand 0x04000000#32))) ∧
      (after (step (table5.withCommand 0x04000000#32))).phase ≠ (table5.withCommand 0x04000000#32).phase :=
  ⟨witness_steps.1, witness_steps.2.1⟩

theorem witness_StreamsOnlyGrow :
    step (table5.withCommand 0x04000000#32) = .next (after (step (table5.withCommand 0x04000000#32))) := witness_steps.1

theorem witness_ArgChangesOnlyByTheBus :
    exec .buildTree table5 = .next tree5 ∧
      step { table5 with requests := [writeReq 0x0018#14 7#32] } =
        .next (after (step { table5 with requests := [writeReq 0x0018#14 7#32] })) ∧
      (after (step { table5 with requests := [writeReq 0x0018#14 7#32] })).arg ≠ table5.arg :=
  ⟨exec_buildTree_run rfl rfl, witness_steps.2.2.1, witness_steps.2.2.2.1⟩

theorem witness_TableChangesOnlyInCollect :
    step (table4.withCommand 0x01000000#32) = .next (after (step (table4.withCommand 0x01000000#32))) ∧
      (after (step (table4.withCommand 0x01000000#32))).freq ≠ (table4.withCommand 0x01000000#32).freq :=
  ⟨witness_steps.2.2.2.2.1, fun h => witness_steps.2.2.2.2.2 (congrArg (fun f => symGet f 0x7A#8) h)⟩

theorem witness_OnlyClearAndResetLeaveAnError :
    (failed.withCommand 0x01000000#32).err ≠ .none ∧
      step (failed.withCommand 0x01000000#32) = .next (after (step (failed.withCommand 0x01000000#32))) :=
  ⟨by decide, next_of_isNext (by decide +kernel)⟩

/-- `rst` is asserted, and the host has a request pending. -/
def held : State := { State.reset with rst := true, requests := [readReq 0x0000#14] }

theorem witness_ResetValues :
    (({ coded1 with turns := [.assertReset] } : State).turns = [.assertReset] ∧ held.archReset) ∧ held.Inv ∧
      held.rst = true ∧ step held = .next held where
  left := ⟨rfl, archReset_underReset State.reset⟩
  right := ⟨{
    totalFits := totalOf_zero.trans_le (Nat.zero_le _)
    noTree := fun _ => ⟨rfl, rfl⟩
    builtTree := fun h => absurd rfl h
    noCodes := fun _ => rfl
    derivedCodes := fun h => by cases h
    decPtrNamed := .inl rfl
    errQuiet := fun _ => ⟨rfl, rfl⟩
    obitTakenLe := Nat.le_refl _
    osymTakenLe := Nat.le_refl _
    busyIff := by rw [fits_empty rfl rfl]; rfl
    rstHolds := fun _ => archReset_underReset State.reset }, rfl, rfl⟩

/-- The host has issued `ENC_SYM 'z'` with the code "0"; a reset cuts it short when its one bit has been taken. -/
def cut : State := { coded4 with requests := [writeReq 0x0014#14 0x0600007A#32], turns := [.cutByReset 1 0] }

theorem witness_ResetAbandonsTheCommand :
    cut.rst = false ∧ cut.busy = false ∧ cut.requests = [writeReq 0x0014#14 0x0600007A#32] ∧ cut.turns = [.cutByReset 1 0] ∧
      issue 0x0600007A#32 { cut with requests := [], turns := [] }
        = .next (after (issue 0x0600007A#32 { cut with requests := [], turns := [] })) ∧
      (readReq 0x0014#14).write = false ∧ (writeReq 0x0018#14 1#32).addr ≠ 0x0014#14 ∧ waiting.rst = false ∧
      waiting.busy = true ∧ ({ waiting with turns := [.cutByReset 3 0] } : State).turns = [.cutByReset 3 0] ∧
      ({ waiting with turns := [.assertReset] } : State).turns = [.assertReset] :=
  ⟨rfl, rfl, rfl, rfl, next_of_isNext (by decide +kernel), rfl, by decide, rfl, rfl, rfl, rfl⟩

theorem witness_EveryStepKeepsSoundness : tree1.Inv ∧ step tree1 = .next tree1 := ⟨inv_tree1, rfl⟩

theorem witness_SoundStatesMeetTheSpecInvariants :
    table1.Inv ∧ table1.phase = .collect ∧ tree5.Inv ∧ tree5.phase = .tree ∧ coded5.nsym = 0 ∧ coded4.Inv ∧
      coded4.phase = .coded ∧ coded4.nsym = 1 ∧ coded9.Inv ∧ coded9.phase ≠ .collect ∧ coded9.nsym = 2 ∧
      (0 : Fin 255).val = coded9.nint.toNat - 1 ∧ (0 : Fin 255).val < coded9.nint.toNat := by
  have h : coded9.nint.toNat = 1 := (buildTree_nint _).trans (by rw [present9]; rfl)
  exact ⟨inv_table1, rfl, inv_tree5, rfl, nsym_coded5, inv_coded4, rfl, nsym_coded4, inv_coded9, by decide, nsym_coded9,
    by rw [h]; decide, by rw [h]; decide⟩

theorem witness_ReachableStatesNeverStop :
    Reachable { State.reset with requests := [readReq 0x0000#14], turns := [] } ∧ tree1.Inv :=
  ⟨.environment .reset _ _, inv_tree1⟩

theorem witness_AssemblerNeverMakesAnIllegalWord :
    assembleLine ['E', 'N', 'C', '_', 'S', 'Y', 'M', ' ', '2', '5', '5'] = some [writeReq 0x0014#14 0x060000FF#32] := by
  decide +kernel

theorem witness_ReaderTakesAnyWidthSymbol :
    [0, 1, 1, 1, 1, 1, 1, 1, 1] ≠ [] ∧ (∀ d ∈ [0, 1, 1, 1, 1, 1, 1, 1, 1], d < 2) ∧
      ofDigits 2 [0, 1, 1, 1, 1, 1, 1, 1, 1] = 255 ∧ ofDigits 2 [1, 0, 0, 0, 0, 0, 0, 0, 0] = 256 ∧
      ∃ c ∈ [0x31#8, 0x32#8], c ≠ 0x30#8 ∧ c ≠ 0x31#8 := by decide

theorem witness_EncodeThenDecodeReproducesTheInput :
    bitPerByte.exact ∧ [0x7A#8, 0x61#8].length ≤ 2 ^ 32 - 1 ∧ coded1.Inv ∧ coded1.rst = false := by
  refine ⟨?_, by decide, inv_coded1, rfl⟩
  intro bits
  induction bits with
  | nil => rfl
  | cons b bs ih =>
    simp only [bitPerByte, List.map_cons] at ih ⊢
    rw [ih]
    cases b <;> rfl

theorem witness_EncodeAbortsOnAByteNotTabulated :
    [0x7A#8].length ≤ 2 ^ 32 - 1 ∧ coded1.Inv ∧ coded1.rst = false ∧ (∃ x ∈ [0x61#8], x ∉ [0x7A#8]) ∧
      ∀ x ∈ [0x7A#8, 0x7A#8], x ∈ [0x7A#8] :=
  ⟨by decide, inv_coded1, rfl, ⟨0x61#8, by decide, by decide⟩, by simp⟩

/-- Whether an operation ended well. -/
def isDone : HostOutcome → Bool
  | .done _ => true
  | _ => false

theorem done_of_isDone {o : HostOutcome} (h : isDone o = true) : ∃ r, o = .done r := by
  cases o with
  | done r => exact ⟨r, rfl⟩
  | aborted _ _ => cases h
  | stopped _ => cases h

theorem witness_IoFailureAbortsAndClears :
    (∃ r, hostRun bitPerByte (encodeActs [0x7A#8] []) none table5 = .done r) ∧ 0 < (encodeActs [0x7A#8] []).length ∧
      (encodeActs [0x7A#8] []).length ≤ 8 :=
  ⟨done_of_isDone (by decide +kernel), by decide, by decide⟩

end Sys2Proof.Tests
end

section
/-! Each bit of STATUS, and that a write to it is ignored (10_state.md R19). -/

namespace Sys2Proof.Machine

theorem getLsbD_flagBit {n : Nat} (hn : n < 32) (b : Bool) (i : Nat) : (flagBit n b).getLsbD i = (decide (i = n) && b) := by
  cases b with
  | false => simp [flagBit]
  | true =>
    rw [flagBit, if_pos rfl, ← BitVec.twoPow_eq, BitVec.getLsbD_twoPow]
    simp [hn, eq_comm]

/-- The bits of STATUS, by position: PHASE below, then the four flags (10_state.md R19). -/
theorem getLsbD_status (s : State) (i : Nat) :
    s.status.getLsbD i = (s.phase.code.getLsbD i || (decide (i = 2) && s.errAny) || (decide (i = 3) && s.decAtRoot)
      || (decide (i = 4) && s.treeEmpty) || (decide (i = 5) && s.treeLeaf)) := by
  have hphase : (s.phase.code.setWidth 32).getLsbD i = s.phase.code.getLsbD i := by
    rw [BitVec.getLsbD_setWidth]
    by_cases hi : i < 32
    · simp [hi]
    · simp [hi, BitVec.getLsbD_of_ge s.phase.code i (by omega)]
  simp [State.status, hphase, getLsbD_flagBit]

/-- Above the two bits of PHASE only the flags stand. -/
theorem getLsbD_status_of_ge (s : State) {i : Nat} (hi : 2 ≤ i) :
    s.status.getLsbD i = ((decide (i = 2) && s.errAny) || (decide (i = 3) && s.decAtRoot)
      || (decide (i = 4) && s.treeEmpty) || (decide (i = 5) && s.treeLeaf)) := by
  rw [getLsbD_status, BitVec.getLsbD_of_ge _ _ hi, Bool.false_or]

theorem status_phase (s : State) : s.status.extractLsb' 0 2 = s.phase.code := by
  apply BitVec.eq_of_getLsbD_eq
  intro i hi
  simp [getLsbD_status, hi, show i ≠ 2 by omega, show i ≠ 3 by omega, show i ≠ 4 by omega, show i ≠ 5 by omega]

theorem status_reset : State.reset.status = 0x00000008#32 := by decide

/-- A write to any register but CMD and ARG is ignored and answered (20_memory.md R45, R47). -/
theorem accept_ignored {a : Addr} (ha : a.toNat % 4 = 0) (hcmd : regAt a ≠ .cmd) (harg : regAt a ≠ .arg) (v : Word)
    (s : State) : accept (writeReq a v) s = .next (s.respond okRsp) := by
  rw [accept, malformed_writeReq ha]
  simp only [writeReq, Bool.false_eq_true, if_false, if_true, acceptWrite]

theorem memRead_status (s : State) : memRead s 0x0004#14 = s.status := rfl

/-- Settles O30: STATUS reads as its bits by position, its address is neither that of CMD nor that of ARG. -/
theorem statusBits : Obligations.StatusBits := by
  refine ⟨status_reset, fun s v => accept_ignored rfl (by decide) (by decide) v s, fun s => ?_⟩
  simp only [memRead_status]
  refine ⟨fun h => ?_, fun h => ?_, fun h => ?_, ?_, ?_, ?_, ?_, fun i hi => ?_⟩
  · rw [status_phase, h, Phase.code]
  · rw [status_phase, h, Phase.code]
  · rw [status_phase, h, Phase.code]
  · rw [getLsbD_status_of_ge s (by decide)]
    simp [State.errAny]
  · rw [getLsbD_status_of_ge s (by decide)]
    simp [State.decAtRoot]
  · rw [getLsbD_status_of_ge s (by decide)]
    simp [State.treeEmpty, nilId]
  · rw [getLsbD_status_of_ge s (by decide)]
    simp [State.treeLeaf, isLeaf]
  · rw [getLsbD_status_of_ge s (by omega)]
    simp [show i ≠ 2 by omega, show i ≠ 3 by omega, show i ≠ 4 by omega, show i ≠ 5 by omega]

end Sys2Proof.Machine
end

section
/-! Every step keeps a state sound (10_state.md R36), so every state of every run from reset is sound. A command keeps the
clauses about the registers; accepting its request, the consumers and reset keep the ports' and reset's clauses. -/

namespace Sys2Proof.Machine

/-- The clauses of `State.Inv` about the registers alone (10_state.md R25, R32, R36), which a command keeps whether or not
the items it emits find room. -/
structure State.RegistersSound (s : State) : Prop where
  totalFits : s.total ≤ Config.totalMax
  noTree : s.phase = .collect → s.tree = Tree.empty ∧ s.decPtr = nilId
  builtTree : s.phase ≠ .collect → s.tree = buildTree s.freq
  noCodes : s.phase ≠ .coded → s.codes = CodeTable.zero
  derivedCodes : s.phase = .coded → deriveCodes s.tree = some s.codes
  decPtrNamed : s.decPtr = s.root ∨ ∃ k, k < s.nint.toNat ∧ s.decPtr = internalId k
  errQuiet : s.err = .none → s.errcmd = 0#32 ∧ s.errarg = 0#32

theorem State.Inv.registersSound {s : State} (h : s.Inv) : s.RegistersSound := { h with }

/-! ## The decoder's node -/

/-- The root of a tree of two or more symbols is its last internal node (10_state.md R26, R27). -/
theorem buildTree_internalRoot {f : Vector Word 256} (hn : (buildTree f).root ≠ nilId)
    (hl : isLeaf (buildTree f).root = false) :
    2 ≤ (presentSyms f).length ∧ (buildTree f).root = internalId ((presentSyms f).length - 2) := by
  rw [buildTree_root] at hn hl ⊢
  rcases presentSyms_cases f with hp | ⟨x, hp⟩ | hp
  · rw [hp] at hn
    exact absurd rfl hn
  · simp [hp, rootOf] at hl
  · exact ⟨hp, rootOf_two hp⟩

theorem internalId_injOn {j k : Nat} (hj : j < 256) (hk : k < 256) (h : internalId j = internalId k) : j = k := by
  have := congrArg BitVec.toNat h
  rw [toNat_internalId hj, toNat_internalId hk] at this
  omega

/-- `DEC_PTR` of a sound state with an internal root names an internal node that is in use (10_state.md R32). -/
theorem State.RegistersSound.decPtr_lt_nint {s : State} (h : s.RegistersSound) (hp : s.phase ≠ .collect) (hn : s.root ≠ nilId)
    (hl : isLeaf s.root = false) : 2 ≤ (presentSyms s.freq).length ∧ ∃ k < s.nint.toNat, s.decPtr = internalId k := by
  have hroot : s.root = (buildTree s.freq).root := congrArg Tree.root (h.builtTree hp)
  have hnint : s.nint = (buildTree s.freq).nint := congrArg Tree.nint (h.builtTree hp)
  obtain ⟨h2, hlast⟩ := buildTree_internalRoot (hroot ▸ hn) (hroot ▸ hl)
  refine ⟨h2, ?_⟩
  rcases h.decPtrNamed with hd | hd
  · refine ⟨(presentSyms s.freq).length - 2, ?_, hd.trans (hroot.trans hlast)⟩
    rw [hnint, buildTree_nint]
    omega
  · exact hd

/-- A branch from an internal node of a sound state leads to a leaf or to an internal node in use, so `DEC_PTR` stays named
(45_decoder.md R84; 42_tree_builder.md R77 item 5). -/
theorem State.RegistersSound.arriveAt_child {s : State} (h : s.RegistersSound) (hp : s.phase ≠ .collect) (hn : s.root ≠ nilId)
    (hl : isLeaf s.root = false) (b : Bool) {k : Fin 255} (hk : internalIx s.decPtr = some k) :
    (arriveAt (s.tree.child k b) s).RegistersSound := by
  obtain ⟨h2, j, hj, hd⟩ := h.decPtr_lt_nint hp hn hl
  have hnint : s.nint.toNat = (presentSyms s.freq).length - 1 :=
    (congrArg (fun t => t.nint.toNat) (h.builtTree hp)).trans (buildTree_nint _)
  have hkj : k.val = j := internalId_injOn (by omega) (by have := s.nint.isLt; omega)
    ((internalId_of_internalIx hk).symm.trans hd)
  have hstrict := buildTree_strict h2
  rw [← h.builtTree hp] at hstrict
  unfold arriveAt
  split
  · exact { h with noTree := fun hc => absurd hc hp, decPtrNamed := .inl rfl }
  · next hnode =>
    rcases hstrict.childrenOlder k b (by omega) with hleaf | ⟨i, hi, hchild⟩
    · exact absurd hleaf hnode
    · exact { h with noTree := fun hc => absurd hc hp, decPtrNamed := .inr ⟨i, show i < s.nint.toNat by omega, hchild⟩ }

/-! ## Commands keep the registers sound -/

/-- Replacing a count by one that fits the total keeps the registers sound in COLLECT (41_tabulator.md R70, R71). -/
theorem State.RegistersSound.setFreq {s : State} (h : s.RegistersSound) (hp : s.phase = .collect) (x : Sym) (v : Word)
    (ht : totalOf (symSet s.freq x v) ≤ Config.totalMax) : (s.setFreq x v).RegistersSound :=
  { h with totalFits := ht, builtTree := fun hne => absurd hp hne }

theorem State.RegistersSound.captured {s : State} (h : s.RegistersSound) {e : ErrCode} (he : e ≠ .none) (w : Word) :
    (s.captured e w).RegistersSound :=
  { h with errQuiet := fun hnone => absurd hnone he }

theorem registersSound_cleared (s : State) : s.cleared.RegistersSound where
  totalFits := by simp [State.total, State.cleared]
  noTree _ := ⟨rfl, rfl⟩
  builtTree hne := absurd rfl hne
  noCodes _ := rfl
  derivedCodes h := by cases h
  decPtrNamed := .inl rfl
  errQuiet _ := ⟨rfl, rfl⟩

theorem totalOf_tabSym (f : Vector Word 256) (x : Sym) (h : totalOf f + 1 ≤ Config.totalMax) :
    totalOf (symSet f x (symGet f x + 1#32)) = totalOf f + 1 := by
  have hset := totalOf_symSet f x (symGet f x + 1#32)
  have hle := freq_le_totalOf f x
  have hadd : (symGet f x + 1#32).toNat = (symGet f x).toNat + 1 := by
    rw [BitVec.toNat_add]
    simp only [Config.totalMax] at h
    exact Nat.mod_eq_of_lt (by simp; omega)
  omega

theorem totalOf_freqLoad (f : Vector Word 256) (x : Sym) (v : Word) (h : symGet f x = 0#32) :
    totalOf (symSet f x v) = totalOf f + v.toNat := by
  have hset := totalOf_symSet f x v
  rw [h] at hset
  simpa using hset

/-- Every command keeps the registers sound (10_state.md R36). -/
theorem Effect.registersSound {s t : State} {i : Instr} (he : Effect s i t) (h : s.RegistersSound) : t.RegistersSound := by
  cases he with
  | same => exact h
  | clear => exact registersSound_cleared s
  | error _ hne _ _ => exact h.captured hne _
  | tabSym x _ hp hf => exact h.setFreq hp x _ ((totalOf_tabSym s.freq x hf).trans_le hf)
  | freqLoad x _ hp _ ha hf => exact h.setFreq hp x _ ((totalOf_freqLoad s.freq x s.arg ha).trans_le hf)
  | buildTree _ hp =>
    exact {
      totalFits := h.totalFits
      noTree := fun hc => by cases hc
      builtTree := fun _ => rfl
      noCodes := fun _ => h.noCodes (by simp [hp])
      derivedCodes := fun hc => by cases hc
      decPtrNamed := .inl rfl
      errQuiet := h.errQuiet }
  | deriveCodes c _ hp hc =>
    exact { h with
      noTree := fun hcol => by cases hcol
      builtTree := fun _ => h.builtTree (by simp [hp])
      noCodes := fun hne => absurd rfl hne
      derivedCodes := fun _ => hc }
  | encSym => exact { h with }
  | decLeafRoot => exact { h with }
  | decArrive b k _ hp hn hr hk => exact h.arriveAt_child hp hn hr b hk

theorem issue_registersSound {w : Word} {s t : State} (hi : issue w s = .next t) (h : s.RegistersSound) :
    t.RegistersSound := by
  rcases issue_cases hi with ⟨i, _, _, hx⟩ | ⟨_, _, rfl⟩ | ⟨_, _, rfl⟩
  · exact (exec_effect hx).registersSound h
  · exact h.captured (by decide) w
  · exact h

/-- Issuing a word neither takes items, nor waits, nor touches `rst`, and only appends to the streams. -/
theorem issue_outside {w : Word} {s t : State} (hi : issue w s = .next t) :
    t.obitTaken = s.obitTaken ∧ t.osymTaken = s.osymTaken ∧ t.busy = s.busy ∧ t.rst = s.rst ∧
      s.obit <+: t.obit ∧ s.osym <+: t.osym := by
  rcases issue_cases hi with ⟨i, _, _, hx⟩ | ⟨_, _, rfl⟩ | ⟨_, _, rfl⟩
  · have hx := exec_effect hx
    obtain ⟨ho, hs, -, -, hb, hr, -⟩ := hx.outside
    exact ⟨ho, hs, hb, hr, hx.streams⟩
  · exact ⟨rfl, rfl, rfl, rfl, List.prefix_refl _, List.prefix_refl _⟩
  · exact ⟨rfl, rfl, rfl, rfl, List.prefix_refl _, List.prefix_refl _⟩

/-! ## Requests, consumers and reset keep a state sound -/

/-- Ending a command sets `busy` as the ports say (20_memory.md R50, R51). -/
theorem State.RegistersSound.finishCommand {s : State} (h : s.RegistersSound) (ho : s.obitTaken ≤ s.obit.length)
    (hs : s.osymTaken ≤ s.osym.length) (hb : s.busy = false) (hr : s.rst = false) : s.finishCommand.Inv := by
  rcases finishCommand_cases s with ⟨hf, he⟩ | ⟨hf, he⟩ <;> rw [he]
  · exact { h with
      obitTakenLe := ho, osymTakenLe := hs
      busyIff := show s.busy = !s.portsFit by rw [hb, hf]; rfl
      rstHolds := fun hr' => absurd (hr.symm.trans hr') (by decide) }
  · exact { h with
      obitTakenLe := ho, osymTakenLe := hs
      busyIff := show true = !s.portsFit by rw [hf]; rfl
      rstHolds := fun hr' => absurd (hr.symm.trans hr') (by decide) }

/-- Executing a request keeps a state sound that accepts requests (20_memory.md R44 to R51). -/
theorem AcceptEffect.inv {r : BusReq} {s t : State} (ha : AcceptEffect r s t) (h : s.Inv) (hb : s.busy = false)
    (hr : s.rst = false) : t.Inv := by
  cases ha with
  | refused => exact { h with }
  | read => exact { h with }
  | ignored => exact { h with }
  | arg => exact { h with rstHolds := fun hr' => absurd (hr.symm.trans hr') (by decide) }
  | @command u _ _ _ hi =>
    obtain ⟨hot, hst, hbu, hru, hob, hos⟩ := issue_outside hi
    exact (issue_registersSound hi h.registersSound).finishCommand (hot.trans_le (h.obitTakenLe.trans hob.length_le))
      (hst.trans_le (h.osymTakenLe.trans hos.length_le)) (hbu.trans hb) (hru.trans hr)

/-- Settling after a take sets `busy` as the ports say: no command waits where the items fit (20_memory.md R50, R51). -/
theorem State.RegistersSound.settle {s : State} (h : s.RegistersSound) (ho : s.obitTaken ≤ s.obit.length)
    (hs : s.osymTaken ≤ s.osym.length) (hfit : s.busy = false → s.portsFit = true) (hr : s.rst = true → s.archReset) :
    s.settle.Inv := by
  rcases settle_cases s with ⟨_, hf, he⟩ | ⟨hw, he⟩ <;> rw [he]
  · exact { h with
      obitTakenLe := ho, osymTakenLe := hs, rstHolds := hr
      busyIff := show false = !s.portsFit by rw [hf]; rfl }
  · refine { h with obitTakenLe := ho, osymTakenLe := hs, rstHolds := hr, busyIff := ?_ }
    rcases hw with hidle | hfull
    · rw [hidle, hfit hidle]
      rfl
    · have hwaits : s.busy = true := by
        by_contra hc
        exact absurd (hfull.symm.trans (hfit (by simpa using hc))) (by decide)
      rw [hwaits, hfull]
      rfl

/-- A take leaves room for at least what there was room for, so it settles to a sound state (20_memory.md R50, R51). -/
theorem State.Inv.settle_take {s : State} (h : s.Inv) (n m : Nat) (hn : s.obitTaken ≤ n) (hm : s.osymTaken ≤ m)
    (ho : n ≤ s.obit.length) (hs : m ≤ s.osym.length) : ({ s with obitTaken := n, osymTaken := m } : State).settle.Inv := by
  refine State.RegistersSound.settle { h.registersSound with } ho hs (fun hidle => ?_) h.rstHolds
  have hroom : s.portsFit = true := by simpa [show s.busy = false from hidle] using h.busyIff
  rw [portsFit_iff] at hroom ⊢
  show s.obit.length ≤ n + Config.fifoDepth ∧ s.osym.length ≤ m + Config.fifoDepth
  omega

/-- A state under reset is sound (70_reset_and_hazards.md R112 to R114). -/
theorem State.IsUnderReset.inv {t : State} (h : t.IsUnderReset) : t.Inv := by
  have harch := h.archReset
  obtain ⟨bs, xs, rs, ps, ts, n, rfl⟩ := h
  exact { registersSound_cleared State.reset with
    obitTakenLe := Nat.le_refl _
    osymTakenLe := Nat.le_refl _
    busyIff := by
      rw [(portsFit_iff _).2 ⟨Nat.zero_le _, Nat.zero_le _⟩]
      rfl
    rstHolds := fun _ => harch }

/-- The state after reset is sound. -/
theorem inv_reset : State.reset.Inv := by
  have h : ({ State.reset with rst := true } : State).IsUnderReset := ⟨_, _, _, _, _, _, rfl⟩
  exact { h.inv with rstHolds := fun hr => by cases hr }

theorem StepEffect.inv {s t : State} (he : StepEffect s t) (h : s.Inv) : t.Inv := by
  cases he with
  | wait => exact h
  | accept hr hb _ ha => exact ha.inv { h with } hb hr
  | takeObit hlt => exact h.settle_take _ _ (Nat.le_succ _) le_rfl hlt h.osymTakenLe
  | takeOsym hlt => exact h.settle_take _ _ le_rfl (Nat.le_succ _) h.obitTakenLe hlt
  | assertReset => exact (assertReset_isUnderReset s).inv
  | cutByReset n m => exact (cutByReset_isUnderReset n m s).inv
  | releaseReset => exact { h with rstHolds := fun hr => by cases hr }

/-- What the host has pending and who moves next are no part of soundness. -/
theorem State.Inv.environment {s : State} (h : s.Inv) (rs : List BusReq) (ts : List Turn) :
    ({ s with requests := rs, turns := ts } : State).Inv := { h with }

/-- Every step keeps a state sound (10_state.md R36). -/
theorem step_inv {s t : State} (hs : step s = .next t) (h : s.Inv) : t.Inv :=
  (step_effect hs).inv (h.environment s.requests s.turns.tail)

/-- Every state of every run from reset is sound. -/
theorem Reachable.inv {s : State} (h : Reachable s) : s.Inv := by
  induction h with
  | reset => exact inv_reset
  | step _ hs ih => exact step_inv hs ih
  | environment _ rs ts ih => exact ih.environment rs ts

end Sys2Proof.Machine
end

section
/-! The six items of 10_state.md R36 in the spec's own terms, each from `State.Inv`. -/

namespace Sys2Proof.Machine

theorem codes_zero_iff (s : State) :
    s.codes = CodeTable.zero ↔ ∀ x, symGet s.codeLen x = 0#8 ∧ symGet s.codeBits x = 0#256 := by
  constructor
  · intro h x
    rw [show s.codeLen = _ from congrArg CodeTable.len h, show s.codeBits = _ from congrArg CodeTable.bits h]
    simp [CodeTable.zero]
  · intro h
    rw [State.codes, CodeTable.zero, CodeTable.mk.injEq]
    exact ⟨symVector_ext fun x => by simp [(h x).1], symVector_ext fun x => by simp [(h x).2]⟩

/-- R36 item 2. -/
theorem State.Inv.collect_empty {s : State} (h : s.Inv) (hp : s.phase = .collect) :
    s.root = 511#9 ∧ s.nint = 0#8 ∧ s.decPtr = 511#9 ∧
      ∀ k, nodeGet s.intLeft k = 0#9 ∧ nodeGet s.intRight k = 0#9 ∧ nodeGet s.intFreq k = 0#32 := by
  obtain ⟨ht, hd⟩ := h.noTree hp
  obtain ⟨hroot, hnint, hleft, hright, hfreq⟩ := Tree.mk.inj ht
  refine ⟨hroot, hnint, hd, fun k => ?_⟩
  rw [hleft, hright, hfreq]
  simp

/-- R36 item 3. -/
theorem State.Inv.root_nint {s : State} (h : s.Inv) (hp : s.phase ≠ .collect) :
    (s.nsym = 0 → s.root = 511#9 ∧ s.nint = 0#8) ∧
    (s.nsym = 1 → (∀ x, s.freqAt x ≠ 0#32 → s.root = leafId x) ∧ s.nint = 0#8) ∧
    (2 ≤ s.nsym → s.root.toNat = 256 + s.nsym - 2 ∧ s.nint.toNat = s.nsym - 1) := by
  have hroot : s.root = rootOf (presentSyms s.freq) := congrArg Tree.root (h.builtTree hp)
  have hnint : s.nint = BitVec.ofNat 8 (s.nsym - 1) := congrArg Tree.nint (h.builtTree hp)
  have hle : s.nsym ≤ 256 := length_presentSyms_le s.freq
  refine ⟨fun h0 => ?_, fun h1 => ?_, fun h2 => ?_⟩
  · rw [hroot, hnint, h0, List.length_eq_zero_iff.1 h0]
    exact ⟨rfl, rfl⟩
  · obtain ⟨y, hy⟩ := List.length_eq_one_iff.1 h1
    refine ⟨fun x hx => ?_, by rw [hnint, h1]⟩
    have hxy : x ∈ presentSyms s.freq := (mem_presentSyms _ _).2 hx
    rw [hy, List.mem_singleton] at hxy
    rw [hroot, hy, hxy, rootOf]
  · rw [hroot, rootOf_two h2, hnint, BitVec.toNat_ofNat, Nat.mod_eq_of_lt (by omega)]
    have hlast := toNat_internalId (k := s.nsym - 2) (by omega)
    exact ⟨hlast.trans (by omega), rfl⟩

/-- R36 item 5. -/
theorem State.Inv.code_iff_present {s : State} (h : s.Inv) (hp : s.phase = .coded) (x : Sym) :
    symGet s.codeLen x ≠ 0#8 ↔ s.freqAt x ≠ 0#32 := by
  have hd := h.derivedCodes hp
  rw [h.builtTree (by simp [hp])] at hd
  exact (derived_len s.freq s.codes hd x).1

/-- R36 item 6: the tree is strict, and its frequencies add up, to TOTAL at the root. -/
theorem State.Inv.strict_sums {s : State} (h : s.Inv) (hp : s.phase ≠ .collect) (h2 : 2 ≤ s.nsym) :
    s.tree.Strict (presentSyms s.freq) s.nint.toNat ∧
    (∀ k : Fin 255, k.val < s.nint.toNat →
      (nodeGet s.intFreq k).toNat = s.nodeFreq (nodeGet s.intLeft k) + s.nodeFreq (nodeGet s.intRight k)) ∧
    ∀ k : Fin 255, k.val = s.nint.toNat - 1 → (nodeGet s.intFreq k).toNat = s.total := by
  have hb := h.builtTree hp
  obtain ⟨hroot, hnint⟩ := (h.root_nint hp).2.2 h2
  refine ⟨?_, fun k hk => intFreq_buildTree hb h.totalFits k hk, fun k hk => ?_⟩
  · rw [hb, hnint]
    exact buildTree_strict h2
  · have hk : s.root = internalId k.val := by
      apply BitVec.eq_of_toNat_eq
      rw [toNat_internalId (by omega)]
      omega
    rw [← rootFreq_buildTree hb h.totalFits (by omega), State.nodeFreq, hk, internalIx_internalId k.isLt]

/-- Settles O51: reachable states are sound, and soundness gives the six items of 10_state.md R36. -/
theorem soundStatesMeetTheSpecInvariants : Obligations.SoundStatesMeetTheSpecInvariants := by
  intro s hs
  have h : s.Inv := hs.elim id Reachable.inv
  refine ⟨h.totalFits, fun hp => ?_, h.root_nint, fun hp => ?_, h.code_iff_present, h.strict_sums⟩
  · obtain ⟨hroot, hnint, hdec, hnodes⟩ := h.collect_empty hp
    exact ⟨hroot, hnint, hdec, hnodes, (codes_zero_iff s).1 (h.noCodes (by simp [hp]))⟩
  · exact (codes_zero_iff s).1 (h.noCodes (by simp [hp]))

end Sys2Proof.Machine
end

section
/-! What the windows of the arrays read (20_memory.md R40 to R43), the reserved words and ignored writes (R47), and the requests
the bus refuses (R46). -/

namespace Sys2Proof.Machine

/-! ## Refused requests -/

theorem BusReq.malformed_iff (r : BusReq) : r.malformed = true ↔ r.be ≠ 0xF#4 ∨ r.addr.toNat % 4 ≠ 0 := by
  simp [BusReq.malformed]

theorem accept_malformed {r : BusReq} (h : r.malformed = true) (s : State) : accept r s = .next (s.respond errRsp) :=
  if_pos h

/-- Settles O36: the check of R46 stands before everything else in `accept`. -/
theorem malformedRequestsAreRefused : Obligations.MalformedRequestsAreRefused :=
  fun r s h => accept_malformed (r.malformed_iff.2 h) s

/-! ## Code bits in sound states -/

/-- The code of a symbol, read beyond its end as 0 (10_state.md R31). -/
theorem getD_code (c : CodeTable) (x : Sym) (i : Nat) :
    (c.code x).getD i false = (decide (i < (symGet c.len x).toNat) && (symGet c.bits x).getLsbD i) := by
  rw [CodeTable.code, List.getD_eq_getElem?_getD, List.getElem?_map]
  by_cases hi : i < (symGet c.len x).toNat
  · simp [hi]
  · simp [hi]

/-- The bits of a derived entry from its length on are 0 (10_state.md R31). -/
theorem derived_bits_high {f : Vector Word 256} {c : CodeTable} (h : deriveCodes (buildTree f) = some c) (x : Sym) {i : Nat}
    (hi : (symGet c.len x).toNat ≤ i) : (symGet c.bits x).getLsbD i = false := by
  by_cases hx : symGet f x = 0#32
  · simp [(derived_len f c h x).2 hx]
  have hmem : x ∈ presentSyms f := (mem_presentSyms f x).2 hx
  rcases derived_cases f c h with ⟨hp, -⟩ | ⟨y, hp, rfl⟩ | ⟨-, t, -, hperm, -, hd, rfl⟩
  · simp [hp] at hmem
  · obtain rfl : x = y := by simpa [hp] using hmem
    rw [(record_same CodeTable.zero x (c := [false]) (by simp)).2] at hi
    exact record_high CodeTable.zero x (by simp [CodeTable.zero]) i hi
  · obtain ⟨p, hpm, rfl⟩ := path_of_present hperm hx
    rw [((codes_of_paths hperm hd rfl).1 p hpm).2] at hi
    have hn : ((t.paths []).map Prod.fst).Nodup := by
      rw [HTree.paths_syms]
      exact hperm.nodup_iff.2 (nodup_presentSyms f)
    exact recordAll_high CodeTable.zero (t.paths []) hn (by simp [CodeTable.zero]) p hpm i hi

/-- In a sound state CODE_BITS holds the code and 0 beyond it (10_state.md R31). -/
theorem State.Inv.codeBits_eq_code {s : State} (h : s.Inv) (x : Sym) (i : Nat) :
    (symGet s.codeBits x).getLsbD i = (s.code x).getD i false := by
  rw [State.code, getD_code]
  by_cases hi : i < (symGet s.codes.len x).toNat
  · rw [decide_eq_true hi, Bool.true_and, State.codes]
  · rw [decide_eq_false hi, Bool.false_and]
    by_cases hp : s.phase = .coded
    · have hd := h.derivedCodes hp
      rw [h.builtTree (by simp [hp])] at hd
      exact derived_bits_high hd x (Nat.le_of_not_lt hi)
    · simp [((codes_zero_iff s).1 (h.noCodes hp) x).2]

/-! ## Node words -/

/-- Bit by bit, NODE_LINK is INT_LEFT with INT_RIGHT from bit 16 on (20_memory.md R43). -/
theorem getLsbD_nodeLink (s : State) (k : Fin 255) {i : Nat} (hi : i < 32) :
    (nodeLink s k).getLsbD i =
      ((nodeGet s.intLeft k).getLsbD i || (decide (16 ≤ i) && (nodeGet s.intRight k).getLsbD (i - 16))) := by
  have hi' : i - 16 < 32 := by omega
  simp only [nodeLink, BitVec.getLsbD_or, BitVec.getLsbD_shiftLeft, BitVec.getLsbD_setWidth, hi, hi', decide_true,
    Bool.true_and, ← Nat.not_lt, decide_not]

theorem nodeLink_left (s : State) (k : Fin 255) : (nodeLink s k).extractLsb' 0 9 = nodeGet s.intLeft k := by
  apply BitVec.eq_of_getLsbD_eq
  intro i hi
  rw [BitVec.getLsbD_extractLsb', getLsbD_nodeLink s k (by omega)]
  simp [hi, show ¬ 16 ≤ i by omega]

theorem nodeLink_right (s : State) (k : Fin 255) : (nodeLink s k).extractLsb' 16 9 = nodeGet s.intRight k := by
  apply BitVec.eq_of_getLsbD_eq
  intro i hi
  rw [BitVec.getLsbD_extractLsb', getLsbD_nodeLink s k (by omega), BitVec.getLsbD_of_ge (nodeGet s.intLeft k) _ (by omega)]
  simp [hi]

/-- The bits of NODE_LINK above each child's id are 0 (20_memory.md R43). -/
theorem nodeLink_gaps (s : State) (k : Fin 255) :
    (nodeLink s k).extractLsb' 9 7 = 0#7 ∧ (nodeLink s k).extractLsb' 25 7 = 0#7 := by
  constructor
  · apply BitVec.eq_of_getLsbD_eq
    intro i hi
    rw [BitVec.getLsbD_extractLsb', getLsbD_nodeLink s k (by omega), BitVec.getLsbD_of_ge (nodeGet s.intLeft k) _ (by omega)]
    simp [show ¬ 16 ≤ 9 + i by omega]
  · apply BitVec.eq_of_getLsbD_eq
    intro i hi
    rw [BitVec.getLsbD_extractLsb', getLsbD_nodeLink s k (by omega), BitVec.getLsbD_of_ge (nodeGet s.intLeft k) _ (by omega),
      BitVec.getLsbD_of_ge (nodeGet s.intRight k) _ (by omega)]
    simp

/-- In a sound state the nodes from NINT on are 0 (10_state.md R28). -/
theorem State.Inv.unused_node {s : State} (h : s.Inv) {k : Fin 255} (hk : s.nint.toNat ≤ k.val) :
    nodeGet s.intLeft k = 0#9 ∧ nodeGet s.intRight k = 0#9 ∧ nodeGet s.intFreq k = 0#32 := by
  by_cases hp : s.phase = .collect
  · obtain ⟨-, -, -, hnodes⟩ := h.collect_empty hp
    exact hnodes k
  · obtain ⟨-, hnint, hleft, hright, hfreq⟩ := Tree.mk.inj (h.builtTree hp)
    rw [hnint] at hk
    rw [hleft, hright, hfreq]
    exact buildTree_unused hk

theorem State.Inv.memRead_unused_node {s : State} (h : s.Inv) {k : Fin 255} (hk : s.nint.toNat ≤ k.val) {a : Addr}
    (ha : a.toNat = 0x3000 + 8 * k.val ∨ a.toNat = 0x3004 + 8 * k.val) : memRead s a = 0#32 := by
  obtain ⟨hleft, hright, hfreq⟩ := h.unused_node hk
  rcases ha with ha | ha
  · rw [memRead, regAt_nodeLink ha, readReg, nodeLink, hleft, hright]
    rfl
  · rw [memRead, regAt_nodeFreq ha, readReg, hfreq]

/-- Settles O32: each window through its place in the map; the zeros are those of the built tree and of the derived codes. -/
theorem arrayWindowsRead : Obligations.ArrayWindowsRead := by
  intro s
  refine ⟨fun x a ha => ?_, fun x a ha => ?_, fun x w a hw ha => ?_, fun k a ha => ?_, fun k a ha => ?_,
    fun h k a hk ha => h.memRead_unused_node hk ha⟩
  · rw [memRead, regAt_freq ha, readReg]
  · rw [memRead, regAt_codeLen ha, readReg]
  · have hread : memRead s a = (symGet s.codeBits x).extractLsb' (32 * w) 32 := by
      rw [memRead, regAt_codeBits (w := ⟨w, hw⟩) ha, readReg]
    refine ⟨hread, fun h j hj => ?_⟩
    rw [hread, BitVec.getLsbD_extractLsb', decide_eq_true hj, Bool.true_and, h.codeBits_eq_code]
  · rw [memRead, regAt_nodeLink ha, readReg]
    exact ⟨nodeLink_left s k, (nodeLink_gaps s k).1, nodeLink_right s k, (nodeLink_gaps s k).2⟩
  · rw [memRead, regAt_nodeFreq ha, readReg]

/-! ## Reserved words -/

theorem controlReg_reserved {j : Nat} (h : 14 ≤ j) : controlReg j = .reserved := by
  obtain ⟨n, rfl⟩ := Nat.exists_eq_add_of_le' h
  rfl

/-- The reserved ranges of the map (20_memory.md R39, R47). -/
theorem regAt_reserved {a : Addr}
    (h : (0x0038 ≤ a.toNat ∧ a.toNat ≤ 0x03FC) ∨ (0x0C00 ≤ a.toNat ∧ a.toNat ≤ 0x0FFC) ∨ 0x37F8 ≤ a.toNat) :
    regAt a = .reserved := by
  rcases h with h | h | h
  · rw [regAt, regOfIndex, if_pos (by omega), controlReg_reserved (by omega)]
  · rw [regAt, regOfIndex, if_neg (by omega), if_neg (by omega), if_neg (by omega), if_pos (by omega)]
  · rw [regAt_node (by omega), nodeReg, dif_neg (by omega)]

theorem memRead_of_reserved {a : Addr} (h : regAt a = .reserved) (s : State) : memRead s a = 0#32 := by
  rw [memRead, h, readReg]

/-- An aligned word read is answered with the word's value (20_memory.md R44). -/
theorem accept_read {a : Addr} (ha : a.toNat % 4 = 0) (s : State) :
    accept (readReq a) s = .next (s.respond ⟨memRead s a, false⟩) := by
  have hm : (readReq a).malformed = false := by simp [BusReq.malformed, readReq, ha]
  rw [accept, hm]
  simp only [readReq, Bool.false_eq_true, if_false]

/-- Settles O33: the reserved ranges and the unused nodes read 0; only CMD and ARG take writes. -/
theorem reservedWordsReadZeroAndIgnoreWrites : Obligations.ReservedWordsReadZeroAndIgnoreWrites := by
  intro s a ha
  refine ⟨fun h => ?_, fun hcmd harg v => ?_⟩
  · have hread : memRead s a = 0#32 := by
      rcases h with h | h | h | ⟨hinv, k, hk, hak⟩
      · exact memRead_of_reserved (regAt_reserved (.inl h)) s
      · exact memRead_of_reserved (regAt_reserved (.inr (.inl h))) s
      · exact memRead_of_reserved (regAt_reserved (.inr (.inr h))) s
      · exact hinv.memRead_unused_node hk hak
    rw [accept_read ha, hread]
    exact ⟨rfl, rfl⟩
  · exact accept_ignored ha (fun h => hcmd (addr_of_regAt_cmd ha h)) (fun h => harg (addr_of_regAt_arg ha h)) v s

end Sys2Proof.Machine
end

section
/-! What the decoder answers, by `OP` and the reserved field, and that the rows of the opcode map say the same
(30_encoding.md R57 to R61). -/

namespace Sys2Proof

/-- How many bits the operand field has in the row of an `OP`: format S has 8, format B has 1, format N none
(30_encoding.md R58, R60). -/
def operandBits : Nat → Nat
  | 0x02 => 8
  | 0x03 => 8
  | 0x06 => 8
  | 0x07 => 1
  | _ => 0

theorem opField_eq_shift (w : Word) : opField w = (w >>> 24).toNat := by
  rw [opField, BitVec.toNat_ushiftRight, Nat.shiftRight_eq_div_pow]

theorem symField_eq_extract (w : Word) : symField w = w.extractLsb' 0 8 := by
  apply BitVec.eq_of_toNat_eq
  rw [toNat_symField, BitVec.extractLsb'_toNat, Nat.shiftRight_zero]

/-! ## The decoder -/

theorem decode_reservedOpcode {w : Word} (h : 9 ≤ opField w) : decode w = .error .reservedOpcode := by
  unfold decode
  split
  case h_10 => rfl
  all_goals omega

theorem decodeN_eq (i : Instr) {w : Word} (h : operandBits (opField w) = 0) :
    ∃ j, decodeN i w = if lowField w / 2 ^ operandBits (opField w) = 0 then .ok j else .error .reservedField :=
  ⟨i, by rw [h, pow_zero, Nat.div_one, decodeN]⟩

theorem decodeS_eq (make : Sym → Instr) {w : Word} (h : operandBits (opField w) = 8) :
    ∃ j, decodeS make w = if lowField w / 2 ^ operandBits (opField w) = 0 then .ok j else .error .reservedField :=
  ⟨make (symField w), by rw [h, decodeS]⟩

theorem decodeB_eq (make : Bool → Instr) {w : Word} (h : operandBits (opField w) = 1) :
    ∃ j, decodeB make w = if lowField w / 2 ^ operandBits (opField w) = 0 then .ok j else .error .reservedField :=
  ⟨make (bitField w), by rw [h, pow_one, decodeB]⟩

/-- A word with a listed `OP` is a command when its reserved field is zero, and is rejected otherwise. -/
theorem decode_listed {w : Word} (h : opField w ≤ 8) :
    ∃ i, decode w = if lowField w / 2 ^ operandBits (opField w) = 0 then .ok i else .error .reservedField := by
  unfold decode
  split
  case h_1 ho | h_2 ho | h_5 ho | h_6 ho | h_9 ho => exact decodeN_eq _ (by rw [ho]; rfl)
  case h_3 ho | h_4 ho | h_7 ho => exact decodeS_eq _ (by rw [ho]; rfl)
  case h_8 ho => exact decodeB_eq _ (by rw [ho]; rfl)
  case h_10 => interval_cases opField w <;> contradiction

theorem opcode_of_decode {w : Word} {i : Instr} (h : decode w = .ok i) : i.opcode = opField w := by
  rw [← encode_of_decode h, opField_encode]

theorem decode_ok_iff (w : Word) :
    (∃ i, decode w = .ok i) ↔ opField w ≤ 8 ∧ lowField w / 2 ^ operandBits (opField w) = 0 := by
  by_cases hop : opField w ≤ 8
  · obtain ⟨i, hd⟩ := decode_listed hop
    by_cases hlow : lowField w / 2 ^ operandBits (opField w) = 0 <;> simp [hd, hop, hlow]
  · simp [decode_reservedOpcode (w := w) (by omega), hop]

/-! ## The rows -/

theorem exists_row {op : Nat} (h : op ≤ 8) : ∃ r ∈ opcodeTable, r.op = op := by
  have rows : ∀ n < 9, ∃ r ∈ opcodeTable, r.op = n := by decide
  exact rows op (by omega)

theorem row_of_op : ∀ r ∈ opcodeTable, ∀ r' ∈ opcodeTable, r.op = r'.op → r = r' := by decide

theorem row_shape : ∀ r ∈ opcodeTable, r.op ≤ 8 ∧
    (operandBits r.op = 0 ∨ operandBits r.op = 1 ∨ operandBits r.op = 8) ∧
    r.mask = BitVec.allOnes 32 <<< operandBits r.op ∧ r.pattern.toNat = r.op * 2 ^ 24 := by decide

theorem holds_iff_of_mem {r : OpcodeRow} (hr : r ∈ opcodeTable) (w : Word) :
    r.holds w = true ↔ opField w = r.op ∧ lowField w / 2 ^ operandBits r.op = 0 := by
  obtain ⟨-, hbits, hmask, hpattern⟩ := row_shape r hr
  exact row_holds_iff r.op r.pattern r.mask _ hbits hmask hpattern w

/-- Some row holds of a word exactly when its `OP` is listed and its reserved field is zero. -/
theorem exists_holds_iff (w : Word) :
    (∃ r ∈ opcodeTable, r.holds w = true) ↔ opField w ≤ 8 ∧ lowField w / 2 ^ operandBits (opField w) = 0 := by
  constructor
  · rintro ⟨r, hr, hw⟩
    obtain ⟨hop, hlow⟩ := (holds_iff_of_mem hr w).mp hw
    rw [hop]
    exact ⟨(row_shape r hr).1, hlow⟩
  · rintro ⟨hop, hlow⟩
    obtain ⟨r, hr, hrop⟩ := exists_row hop
    exact ⟨r, hr, (holds_iff_of_mem hr w).mpr ⟨hrop.symm, by rwa [hrop]⟩⟩

theorem decode_ok_iff_row (w : Word) : (∃ i, decode w = .ok i) ↔ ∃ r ∈ opcodeTable, r.holds w = true :=
  (decode_ok_iff w).trans (exists_holds_iff w).symm

theorem op_of_holds {r : OpcodeRow} {w : Word} (hr : r ∈ opcodeTable) (hw : r.holds w = true) : opField w = r.op :=
  ((holds_iff_of_mem hr w).mp hw).1

theorem decode_reservedField {w : Word} (h : opField w ≤ 8) (hr : ∀ r ∈ opcodeTable, r.holds w = false) :
    decode w = .error .reservedField := by
  obtain ⟨i, hd⟩ := decode_listed h
  have hlow : lowField w / 2 ^ operandBits (opField w) ≠ 0 := fun h0 => by
    obtain ⟨r, hmem, hw⟩ := (exists_holds_iff w).mpr ⟨h, h0⟩
    simp [hr r hmem] at hw
  rw [hd, if_neg hlow]

/-! ## The operand -/

theorem symField_of_decode {w : Word} {i : Instr} {x : Sym} (h : decode w = .ok i) (ho : i.operand = x.toNat) :
    x = w.extractLsb' 0 8 := by
  rw [← symField_eq_extract, ← encode_of_decode h, symField_encode_of_operand i x ho]

theorem bitField_of_decode {w : Word} {b : Bool} (h : decode w = .ok (.decBit b)) : b = w.getLsbD 0 := by
  rw [← encode_of_decode h]
  exact (bitField_encode_of_operand (.decBit b) b rfl).symm

/-- Settles O2: the decoder and the rows both ask for a listed `OP` and a zero reserved field. -/
theorem opcodeMapDecides : Obligations.OpcodeMapDecides := by
  refine ⟨decode_ok_iff_row, fun w r hr r' hr' hw hw' => ?_, fun w i hd => ?_, fun w x hd => ?_, fun w b hd => ?_⟩
  · exact row_of_op r hr r' hr' ((op_of_holds hr hw).symm.trans (op_of_holds hr' hw'))
  · obtain ⟨r, hr, hw⟩ := (decode_ok_iff_row w).mp ⟨i, hd⟩
    exact ⟨r, hr, hw, (op_of_holds hr hw).symm.trans (opcode_of_decode hd).symm⟩
  · rcases hd with hd | hd | hd <;> exact symField_of_decode hd rfl
  · exact bitField_of_decode hd

end Sys2Proof
end

section
/-! Issuing a word looks at ERR, the opcode map and the phase, in this order (30_encoding.md R61 to R63). -/

namespace Sys2Proof.Machine

/-! ## Issuing a word -/

theorem issue_of_decode {w : Word} {i : Instr} (h : decode w = .ok i) (s : State) : issue w s = exec i s := by
  rw [issue, h]

theorem issue_illegal_raises {w : Word} {e : DecodeError} {s : State} (h : decode w = .error e) (he : s.err = .none) :
    issue w s = .next (s.captured .illegalCmd w) := by
  simp [issue, h, issueIllegal, he]

theorem issue_illegal_discarded {w : Word} {e : DecodeError} {s : State} (h : decode w = .error e)
    (he : s.err ≠ .none) : issue w s = .next s := by
  simp [issue, h, issueIllegal, he]

/-- Settles O3: an unlisted `OP`, or a listed one with no row that holds; each traps or is discarded by ERR. -/
theorem illegalWordsTrapOrAreDiscarded : Obligations.IllegalWordsTrapOrAreDiscarded := by
  refine ⟨fun w h => ?_, fun w h hr => ?_, fun w e s hd he => ?_, fun w e s hd he => ?_⟩
  · exact decode_reservedOpcode (by rwa [opField_eq_shift])
  · exact decode_reservedField (by rwa [opField_eq_shift]) hr
  · exact issue_illegal_raises hd he
  · exact issue_illegal_discarded hd he

/-- While an error is recorded, every word but those of NOP and CLEAR is discarded (30_encoding.md R63). -/
theorem issue_discarded {w : Word} {s : State} (he : s.err ≠ .none) (hn : w ≠ 0x00000000#32) (hc : w ≠ 0x01000000#32) :
    issue w s = .next s := by
  cases hd : decode w with
  | error e => exact issue_illegal_discarded hd he
  | ok i =>
    have hw : encode i = w := encode_of_decode hd
    rw [issue_of_decode hd]
    exact exec_discard i (by rintro rfl; exact hn hw.symm) (by rintro rfl; exact hc hw.symm) s he

/-- Settles O5: first ERR, then the opcode map, then the phase; only then the command's own rule. -/
theorem issueFollowsDispatchOrder : Obligations.IssueFollowsDispatchOrder := by
  refine fun w s => ⟨fun he => ?_, fun he => ⟨fun e hd => issue_illegal_raises hd he, fun i hd => ?_⟩⟩
  · split
    · next hw => subst hw; exact issue_of_decode (i := .nop) rfl s
    · split
      · next hw => subst hw; exact issue_of_decode (i := .clear) rfl s
      · next hn hc => exact issue_discarded he hn hc
  · rw [issue_of_decode hd]
    exact ⟨fun hl => by rw [exec_illegal i s he hl, encode_of_decode hd], fun _ => rfl⟩

/-! ## The errors of a command's own rule -/

/-- The errors that a command's own rule may raise (41_tabulator.md R70, R71; 44_encoder.md R81; 45_decoder.md R84, R85). -/
def ownErrors : Instr → List ErrCode
  | .nop => []
  | .clear => []
  | .tabSym _ => [.countOverflow]
  | .freqLoad _ => [.badCount, .duplicate, .countOverflow]
  | .buildTree => []
  | .deriveCodes => []
  | .encSym _ => [.missingCode]
  | .decBit _ => [.emptyTree]
  | .decEnd => [.truncated]

theorem phaseErr_not_mem_ownErrors (i : Instr) : ErrCode.phaseErr ∉ ownErrors i := by cases i <;> simp [ownErrors]

@[simp] theorem arriveAt_err (n : NodeId) (s : State) : (arriveAt n s).err = s.err := by
  unfold arriveAt
  split <;> rfl

/-- In a legal phase with no error recorded, a command raises only the errors of its own rule (30_encoding.md R62, R63). -/
theorem exec_legal_err {i : Instr} {s t : State} (he : s.err = .none) (hl : legalIn i s.phase = true)
    (h : exec i s = .next t) : t.err = .none ∨ t.err ∈ ownErrors i := by
  cases i with
  | nop => cases h; exact .inl he
  | clear => cases h; exact .inl rfl
  | tabSym x =>
    simp only [exec, execTabSym, gated_run _ he hl] at h
    split at h <;> cases h
    · exact .inr (by simp [ownErrors])
    · exact .inl he
  | freqLoad x =>
    simp only [exec, execFreqLoad, gated_run _ he hl] at h
    split at h
    · cases h; exact .inr (by simp [ownErrors])
    split at h
    · cases h; exact .inr (by simp [ownErrors])
    split at h <;> cases h
    · exact .inr (by simp [ownErrors])
    · exact .inl he
  | buildTree =>
    simp only [exec, execBuildTree, gated_run _ he hl] at h
    cases h; exact .inl he
  | deriveCodes =>
    simp only [exec, execDeriveCodes, gated_run _ he hl] at h
    split at h <;> cases h
    exact .inl he
  | encSym x =>
    simp only [exec, execEncSym, gated_run _ he hl] at h
    split at h <;> cases h
    · exact .inr (by simp [ownErrors])
    · exact .inl he
  | decBit b =>
    simp only [exec, execDecBit, gated_run _ he hl] at h
    split at h
    · cases h; exact .inr (by simp [ownErrors])
    split at h
    · cases h; exact .inl he
    split at h <;> cases h
    exact .inl (by simpa using he)
  | decEnd =>
    simp only [exec, execDecEnd, gated_run _ he hl] at h
    split at h <;> cases h
    · exact .inr (by simp [ownErrors])
    · exact .inl he

theorem Phase.ne_collect_iff (p : Phase) : p ≠ .collect ↔ p = .tree ∨ p = .coded := by cases p <;> decide

/-- Settles O6: the table, PHASE_ERR outside it, and within it only a command's own errors. -/
theorem phaseLegality : Obligations.PhaseLegality := by
  refine ⟨fun p => ⟨rfl, rfl⟩, fun x p => ?_, fun p => ?_, fun b p => ?_, exec_illegal, ?_⟩
  · simp [legalIn]
  · simp [legalIn]
  · simp [legalIn, Phase.ne_collect_iff]
  · intro i s t he hl h hp
    rcases exec_legal_err he hl h with h0 | hown
    · rw [h0] at hp
      cases hp
    · exact phaseErr_not_mem_ownErrors i (hp ▸ hown)

end Sys2Proof.Machine
end

section
/-! NOP and CLEAR complete in every state, and each has one word (40_control.md R66, R67). -/

namespace Sys2Proof

theorem decode_encode : ∀ i : Instr, decode (encode i) = .ok i
  | .nop => Laws.RoundTrip.nop
  | .clear => Laws.RoundTrip.clear
  | .tabSym x => Laws.RoundTrip.tabSym x
  | .freqLoad x => Laws.RoundTrip.freqLoad x
  | .buildTree => Laws.RoundTrip.buildTree
  | .deriveCodes => Laws.RoundTrip.deriveCodes
  | .encSym x => Laws.RoundTrip.encSym x
  | .decBit b => Laws.RoundTrip.decBit b
  | .decEnd => Laws.RoundTrip.decEnd

/-- Each command has one word (30_encoding.md R60). -/
theorem decode_eq_ok_iff (w : Word) (i : Instr) : decode w = .ok i ↔ w = encode i :=
  ⟨fun h => (encode_of_decode h).symm, fun h => h ▸ decode_encode i⟩

theorem encode_nop : encode .nop = 0x00000000#32 := rfl

theorem Instr.eq_nop_of_opcode_zero {i : Instr} (h : i.opcode = 0) : i = .nop := by
  cases i with
  | nop => rfl
  | _ => simp [Instr.opcode] at h

/-- With `OP = 0x00` only the zero word is a command (40_control.md R66). -/
theorem decode_error_of_opField_zero {w : Word} (h : opField w = 0) (hw : w ≠ 0x00000000#32) :
    ∃ e, decode w = .error e := by
  cases hd : decode w with
  | error e => exact ⟨e, rfl⟩
  | ok i =>
    have hi : i = .nop := Instr.eq_nop_of_opcode_zero ((opcode_of_decode hd).trans h)
    rw [hi, decode_eq_ok_iff, encode_nop] at hd
    exact absurd hd hw

end Sys2Proof

namespace Sys2Proof.Machine

/-! ## What the two commands do -/

theorem issue_encode (i : Instr) (s : State) : issue (encode i) s = exec i s := issue_of_decode (decode_encode i) s

theorem exec_nop (s : State) : exec .nop s = .next s := rfl

theorem exec_clear (s : State) : exec .clear s = .next s.cleared := rfl

/-- Settles O9: NOP is the identity, and a word with its `OP` and a bit set decodes to no command. -/
theorem nopChangesNothing : Obligations.NopChangesNothing := by
  refine ⟨fun s => ⟨exec_nop s, issue_encode .nop s⟩, fun w => decode_eq_ok_iff w .nop, fun w s hop hw he => ?_⟩
  obtain ⟨e, hd⟩ := decode_error_of_opField_zero (by rw [opField_eq_shift, hop]; rfl) hw
  exact issue_illegal_raises hd he

/-! ## The cleared state -/

theorem cleared_freqAt (s : State) (x : Sym) : s.cleared.freqAt x = 0#32 := symGet_replicate _ x

theorem cleared_codeLen (s : State) (x : Sym) : symGet s.cleared.codeLen x = 0#8 := symGet_replicate _ x

theorem cleared_codeBits (s : State) (x : Sym) : symGet s.cleared.codeBits x = 0#256 := symGet_replicate _ x

theorem cleared_intLeft (s : State) (k : Fin 255) : nodeGet s.cleared.intLeft k = 0#9 := nodeGet_replicate _ k

theorem cleared_intRight (s : State) (k : Fin 255) : nodeGet s.cleared.intRight k = 0#9 := nodeGet_replicate _ k

theorem cleared_intFreq (s : State) (k : Fin 255) : nodeGet s.cleared.intFreq k = 0#32 := nodeGet_replicate _ k

/-- STATUS depends on PHASE, ERR, ROOT and DEC_PTR alone, which CLEAR gives their reset values. -/
theorem cleared_status (s : State) : s.cleared.status = 0x00000008#32 :=
  (show s.cleared.status = State.reset.status from rfl).trans status_reset

theorem cleared_cleared (s : State) : s.cleared.cleared = s.cleared := rfl

theorem cleared_reset : State.reset.cleared = State.reset := rfl

theorem cleared_sameOutside (s : State) : s.sameOutside s.cleared := Effect.clear.outside

/-- While an error is recorded, NOP's word and every word but CLEAR's leave it (40_control.md R66, R67; 30_encoding.md R63). -/
theorem eq_clear_of_issue_clears_err {w : Word} {s t : State} (he : s.err ≠ .none) (h : issue w s = .next t)
    (ht : t.err = .none) : w = 0x01000000#32 := by
  by_contra hc
  have hkeep : issue w s = .next s := by
    by_cases hn : w = 0x00000000#32
    · rw [hn, ← encode_nop, issue_encode, exec_nop]
    · exact issue_discarded he hn hc
  cases hkeep.symm.trans h
  exact he ht

/-- Settles O10: CLEAR goes on to the cleared state, which has the session's reset values and a frame of ARG, the streams and
what lies outside. -/
theorem clearStartsNewSession : Obligations.ClearStartsNewSession := by
  refine ⟨fun w => decode_eq_ok_iff w .clear, (exec_clear _).trans (congrArg _ cleared_reset),
    fun w s t => eq_clear_of_issue_clears_err, fun s => ⟨s.cleared, exec_clear s, issue_encode .clear s, ?_⟩⟩
  refine ⟨fun x => ⟨cleared_freqAt s x, cleared_codeLen s x, cleared_codeBits s x⟩,
    fun k => ⟨cleared_intLeft s k, cleared_intRight s k, cleared_intFreq s k⟩,
    rfl, rfl, rfl, rfl, rfl, rfl, rfl, rfl, rfl, rfl, rfl, cleared_sameOutside s, ?_, ?_⟩
  · rw [memRead_status, cleared_status]
  · rw [exec_clear, cleared_cleared]

end Sys2Proof.Machine
end

section
/-! What the lines "Encoding" and "Legal phase" of a command's rule say, from the command's row of the opcode map
(30_encoding.md R58, R60 to R63). -/

namespace Sys2Proof

/-- The word of a command with a symbol operand (30_encoding.md R58, format S). -/
theorem encode_of_symOperand {i : Instr} {x : Sym} (h : i.operand = x.toNat) :
    encode i = BitVec.ofNat 32 (2 ^ 24 * i.opcode) ||| x.setWidth 32 := by
  have hx := x.isLt
  have hop := i.opcode_lt
  apply BitVec.eq_of_toNat_eq
  rw [toNat_encode, h, BitVec.toNat_or, BitVec.toNat_ofNat, BitVec.toNat_setWidth, Nat.mod_eq_of_lt (by omega),
    Nat.mod_eq_of_lt (by omega), ← Nat.two_pow_add_eq_or_of_lt (by omega), Nat.mul_comm]

theorem pattern_low_zero : ∀ r ∈ opcodeTable, r.pattern &&& 0x00FFFFFF#32 = 0#32 := by decide

/-- A word with the `OP` of a row and a bit under the rest of the row's mask is no command (30_encoding.md R60, R61). -/
theorem decode_error_of_reservedBit {r : OpcodeRow} (hr : r ∈ opcodeTable) {v : Word} (hop : opField v = r.op)
    (hv : v &&& (r.mask &&& 0x00FFFFFF#32) ≠ 0#32) : ∃ e, decode v = .error e := by
  cases hd : decode v with
  | error e => exact ⟨e, rfl⟩
  | ok j =>
    obtain ⟨r', hr', hholds⟩ := (decode_ok_iff_row v).mp ⟨j, hd⟩
    obtain rfl : r' = r := row_of_op r' hr' r hr ((op_of_holds hr' hholds).symm.trans hop)
    have hmatch : v &&& r'.mask = r'.pattern := by simpa [OpcodeRow.holds] using hholds
    rw [← BitVec.and_assoc, hmatch, pattern_low_zero r' hr'] at hv
    exact absurd rfl hv

end Sys2Proof

namespace Sys2Proof.Machine

/-- A command other than NOP and CLEAR follows the format of its row of the opcode map. -/
theorem followsItsFormat_of_row {i : Instr} {w reserved : Word} {legal : List Phase} {r : OpcodeRow}
    (hr : r ∈ opcodeTable) (hop : r.op = i.opcode) (hw : encode i = w) (hres : reserved = r.mask &&& 0x00FFFFFF#32)
    (hn : i ≠ .nop) (hc : i ≠ .clear) (hl : ∀ p, legalIn i p = true → p ∈ legal) :
    followsItsFormat i w reserved legal := by
  subst hw hres
  refine ⟨rfl, decode_encode i, fun v s hv hbit he => ?_, fun s he hp => ?_, exec_discard i hn hc⟩
  · have hvop : opField v = r.op := by rw [opField_eq_shift, hv, ← opField_eq_shift, opField_encode, hop]
    obtain ⟨e, hd⟩ := decode_error_of_reservedBit hr hvop hbit
    exact issue_illegal_raises hd he
  · exact exec_illegal i s he (by simpa using mt (hl s.phase) hp)

end Sys2Proof.Machine
end

section
/-! The Tabulator counts symbols (41_tabulator.md R70, R73). -/

namespace Sys2Proof.Machine

/-! ## The present symbols when one count is replaced -/

theorem presentSyms_symSet_of_present {f : Vector Word 256} {x : Sym} {v : Word} (hx : symGet f x ≠ 0#32)
    (hv : v ≠ 0#32) : presentSyms (symSet f x v) = presentSyms f := by
  refine List.filter_congr fun y _ => ?_
  by_cases hy : y = x
  · subst hy
    rw [symGet_symSet_same, bne_iff_ne.2 hv, bne_iff_ne.2 hx]
  · rw [symGet_symSet_ne f v hy]

theorem presentSyms_symSet_of_absent {f : Vector Word 256} {x : Sym} {v : Word} (hx : symGet f x = 0#32)
    (hv : v ≠ 0#32) : (presentSyms (symSet f x v)).Perm (x :: presentSyms f) := by
  have hnodup : (x :: presentSyms f).Nodup := List.nodup_cons.2 ⟨by simp [hx], nodup_presentSyms f⟩
  refine (List.perm_ext_iff_of_nodup (nodup_presentSyms _) hnodup).2 fun y => ?_
  rw [mem_presentSyms, List.mem_cons, mem_presentSyms]
  by_cases hy : y = x
  · subst hy
    simp [hv]
  · simp [symGet_symSet_ne f v hy, hy]

/-- NSYM grows by one when an absent symbol gets a count, and stays when a present one does (10_state.md R22). -/
theorem State.setFreq_nsym (s : State) (x : Sym) {v : Word} (hv : v ≠ 0#32) :
    (s.setFreq x v).nsym = s.nsym + (if s.freqAt x = 0#32 then 1 else 0) := by
  by_cases hx : symGet s.freq x = 0#32
  · rw [State.freqAt, if_pos hx]
    exact (presentSyms_symSet_of_absent hx hv).length_eq
  · rw [State.freqAt, if_neg hx]
    exact congrArg List.length (presentSyms_symSet_of_present hx hv)

/-! ## Counts after one symbol -/

theorem State.setFreq_freqAt (s : State) (x y : Sym) (v : Word) :
    (s.setFreq x v).freqAt y = if y = x then v else s.freqAt y := symGet_symSet s.freq x y v

/-- One more fits in the word of a count while it fits in TOTAL: "the addition cannot wrap" (41_tabulator.md R70). -/
theorem State.toNat_freqAt_add_one {s : State} (h : s.total + 1 ≤ Config.totalMax) (x : Sym) :
    (s.freqAt x + 1#32).toNat = (s.freqAt x).toNat + 1 := by
  have hle : (s.freqAt x).toNat ≤ s.total := freq_le_totalOf s.freq x
  rw [Config.totalMax] at h
  rw [BitVec.toNat_add]
  exact Nat.mod_eq_of_lt (show (s.freqAt x).toNat + 1 < 2 ^ 32 by omega)

theorem State.freqAt_add_one_ne_zero {s : State} (h : s.total + 1 ≤ Config.totalMax) (x : Sym) :
    s.freqAt x + 1#32 ≠ 0#32 := fun h0 => by
  have hone := s.toNat_freqAt_add_one h x
  rw [h0] at hone
  simp at hone

/-- Settles O12: the format is that of the row of `OP = 0x02`; below the limit the count's successor is stored, at it the
sum overflows. -/
theorem tabSymCountsOneSymbol : Obligations.TabSymCountsOneSymbol := by
  refine ⟨fun x => ?_, fun x s he hp => ⟨fun ht => ?_, fun ht => ?_⟩⟩
  · exact followsItsFormat_of_row (r := ⟨0x02, 0x02000000#32, 0xFFFFFF00#32⟩) (by decide) rfl (encode_of_symOperand rfl)
      (by decide) (by simp) (by simp) (by simp [legalIn])
  · have hfit : s.total + 1 ≤ Config.totalMax := ht
    refine ⟨s.setFreq x (s.freqAt x + 1#32), exec_tabSym_run he hp hfit, ?_, ?_, fun y hy => ?_,
      totalOf_tabSym s.freq x hfit, s.setFreq_nsym x (s.freqAt_add_one_ne_zero hfit x), rfl⟩
    · rw [State.setFreq_freqAt, if_pos rfl]
    · rw [State.setFreq_freqAt, if_pos rfl, s.toNat_freqAt_add_one hfit]
    · rw [State.setFreq_freqAt, if_neg hy]
  · exact exec_tabSym_overflow he hp (Nat.lt_succ_of_le ht)

/-! ## Counts after a stream -/

/-- `t` is `s` with the symbols of `xs` counted on top of its table (41_tabulator.md R73). -/
structure State.CountsStream (s : State) (xs : List Sym) (t : State) : Prop where
  freqAt : ∀ y, (t.freqAt y).toNat = (s.freqAt y).toNat + xs.count y
  total : t.total = s.total + xs.length
  frame : t = { s with freq := t.freq }

theorem State.CountsStream.nil (s : State) : s.CountsStream [] s := ⟨fun _ => rfl, (Nat.add_zero _).symm, rfl⟩

/-- Counting one symbol and then a stream counts the longer stream. -/
theorem State.CountsStream.cons {s t : State} {x : Sym} {xs : List Sym} (hfit : s.total + 1 ≤ Config.totalMax)
    (h : (s.setFreq x (s.freqAt x + 1#32)).CountsStream xs t) : s.CountsStream (x :: xs) t where
  freqAt y := by
    rw [h.freqAt, State.setFreq_freqAt, List.count_cons]
    by_cases hy : y = x
    · subst hy
      rw [if_pos rfl, s.toNat_freqAt_add_one hfit, if_pos (beq_self_eq_true y)]
      omega
    · rw [if_neg hy, if_neg (by simpa using Ne.symm hy), Nat.add_zero]
  total := by
    have hone : (s.setFreq x (s.freqAt x + 1#32)).total = s.total + 1 := totalOf_tabSym s.freq x hfit
    rw [h.total, hone, List.length_cons]
    omega
  frame := h.frame

/-- TAB_SYM of each symbol of a stream counts the stream, from any table that leaves it room (41_tabulator.md R73). -/
theorem execAll_tabSym (xs : List Sym) {s : State} (he : s.err = .none) (hp : s.phase = .collect)
    (hfit : s.total + xs.length ≤ Config.totalMax) :
    ∃ t, execAll (xs.map .tabSym) s = .next t ∧ s.CountsStream xs t := by
  induction xs generalizing s with
  | nil => exact ⟨s, rfl, .nil s⟩
  | cons x xs ih =>
    rw [List.length_cons] at hfit
    have hone : s.total + 1 ≤ Config.totalMax := by omega
    have htotal : (s.setFreq x (s.freqAt x + 1#32)).total = s.total + 1 := totalOf_tabSym s.freq x hone
    obtain ⟨t, hrun, hcounts⟩ := ih (s := s.setFreq x (s.freqAt x + 1#32)) he hp (by omega)
    refine ⟨t, ?_, hcounts.cons hone⟩
    rw [List.map_cons, execAll, exec_tabSym_run he hp hone]
    exact hrun

/-- Settles O14: the counts of the stream on top of an empty table, by induction over the stream. -/
theorem tabulatorCountsTheStream : Obligations.TabulatorCountsTheStream := by
  refine ⟨fun xs s he hp hfreq hlen => ?_, fun x s he hp ht => ?_⟩
  · have hzero : s.total = 0 := by rw [State.total, hfreq, totalOf_zero]
    obtain ⟨t, hrun, hcounts⟩ := execAll_tabSym xs he hp (by rw [hzero, Nat.zero_add]; exact hlen)
    refine ⟨t, hrun, fun x => ?_, ?_, hcounts.frame⟩
    · rw [hcounts.freqAt, State.freqAt, hfreq, symGet_replicate, BitVec.toNat_zero, Nat.zero_add]
    · rw [hcounts.total, hzero, Nat.zero_add]
  · exact exec_tabSym_overflow he hp (Nat.lt_succ_of_le ht.ge)

end Sys2Proof.Machine
end

section
/-! The Tree Builder: what one merge takes (42_tree_builder.md R74, R75) and what BUILD_TREE leaves (R77). -/

namespace Sys2Proof.Machine

/-- Of two keys with different ids exactly one comes first (42_tree_builder.md R74). -/
theorem before_iff_not_before {a b : QNode} (h : a.id ≠ b.id) : a.before b = true ↔ ¬ b.before a = true := by
  rw [before_iff, before_iff]
  omega

/-- Settles O16: extraction leaves nothing before what it takes, and with distinct ids that puts what it takes first. -/
theorem mergeTakesTheTwoSmallestKeys : Obligations.MergeTakesTheTwoSmallestKeys := by
  refine ⟨before_iff, fun a b h => before_iff_not_before h, fun n k q hids hlen => ?_⟩
  obtain ⟨a, b, rest, hperm, hfirst, hsecond, hloop⟩ := mergeLoop_succ (n := n) (k := k) hlen
  have hids' : ((a :: b :: rest).map QNode.id).Nodup := (hperm.map QNode.id).nodup hids
  obtain ⟨ha, hrest⟩ := List.nodup_cons.1 hids'
  obtain ⟨hb, -⟩ := List.nodup_cons.1 hrest
  have hab : a.id ≠ b.id := fun h => ha (h ▸ List.mem_cons_self)
  have hbz : ∀ z ∈ rest, b.id ≠ z.id := fun z hz h => hb (h ▸ List.mem_map_of_mem hz)
  refine ⟨a, b, rest, hperm, ?_, fun z hz => ?_, hloop⟩
  · simp [before_iff_not_before hab, hfirst b (hperm.mem_iff.2 (by simp))]
  · simp [before_iff_not_before (hbz z hz), hsecond z (List.mem_cons_of_mem b hz)]

/-- BUILD_TREE writes the canonical tree of FREQ and leaves FREQ as it is (42_tree_builder.md R76). -/
theorem exec_buildTree_tree_freq {s t : State} (he : s.err = .none) (hp : s.phase = .collect)
    (h : exec .buildTree s = .next t) : t.tree = buildTree s.freq ∧ t.freq = s.freq := by
  rw [exec_buildTree_run he hp] at h
  cases h
  exact ⟨rfl, rfl⟩

/-- Settles O18: the tree registers are `buildTree` of FREQ, so the laws of the built tree hold of them. -/
theorem builtTreeIsAStrictBinaryTree : Obligations.BuiltTreeIsAStrictBinaryTree := by
  intro s t he hp ht hrun
  obtain ⟨htree, hfreq⟩ := exec_buildTree_tree_freq he hp hrun
  have hroot : t.root = rootOf (presentSyms s.freq) := congrArg Tree.root htree
  have hnint : t.nint.toNat = s.nsym - 1 := (congrArg (fun u => u.nint.toNat) htree).trans (buildTree_nint s.freq)
  have hbuilt : t.tree = buildTree t.freq := by rw [hfreq, htree]
  have htotal : t.total ≤ 2 ^ 32 - 1 := by rwa [State.total, hfreq]
  refine ⟨fun s' t' he' hp' hfreq' hrun' => ?_, fun h2 => ⟨?_, ?_⟩, fun h1 => ?_, intFreq_buildTree hbuilt htotal,
    fun h1 => rootFreq_buildTree hbuilt htotal ?_⟩
  · rw [(exec_buildTree_tree_freq he' hp' hrun').1, hfreq', htree]
  · rw [htree, hnint]
    exact buildTree_strict h2
  · rw [hroot, rootOf_two h2, hnint, Nat.sub_sub]
    rfl
  · obtain ⟨x, hx⟩ := List.length_eq_one_iff.1 h1
    exact ⟨x, hx, by rw [hroot, hx, rootOf]⟩
  · rwa [State.nsym, hfreq]

end Sys2Proof.Machine
end

section
/-! The Code Table Deriver records the path to each leaf of the tree (43_code_deriver.md R79). -/

namespace Sys2Proof.Machine

/-! ## The cases of the root -/

@[simp] theorem isInternal_leafId (x : Sym) : isInternal (leafId x) = false := by
  have hx : (leafId x).toNat < 256 := by simpa only [isLeaf, decide_eq_true_eq] using isLeaf_leafId x
  exact decide_eq_false fun ⟨hlo, _⟩ => Nat.not_lt.2 hlo hx

theorem deriveCodes_of_nil_root {t : Tree} (h : t.root = nilId) : deriveCodes t = some CodeTable.zero := if_pos h

theorem deriveCodes_of_leaf_root {t : Tree} (h : isLeaf t.root = true) :
    deriveCodes t = some (CodeTable.zero.record (leafSym t.root) [false]) := by
  have hn : t.root ≠ nilId := fun e => by simp [e] at h
  rw [deriveCodes, if_neg hn, if_pos h]

theorem two_present_of_internal_root {f : Vector Word 256} (h : isInternal (buildTree f).root = true) :
    2 ≤ (presentSyms f).length := by
  rw [buildTree_root] at h
  rcases presentSyms_cases f with hp | ⟨x, hp⟩ | hp
  · rw [hp] at h
    exact absurd h (by decide)
  · rw [hp, rootOf, isInternal_leafId] at h
    cases h
  · exact hp

/-! ## Codes in each case -/

/-- A degenerate root gets the code "0", and no other symbol an entry. -/
theorem derived_of_leaf_root {t : Tree} {c : CodeTable} (h : deriveCodes t = some c) (hr : isLeaf t.root = true) :
    c.code (leafSym t.root) = [false] ∧
      ∀ y, y ≠ leafSym t.root → symGet c.len y = 0#8 ∧ symGet c.bits y = 0#256 := by
  obtain rfl : CodeTable.zero.record (leafSym t.root) [false] = c :=
    Option.some.inj ((deriveCodes_of_leaf_root hr).symm.trans h)
  refine ⟨(record_same _ _ (by simp)).1, fun y hy => ?_⟩
  obtain ⟨hlen, hbits⟩ := record_other CodeTable.zero [false] hy
  rw [hlen, hbits]
  simp [CodeTable.zero]

/-- Below an internal root each present symbol's code is the path to its leaf, and a path crosses at most the `NINT` internal
nodes. -/
theorem derived_of_internal_root {f : Vector Word 256} {c : CodeTable} (h : deriveCodes (buildTree f) = some c)
    (hr : isInternal (buildTree f).root = true) {x : Sym} (hx : symGet f x ≠ 0#32) :
    1 ≤ (c.code x).length ∧ (c.code x).length ≤ (buildTree f).nint.toNat ∧
      (buildTree f).follow (buildTree f).root (c.code x) = some (leafId x) := by
  obtain ⟨t, hunfolds, hperm, hpos, hdepth, hderive⟩ := deriveCodes_buildTree_two (two_present_of_internal_root hr)
  obtain ⟨p, hp, rfl⟩ := path_of_present hperm hx
  obtain ⟨hcodes, -⟩ := codes_of_paths hperm hdepth (Option.some.inj (h.symm.trans hderive))
  obtain ⟨d, hd, hfollow⟩ := follow_path hunfolds [] p hp
  obtain ⟨-, hlen⟩ := t.paths_length [] p hp
  have hleaves := t.depth_lt_leaves
  rw [hperm.length_eq] at hleaves
  rw [(hcodes p hp).1, buildTree_nint]
  refine ⟨path_pos hpos p hp, ?_, by rw [hd]; exact hfollow⟩
  rw [List.length_nil, Nat.zero_add] at hlen
  omega

/-- A symbol that is not present has no entry. -/
theorem derived_of_absent {f : Vector Word 256} {c : CodeTable} (h : deriveCodes (buildTree f) = some c) {x : Sym}
    (hx : symGet f x = 0#32) : symGet c.len x = 0#8 ∧ symGet c.bits x = 0#256 := by
  obtain ⟨hlen, hbits⟩ := derived_len f c h x
  exact ⟨not_not.1 fun hl => hlen.1 hl hx, hbits hx⟩

/-- In a sound state in TREE, DERIVE_CODES completes with the codes of the tree built from FREQ. -/
theorem State.Inv.exec_deriveCodes {s : State} (h : s.Inv) (he : s.err = .none) (hp : s.phase = .tree) :
    ∃ c, deriveCodes s.tree = some c ∧ s.tree = buildTree s.freq ∧
      exec .deriveCodes s = .next { s.setCodes c with phase := .coded } := by
  have htree := h.builtTree (by simp [hp])
  obtain ⟨c, hc⟩ := deriveCodes_buildTree_isSome s.freq
  rw [← htree] at hc
  exact ⟨c, hc, htree, exec_deriveCodes_run he hp hc⟩

/-- Settles O19: the registers hold the tree built from FREQ, and `walk` records the paths of its unfolding. -/
theorem deriveCodesRecordsThePaths : Obligations.DeriveCodesRecordsThePaths := by
  refine ⟨?_, fun s h he hp => ?_⟩
  · exact followsItsFormat_of_row (r := ⟨0x05, 0x05000000#32, 0xFFFFFFFF#32⟩) (by decide) rfl rfl (by decide) (by simp)
      (by simp) (by simp [legalIn])
  · obtain ⟨c, hderive, htree, hrun⟩ := h.exec_deriveCodes he hp
    have hbuilt : deriveCodes (buildTree s.freq) = some c := by rw [← htree, hderive]
    refine ⟨_, hrun, fun hr => ?_, derived_of_leaf_root hderive, fun hr x hx => ?_, fun x => derived_of_absent hbuilt,
      fun x i => derived_bits_high hbuilt x, rfl, rfl⟩
    · exact Option.some.inj (hderive.symm.trans (deriveCodes_of_nil_root hr))
    · have hpath := derived_of_internal_root hbuilt (by rw [← htree]; exact hr) hx
      rw [← htree] at hpath
      exact hpath

end Sys2Proof.Machine
end

section
/-! The Encoder appends codes to `obit` and counts their bits (44_encoder.md R81, R82). -/

namespace Sys2Proof.Machine

/-! ## Emitting counted bits -/

/-- `s` with `bits` emitted on `obit` and counted in ENC_BITCNT: what ENC_SYM does with a code (44_encoder.md R81). -/
def State.emitCounted (s : State) (bits : List Bool) : State :=
  { s.emitBits bits with encBitcnt := s.encBitcnt + BitVec.ofNat 64 bits.length }

@[simp] theorem State.emitCounted_obit (s : State) (bits : List Bool) : (s.emitCounted bits).obit = s.obit ++ bits := rfl

theorem State.toNat_emitCounted_encBitcnt (s : State) (bits : List Bool) :
    (s.emitCounted bits).encBitcnt.toNat = (s.encBitcnt.toNat + bits.length) % 2 ^ 64 := by
  rw [State.emitCounted, BitVec.toNat_add, BitVec.toNat_ofNat, Nat.add_mod_mod]

theorem State.emitCounted_frame (s : State) (bits : List Bool) :
    s.emitCounted bits = { s with obit := (s.emitCounted bits).obit, encBitcnt := (s.emitCounted bits).encBitcnt } := rfl

theorem State.emitCounted_nil (s : State) : s.emitCounted [] = s := by
  simp [State.emitCounted, State.emitBits]

/-- Emitting two runs of bits is emitting them joined: nothing separates two codes (44_encoder.md R82). -/
theorem State.emitCounted_emitCounted (s : State) (bits bits' : List Bool) :
    (s.emitCounted bits).emitCounted bits' = s.emitCounted (bits ++ bits') := by
  simp [State.emitCounted, State.emitBits, BitVec.ofNat_add, BitVec.add_assoc]

/-! ## One symbol -/

theorem State.length_code (s : State) (x : Sym) : (s.code x).length = (symGet s.codeLen x).toNat := by
  simp [State.code, CodeTable.code, State.codes]

theorem State.getElem_code (s : State) (x : Sym) (i : Nat) (h : i < (s.code x).length) :
    (s.code x)[i] = (symGet s.codeBits x).getLsbD i := by
  simp [State.code, CodeTable.code, State.codes]

theorem exec_encSym_emitCounted {x : Sym} {s : State} (he : s.err = .none) (hp : s.phase = .coded)
    (hl : symGet s.codeLen x ≠ 0#8) : exec (.encSym x) s = .next (s.emitCounted (s.code x)) := by
  rw [exec_encSym_run he hp hl, State.emitCounted, State.length_code, BitVec.ofNat_toNat]

theorem exec_encSym_missing {x : Sym} {s : State} (he : s.err = .none) (hp : s.phase = .coded)
    (hl : symGet s.codeLen x = 0#8) :
    exec (.encSym x) s = .next (s.captured .missingCode (encode (.encSym x))) := by
  simp [exec, execEncSym, he, hp, legalIn, hl]

/-- Settles O22: the format is that of the row of `OP = 0x06`; the bits emitted are the symbol's code. -/
theorem encSymEmitsTheCode : Obligations.EncSymEmitsTheCode := by
  refine ⟨fun x => ?_, fun x s he hp => ⟨fun hl => ?_, exec_encSym_missing he hp⟩⟩
  · exact followsItsFormat_of_row (r := ⟨0x06, 0x06000000#32, 0xFFFFFF00#32⟩) (by decide) rfl (encode_of_symOperand rfl)
      (by decide) (by simp) (by simp) (by simp [legalIn])
  · refine ⟨_, s.code x, exec_encSym_emitCounted he hp hl, s.length_code x, s.getElem_code x,
      s.emitCounted_obit _, ?_, s.emitCounted_frame _⟩
    rw [State.toNat_emitCounted_encBitcnt, State.length_code]

/-! ## A stream -/

/-- ENC_SYM of each symbol of a stream emits and counts the joined codes; the code table is not touched in between. -/
theorem execAll_encSym (xs : List Sym) {s : State} (he : s.err = .none) (hp : s.phase = .coded)
    (hl : ∀ x ∈ xs, symGet s.codeLen x ≠ 0#8) :
    execAll (xs.map .encSym) s = .next (s.emitCounted (xs.flatMap s.code)) := by
  induction xs generalizing s with
  | nil => rw [List.flatMap_nil, State.emitCounted_nil, List.map_nil, execAll]
  | cons x xs ih =>
    obtain ⟨hx, hxs⟩ := List.forall_mem_cons.1 hl
    have hrest := ih (s := s.emitCounted (s.code x)) he hp hxs
    rw [State.emitCounted_emitCounted] at hrest
    rw [List.map_cons, execAll, exec_encSym_emitCounted he hp hx]
    exact hrest

/-- Settles O23: what the stream emits and counts in one run of bits. -/
theorem encoderConcatenatesTheCodes : Obligations.EncoderConcatenatesTheCodes := fun xs s he hp hl =>
  ⟨_, execAll_encSym xs he hp hl, s.emitCounted_obit _, s.toNat_emitCounted_encBitcnt _, s.emitCounted_frame _⟩

end Sys2Proof.Machine
end

section
/-! The Decoder moves along one branch, then tests for a leaf (45_decoder.md R84), and at the end of the stream checks that it
stands at the root (R85). -/

namespace Sys2Proof.Machine

/-! ## Where a branch arrives -/

theorem arriveAt_of_leaf {nxt : NodeId} (h : isLeaf nxt = true) (s : State) :
    arriveAt nxt s = { s.emitSym (leafSym nxt) with decPtr := s.root } := if_pos h

theorem arriveAt_of_not_leaf {nxt : NodeId} (h : isLeaf nxt = false) (s : State) :
    arriveAt nxt s = { s with decPtr := nxt } := if_neg (by simp [h])

theorem State.child_tree (s : State) (k : Fin 255) (b : Bool) :
    s.tree.child k b = if b = false then nodeGet s.intLeft k else nodeGet s.intRight k := by
  cases b <;> rfl

/-! ## One bit -/

theorem ne_nilId_of_isInternal {id : NodeId} (h : isInternal id = true) : id ≠ nilId := by
  rintro rfl
  exact absurd h (by decide)

theorem isLeaf_of_isInternal {id : NodeId} (h : isInternal id = true) : isLeaf id = false := by
  obtain ⟨hlo, -⟩ := of_decide_eq_true h
  exact decide_eq_false (Nat.not_lt.2 hlo)

theorem exec_decBit_emptyTree {b : Bool} {s : State} (he : s.err = .none) (hp : s.phase ≠ .collect) (hr : s.root = nilId) :
    exec (.decBit b) s = .next (s.captured .emptyTree (encode (.decBit b))) := by
  have hl : legalIn (.decBit b) s.phase = true := by simpa [legalIn] using hp
  simp [exec, execDecBit, gated_run _ he hl, hr]

/-- Below an internal root DEC_BIT arrives at the child that the bit selects. -/
theorem exec_decBit_child {b : Bool} {s : State} {k : Fin 255} (he : s.err = .none) (hp : s.phase ≠ .collect)
    (hr : isInternal s.root = true) (hd : s.decPtr = internalId k) :
    exec (.decBit b) s = .next (arriveAt (s.tree.child k b) s) := by
  have hk : internalIx s.decPtr = some k := by rw [hd, internalIx_internalId k.isLt]
  exact exec_decBit_move he hp (ne_nilId_of_isInternal hr) (isLeaf_of_isInternal hr) hk

/-- Settles O24: the format is that of the row of `OP = 0x07`; the root decides between the error, the symbol of a degenerate
tree and a move, and the node moved to whether a symbol comes out. -/
theorem decBitWalksOneBranch : Obligations.DecBitWalksOneBranch := by
  refine ⟨fun b => ?_, fun b s he hp => ⟨exec_decBit_emptyTree he hp, exec_decBit_leafRoot he hp,
    fun k nxt hr hd hnxt => ?_⟩⟩
  · exact followsItsFormat_of_row (r := ⟨0x07, 0x07000000#32, 0xFFFFFFFE#32⟩) (by decide) rfl (by cases b <;> rfl)
      (by decide) (by simp) (by simp) (by simp [legalIn, Phase.ne_collect_iff])
  · rw [exec_decBit_child he hp hr hd, s.child_tree, ← hnxt]
    exact ⟨fun hleaf => by rw [arriveAt_of_leaf hleaf]; rfl, fun hnode => by rw [arriveAt_of_not_leaf hnode]⟩

/-! ## The end of the stream -/

theorem exec_decEnd_truncated {s : State} (he : s.err = .none) (hp : s.phase ≠ .collect) (hd : s.decPtr ≠ s.root) :
    exec .decEnd s = .next (s.captured .truncated (encode .decEnd)) := by
  have hl : legalIn .decEnd s.phase = true := by simpa [legalIn] using hp
  simp [exec, execDecEnd, gated_run _ he hl, hd]

/-- With at most one present symbol the tree has no internal node, so `DEC_PTR` can only be at the root. -/
theorem State.Inv.decPtr_eq_root {s : State} (h : s.Inv) (hp : s.phase ≠ .collect) (h1 : s.nsym ≤ 1) :
    s.decPtr = s.root := by
  have hnint : s.nint.toNat = s.nsym - 1 := (congrArg (fun t => t.nint.toNat) (h.builtTree hp)).trans (buildTree_nint s.freq)
  rcases h.decPtrNamed with hroot | ⟨k, hk, -⟩
  · exact hroot
  · omega

/-- Settles O26: the format is that of the row of `OP = 0x08`; comparing `DEC_PTR` with the root decides, and in a sound state
with at most one present symbol the two agree. -/
theorem decEndChecksTheRoot : Obligations.DecEndChecksTheRoot := by
  refine ⟨?_, fun s he hp => ⟨fun h h1 => ?_, exec_decEnd_run he hp, fun hd => ?_⟩⟩
  · exact followsItsFormat_of_row (r := ⟨0x08, 0x08000000#32, 0xFFFFFFFF#32⟩) (by decide) rfl rfl (by decide) (by simp)
      (by simp) (by simp [legalIn, Phase.ne_collect_iff])
  · exact exec_decEnd_run he hp (h.decPtr_eq_root hp h1)
  · exact ⟨_, exec_decEnd_truncated he hp hd, rfl, s.captured_decPtr _ _⟩

end Sys2Proof.Machine
end

section
/-! An error is captured once and by itself (60_exceptions.md R99), and of several conditions only the first is reported
(R100). -/

namespace Sys2Proof.Machine

/-! ## What a word may do to ERR -/

/-- A word leaves ERR, or clears it, or captures an error where none was recorded (60_exceptions.md R99, R102). -/
theorem issue_err_cases {w : Word} {s t : State} (h : issue w s = .next t) :
    t.err = s.err ∨ t.err = .none ∨ (s.err = .none ∧ t = s.captured t.err w) := by
  rcases issue_cases h with ⟨i, hw, -, hexec⟩ | ⟨-, he, rfl⟩ | ⟨-, -, rfl⟩
  · rcases effect_err (exec_effect hexec) with hkeep | rfl | ⟨he, -, hcap⟩
    · exact .inl hkeep
    · rw [exec_clear] at hexec
      cases hexec
      exact .inr (.inl rfl)
    · exact .inr (.inr ⟨he, hw ▸ hcap⟩)
  · exact .inr (.inr ⟨he, rfl⟩)
  · exact .inl rfl

/-- Settles O7: a word that brings a new error did nothing but capture it, and a recorded error discards what follows. -/
theorem errorCaptureIsPrecise : Obligations.ErrorCaptureIsPrecise := by
  refine ⟨fun w s t h hnew hne => ?_, fun w s => issue_discarded⟩
  rcases issue_err_cases h with hkeep | hnone | hcap
  · exact absurd hkeep hnew
  · exact absurd hnone hne
  · exact hcap

/-! ## The checks of FREQ_LOAD, in the order of R100 -/

theorem exec_freqLoad_badCount {x : Sym} {s : State} (he : s.err = .none) (hp : s.phase = .collect) (h0 : s.arg = 0#32) :
    exec (.freqLoad x) s = .next (s.captured .badCount (encode (.freqLoad x))) := by
  simp [exec, execFreqLoad, he, hp, legalIn, countOperand, h0]

theorem exec_freqLoad_duplicate {x : Sym} {s : State} (he : s.err = .none) (hp : s.phase = .collect) (h0 : s.arg ≠ 0#32)
    (hx : s.freqAt x ≠ 0#32) : exec (.freqLoad x) s = .next (s.captured .duplicate (encode (.freqLoad x))) := by
  simp [exec, execFreqLoad, he, hp, legalIn, countOperand, h0, hx]

theorem exec_freqLoad_overflow {x : Sym} {s : State} (he : s.err = .none) (hp : s.phase = .collect) (h0 : s.arg ≠ 0#32)
    (hx : s.freqAt x = 0#32) (hf : Config.totalMax < s.total + s.arg.toNat) :
    exec (.freqLoad x) s = .next (s.captured .countOverflow (encode (.freqLoad x))) := by
  simp [exec, execFreqLoad, he, hp, legalIn, countOperand, h0, hx, hf]

/-- The word that an error captures is the one issued: each command has one word (30_encoding.md R60). -/
theorem issue_captures {w : Word} {i : Instr} {s : State} {e : ErrCode} (hd : decode w = .ok i)
    (h : exec i s = .next (s.captured e (encode i))) : issue w s = .next (s.captured e w) := by
  rw [issue_of_decode hd, h, encode_of_decode hd]

/-- Settles O8: a recorded error stays until CLEAR; with none recorded the decoder's check, the phase and then the
command's own checks decide. -/
theorem firstErrorInOrder : Obligations.FirstErrorInOrder := by
  refine ⟨fun w s t he h => ?_, fun w s he => ⟨fun e hd => issue_illegal_raises hd he, fun i hd hl => ?_,
    fun x hd hp h0 => ?_, fun x hd hp h0 hx => ?_, fun x hd hp h0 hx hf => ?_⟩⟩
  · rcases issue_err_cases h with hkeep | hnone | ⟨hquiet, -⟩
    · exact .inl hkeep
    · exact .inr ⟨eq_clear_of_issue_clears_err he h hnone, hnone⟩
    · exact absurd hquiet he
  · exact issue_captures hd (exec_illegal i s he hl)
  · exact issue_captures hd (exec_freqLoad_badCount he hp h0)
  · exact issue_captures hd (exec_freqLoad_duplicate he hp h0 hx)
  · exact issue_captures hd (exec_freqLoad_overflow he hp h0 hx hf)

end Sys2Proof.Machine
end

section
/-! Decoding and encoding are inverse (30_encoding.md R57 to R60), and soundness holds at reset and over every step, so no sound
state ever stops (10_state.md R36). -/

namespace Sys2Proof.Machine

/-- Settles O1: the round trip of each constructor, and the one word each command has. -/
theorem decodeInvertsEncode : Obligations.DecodeInvertsEncode :=
  ⟨fun i _ => decode_encode i, fun _ _ => encode_of_decode⟩

/-- Settles O4: the ten words are those that `encode` gives their commands. -/
theorem specWordsDecode : Obligations.SpecWordsDecode :=
  ⟨decode_encode .nop, decode_encode .clear, decode_encode (.tabSym 0x61#8), decode_encode (.freqLoad 0xFF#8),
    decode_encode .buildTree, decode_encode .deriveCodes, decode_encode (.encSym 0x63#8), decode_encode (.decBit false),
    decode_encode (.decBit true), decode_encode .decEnd⟩

/-- Settles O50: a step is an effect on the state with its turn taken off, and each effect keeps soundness. -/
theorem everyStepKeepsSoundness : Obligations.EveryStepKeepsSoundness := fun _ _ h hs => step_inv hs h

/-- Settles O49: reset is a state under reset, with `rst` released. -/
theorem resetStateIsSound : Obligations.ResetStateIsSound := inv_reset

/-! ## Commands that answer a next state -/

/-- A gated command can stop only in its own rule, with no error recorded and in a legal phase (30_encoding.md R63). -/
theorem gated_next {i : Instr} {s : State} {body : Result}
    (h : s.err = .none → legalIn i s.phase = true → ∃ t, body = .next t) : ∃ t, gated i s body = .next t := by
  rcases gated_cases i s body with ⟨-, hg⟩ | ⟨-, -, hg⟩ | ⟨he, hl, hg⟩
  · exact ⟨_, hg⟩
  · exact ⟨_, hg⟩
  · rw [hg]
    exact h he hl

/-- With a tree, DEC_BIT's move is defined and raises no error: DEC_PTR names an internal node that is in use (10_state.md R32;
45_decoder.md R84). -/
theorem State.RegistersSound.exec_decBit {s : State} (h : s.RegistersSound) (he : s.err = .none) (hp : s.phase ≠ .collect)
    (hn : s.root ≠ nilId) (b : Bool) : ∃ t, exec (.decBit b) s = .next t ∧ t.err = .none := by
  cases hl : isLeaf s.root with
  | true => exact ⟨_, exec_decBit_leafRoot he hp hl, he⟩
  | false =>
    obtain ⟨-, k, hk, hd⟩ := h.decPtr_lt_nint hp hn hl
    have hk255 : k < 255 := by
      have hnint : s.nint.toNat = (presentSyms s.freq).length - 1 :=
        (congrArg (fun t => t.nint.toNat) (h.builtTree hp)).trans (buildTree_nint _)
      have hle := length_presentSyms_le s.freq
      omega
    exact ⟨_, exec_decBit_move he hp hn hl (hd ▸ internalIx_internalId hk255), by rw [arriveAt_err, he]⟩

/-- Settles O25: a sound state with a present symbol has a root other than NIL. -/
theorem decBitCompletesInSoundStates : Obligations.DecBitCompletesInSoundStates := by
  intro b s h he hp hsym
  refine h.registersSound.exec_decBit he hp (fun hnil => hsym ?_) b
  have hroot : rootOf (presentSyms s.freq) = nilId := (congrArg Tree.root (h.builtTree hp)).symm.trans hnil
  have hle := length_presentSyms_le s.freq
  rcases presentSyms_cases s.freq with hnone | ⟨x, hone⟩ | htwo
  · rw [State.nsym, hnone, List.length_nil]
  · rw [hone] at hroot
    exact absurd hroot (leafId_ne_nilId x)
  · rw [rootOf_two htwo] at hroot
    exact absurd hroot (internalId_ne_nilId (by omega))

/-- In a sound state every command answers a next state: DEC_BIT and DERIVE_CODES alone have a fault, and the tree a sound
state holds rules it out (10_state.md R32, R36). -/
theorem State.RegistersSound.exec_next {s : State} (h : s.RegistersSound) (i : Instr) : ∃ t, exec i s = .next t := by
  cases i with
  | nop => exact ⟨_, exec_nop s⟩
  | clear => exact ⟨_, exec_clear s⟩
  | tabSym x => exact gated_next fun _ _ => by split <;> exact ⟨_, rfl⟩
  | freqLoad x => exact gated_next fun _ _ => by split_ifs <;> exact ⟨_, rfl⟩
  | buildTree => exact gated_next fun _ _ => ⟨_, rfl⟩
  | deriveCodes =>
    refine gated_next fun _ hl => ?_
    obtain ⟨c, hc⟩ := deriveCodes_buildTree_isSome s.freq
    have hp : s.phase = .tree := by simpa [legalIn] using hl
    rw [h.builtTree (by simp [hp]), hc]
    exact ⟨_, rfl⟩
  | encSym x => exact gated_next fun _ _ => by split <;> exact ⟨_, rfl⟩
  | decBit b =>
    by_cases hrun : s.err = .none ∧ s.phase ≠ .collect ∧ s.root ≠ nilId
    · obtain ⟨he, hp, hn⟩ := hrun
      obtain ⟨t, ht, -⟩ := h.exec_decBit he hp hn b
      exact ⟨t, ht⟩
    · refine gated_next fun he hl => ?_
      have hp : s.phase ≠ .collect := by simpa [legalIn] using hl
      rw [if_pos (not_not.1 fun hn => hrun ⟨he, hp, hn⟩)]
      exact ⟨_, rfl⟩
  | decEnd => exact gated_next fun _ _ => by split <;> exact ⟨_, rfl⟩

theorem State.RegistersSound.issue_next {s : State} (h : s.RegistersSound) (w : Word) : ∃ t, issue w s = .next t := by
  cases hd : decode w with
  | ok i =>
    rw [issue_of_decode hd]
    exact h.exec_next i
  | error e =>
    by_cases he : s.err = .none
    · exact ⟨_, issue_illegal_raises hd he⟩
    · exact ⟨_, issue_illegal_discarded hd he⟩

/-! ## Steps that answer a next state -/

/-- Only a command could keep a request from its next state (20_memory.md R44 to R47, R51). -/
theorem State.RegistersSound.accept_next {s : State} (h : s.RegistersSound) (r : BusReq) : ∃ t, accept r s = .next t := by
  unfold accept
  split
  · exact ⟨_, rfl⟩
  split
  · unfold acceptWrite
    split
    · obtain ⟨t, ht⟩ := h.issue_next r.wdata
      rw [ht]
      exact ⟨_, rfl⟩
    · exact ⟨_, rfl⟩
    · exact ⟨_, rfl⟩
  · exact ⟨_, rfl⟩

theorem State.Inv.hostTurn_next {s : State} (h : s.Inv) : ∃ t, hostTurn s = .next t := by
  unfold hostTurn
  split
  · exact ⟨_, rfl⟩
  split
  · exact ⟨_, rfl⟩
  · next r rs _ => exact (h.environment rs s.turns).registersSound.accept_next r

theorem State.Inv.step_next {s : State} (h : s.Inv) : ∃ t, step s = .next t := by
  unfold step
  split
  · exact h.hostTurn_next
  · next u ts _ =>
    cases u with
    | host => exact (h.environment s.requests ts).hostTurn_next
    | _ => exact ⟨_, rfl⟩

/-- Settles O52: every reachable state is sound, and a sound state's step and commands answer a next state. -/
theorem reachableStatesNeverStop : Obligations.ReachableStatesNeverStop :=
  have hsound : ∀ s : State, s.Inv → (∃ t, step s = .next t) ∧ ∀ i : Instr, ∃ t, exec i s = .next t :=
    fun _ h => ⟨h.step_next, h.registersSound.exec_next⟩
  ⟨hsound, fun s hr => hsound s hr.inv⟩

end Sys2Proof.Machine
end

section
/-! What commands leave in the registers and in the window (40_control.md R67; 41_tabulator.md R71; 42_tree_builder.md R76;
20_memory.md R39), and the words that each command may change. -/

namespace Sys2Proof.Machine

/-! ## The window after CLEAR -/

/-- CLEAR gives every register but ARG its reset value (40_control.md R67; 70_reset_and_hazards.md R112). -/
theorem readReg_cleared {r : WindowReg} (h : r ≠ .arg) (s : State) : readReg s.cleared r = readReg State.reset r := by
  cases r with
  | arg => exact absurd rfl h
  | _ => rfl

/-- Settles O11: a window word reads the register that stands there. -/
theorem clearedWindowReadsAsAfterReset : Obligations.ClearedWindowReadsAsAfterReset := by
  intro s t a h ha
  cases h
  exact readReg_cleared ha s

/-! ## FREQ_LOAD -/

/-- Settles O13: the format is that of the row of `OP = 0x03`; an absent symbol's count becomes ARG while the sum fits, and
each check that fails has its error. -/
theorem freqLoadStoresArg : Obligations.FreqLoadStoresArg := by
  refine ⟨fun x => ?_, fun x s he hp => ⟨fun h0 hx hfit => ?_, exec_freqLoad_badCount he hp,
    exec_freqLoad_duplicate he hp, exec_freqLoad_overflow he hp⟩⟩
  · exact followsItsFormat_of_row (r := ⟨0x03, 0x03000000#32, 0xFFFFFF00#32⟩) (by decide) rfl (encode_of_symOperand rfl)
      (by decide) (by simp) (by simp) (by simp [legalIn])
  · refine ⟨s.setFreq x s.arg, exec_freqLoad_run he hp h0 hx hfit, ?_, fun y hy => ?_, totalOf_freqLoad s.freq x s.arg hx, ?_, rfl⟩
    · rw [State.setFreq_freqAt, if_pos rfl]
    · rw [State.setFreq_freqAt, if_neg hy]
    · rw [s.setFreq_nsym x h0, if_pos hx]

/-! ## BUILD_TREE -/

theorem buildTree_root_none {f : Vector Word 256} (h : (presentSyms f).length = 0) : (buildTree f).root = nilId := by
  rw [buildTree_root, List.length_eq_zero_iff.1 h, rootOf]

/-- The root of a degenerate tree is the leaf of the one present symbol (42_tree_builder.md R76). -/
theorem buildTree_root_one {f : Vector Word 256} (h : (presentSyms f).length = 1) {x : Sym} (hx : symGet f x ≠ 0#32) :
    (buildTree f).root = leafId x := by
  obtain ⟨y, hy⟩ := List.length_eq_one_iff.1 h
  have hxy : x ∈ presentSyms f := (mem_presentSyms f x).2 hx
  rw [hy, List.mem_singleton] at hxy
  rw [buildTree_root, hy, hxy, rootOf]

theorem toNat_buildTree_root_two {f : Vector Word 256} (h : 2 ≤ (presentSyms f).length) :
    (buildTree f).root.toNat = 256 + ((presentSyms f).length - 2) := by
  have hle := length_presentSyms_le f
  rw [buildTree_root, rootOf_two h, toNat_internalId (by omega)]

theorem buildTree_nint_zero {f : Vector Word 256} (h : (presentSyms f).length ≤ 1) : (buildTree f).nint = 0#8 := by
  apply BitVec.eq_of_toNat_eq
  rw [buildTree_nint, BitVec.toNat_zero]
  omega

/-- The node arrays hold the merged nodes, none of whose ids or sums is too wide for its register (42_tree_builder.md R76: "it
cannot wrap"). -/
theorem buildTree_node {f : Vector Word 256} (ht : totalOf f ≤ 2 ^ 32 - 1) {k : Fin 255}
    (hk : k.val < (buildTree f).nint.toNat) :
    ∃ m, (mergedNodes f)[k.val]? = some m ∧ (nodeGet (buildTree f).left k).toNat = m.left ∧
      (nodeGet (buildTree f).right k).toNat = m.right ∧ (nodeGet (buildTree f).freq k).toNat = m.f := by
  rw [buildTree_nint] at hk
  have hlt : k.val < (mergedNodes f).length := by rwa [length_mergedNodes (by omega)]
  obtain ⟨hleft, hright⟩ := buildTree_child hlt
  rw [Tree.child, if_neg Bool.false_ne_true] at hleft
  rw [Tree.child, if_pos rfl] at hright
  obtain ⟨hlold, hrold⟩ := mergedNodes_older hlt
  have hsum := mergedNodes_freq_le hlt
  have hk255 := k.isLt
  refine ⟨(mergedNodes f)[k.val], List.getElem?_eq_getElem hlt, ?_, ?_, ?_⟩
  · rw [hleft, BitVec.toNat_ofNat, Nat.mod_eq_of_lt (by omega)]
  · rw [hright, BitVec.toNat_ofNat, Nat.mod_eq_of_lt (by omega)]
  · rw [buildTree_freq hlt, BitVec.toNat_ofNat, Nat.mod_eq_of_lt (by omega)]

/-- Settles O17: the tree registers are `buildTree` of FREQ, whose arrays are those of the merge loop. -/
theorem buildTreeBuildsFromTheTable : Obligations.BuildTreeBuildsFromTheTable := by
  refine ⟨?_, fun s he hp => ⟨_, exec_buildTree_run he hp, fun h0 => ?_, fun h1 => ?_, fun h2 => ?_, fun ht k => ?_,
    fun k => ?_, rfl, rfl, rfl⟩⟩
  · exact followsItsFormat_of_row (r := ⟨0x04, 0x04000000#32, 0xFFFFFFFF#32⟩) (by decide) rfl rfl (by decide) (by simp)
      (by simp) (by simp [legalIn])
  · exact ⟨buildTree_root_none h0, buildTree_nint_zero (Nat.le_succ_of_le h0.le)⟩
  · exact ⟨fun x hx => (congrArg BitVec.toNat (buildTree_root_one h1 hx)).trans (toNat_leafId x),
      buildTree_nint_zero h1.le⟩
  · exact ⟨toNat_buildTree_root_two h2, buildTree_nint s.freq⟩
  · exact buildTree_node ht
  · exact buildTree_unused

/-! ## The control registers -/

/-- ERR reads its code (20_memory.md R39; 60_exceptions.md R98). -/
theorem memRead_err {s : State} {e : ErrCode} (h : s.err = e) : memRead s 0x0008#14 = e.code.setWidth 32 :=
  congrArg (fun c => ErrCode.code c |>.setWidth 32) h

theorem toNat_memRead_nsym (s : State) : (memRead s 0x001C#14).toNat = s.nsym := by
  have hle : s.nsym ≤ 256 := length_presentSyms_le s.freq
  exact (BitVec.toNat_ofNat _ _).trans (Nat.mod_eq_of_lt (by omega))

/-- A narrower register reads its value, below zeros (20_memory.md R39). -/
theorem toNat_setWidth_word {n : Nat} (hn : n ≤ 32) (v : BitVec n) : (v.setWidth 32).toNat = v.toNat :=
  BitVec.toNat_setWidth_of_le hn

/-- The two halves of ENC_BITCNT make up its value (10_state.md R33). -/
theorem bitCount_eq (s : State) : bitCount s = s.encBitcnt.toNat := by
  have hlt := s.encBitcnt.isLt
  have hlo : (memRead s 0x0030#14).toNat = s.encBitcnt.toNat % 2 ^ 32 := by
    show (s.encBitcnt.extractLsb' 0 32).toNat = _
    rw [BitVec.extractLsb'_toNat, Nat.shiftRight_zero]
  have hhi : (memRead s 0x0034#14).toNat = s.encBitcnt.toNat / 2 ^ 32 := by
    show (s.encBitcnt.extractLsb' 32 32).toNat = _
    rw [BitVec.extractLsb'_toNat, Nat.shiftRight_eq_div_pow, Nat.mod_eq_of_lt (by omega)]
  rw [bitCount, hlo, hhi]
  omega

/-- Settles O31: each address stands for its register, and no value is too wide for the word. -/
theorem controlRegistersRead : Obligations.ControlRegistersRead := by
  refine fun s => ⟨rfl, ⟨memRead_err, memRead_err, memRead_err, memRead_err, memRead_err, memRead_err, memRead_err,
    memRead_err, memRead_err⟩, rfl, rfl, rfl, rfl, toNat_memRead_nsym s, fun ht => ?_, toNat_setWidth_word (by decide) s.root,
    toNat_setWidth_word (by decide) s.nint, toNat_setWidth_word (by decide) s.decPtr, bitCount_eq s⟩
  exact (BitVec.toNat_ofNat _ _).trans (Nat.mod_eq_of_lt (by omega))

/-! ## The words a command may change -/

/-- A command that raises no error changes what its rule lets it change (the "State written" lines). -/
theorem Effect.readReg_eq {s t : State} {i : Instr} (h : Effect s i t) (hq : t.err = s.err ∨ i = .clear) {r : WindowReg}
    (hr : ¬ mayChange i r) : readReg t r = readReg s r := by
  cases h with
  | same => rfl
  | clear =>
    cases r with
    | arg | id | cmd | reserved => rfl
    | _ => simp [mayChange] at hr
  | error he hne _ hc =>
    rcases hq with hkeep | rfl
    · exact absurd (hkeep.trans he) hne
    · exact absurd rfl hc
  | tabSym x =>
    cases r with
    | freq y => exact symGet_symSet_ne _ _ (by simpa [mayChange] using hr)
    | nsym | total => simp [mayChange] at hr
    | _ => rfl
  | freqLoad x =>
    cases r with
    | freq y => exact symGet_symSet_ne _ _ (by simpa [mayChange] using hr)
    | nsym | total => simp [mayChange] at hr
    | _ => rfl
  | buildTree =>
    cases r with
    | status | root | nint | decPtr | nodeLink k | nodeFreq k => simp [mayChange] at hr
    | _ => rfl
  | deriveCodes =>
    cases r with
    | status | codeLen x | codeBits x w => simp [mayChange] at hr
    | _ => rfl
  | encSym =>
    cases r with
    | encBitcntLo | encBitcntHi => simp [mayChange] at hr
    | _ => rfl
  | decLeafRoot => cases r <;> rfl
  | decArrive =>
    unfold arriveAt
    split <;> cases r with
    | status | decPtr => simp [mayChange] at hr
    | _ => rfl

/-- An error capture changes ERR, ERRCMD, ERRARG and the bit of STATUS that shows an error (60_exceptions.md R99). -/
theorem readReg_captured (s : State) (e : ErrCode) (w : Word) {r : WindowReg} (herr : r ≠ .err) (hcmd : r ≠ .errcmd)
    (harg : r ≠ .errarg) (hstatus : r ≠ .status) : readReg (s.captured e w) r = readReg s r := by
  cases r with
  | err | errcmd | errarg | status => contradiction
  | _ => rfl

/-- Only ENC_SYM appends to `obit`, only DEC_BIT to `osym` (10_state.md R34). -/
theorem Effect.streams_eq {s t : State} {i : Instr} (h : Effect s i t) :
    ((∀ x, i ≠ .encSym x) → t.obit = s.obit) ∧ ((∀ b, i ≠ .decBit b) → t.osym = s.osym) := by
  cases h with
  | encSym x => exact ⟨fun hi => absurd rfl (hi x), fun _ => rfl⟩
  | decLeafRoot b => exact ⟨fun _ => rfl, fun hi => absurd rfl (hi b)⟩
  | decArrive b =>
    refine ⟨fun _ => ?_, fun hi => absurd rfl (hi b)⟩
    unfold arriveAt
    split <;> rfl
  | _ => exact ⟨fun _ => rfl, fun _ => rfl⟩

/-- Settles O29: what a command did is one of its effects, each with its frame. -/
theorem commandsChangeOnlyTheirWords : Obligations.CommandsChangeOnlyTheirWords := by
  intro i s t h
  have hx := exec_effect h
  obtain ⟨hobit, hosym⟩ := hx.streams_eq
  refine ⟨fun hq a => hx.readReg_eq hq, fun hne hc a herr hcmd harg hstatus => ?_, hobit, hosym, hx.outside⟩
  rcases effect_err hx with hkeep | hclear | ⟨-, -, hcap⟩
  · exact absurd hkeep hne
  · exact absurd hclear hc
  · rw [hcap]
    exact readReg_captured s t.err (encode i) herr hcmd harg hstatus

end Sys2Proof.Machine
end

section
/-! The derived codes are prefix-free and fill Kraft's budget (43_code_deriver.md R80), the Decoder reads them back (45_decoder.md
R87), and it does not interfere with the Encoder (70_reset_and_hazards.md R122). -/

namespace Sys2Proof.Machine

/-! ## Codes -/

theorem State.Inv.derivedFromTable {s : State} (h : s.Inv) (hp : s.phase = .coded) :
    deriveCodes (buildTree s.freq) = some s.codes := by
  rw [← h.builtTree (by simp [hp]), h.derivedCodes hp]

/-- The one present symbol has the code "0" (43_code_deriver.md R80 item 6). -/
theorem derived_code_one {f : Vector Word 256} {c : CodeTable} (h : deriveCodes (buildTree f) = some c) {x : Sym}
    (hx : presentSyms f = [x]) : c.code x = [false] ∧ (symGet c.len x).toNat = 1 := by
  rw [deriveCodes_buildTree_one hx, Option.some.injEq] at h
  subst h
  exact record_same CodeTable.zero x (by simp)

/-- With two or more present symbols the codes are the paths of one binary tree, over the present symbols. -/
theorem derived_paths {f : Vector Word 256} {c : CodeTable} (h : deriveCodes (buildTree f) = some c)
    (h2 : 2 ≤ (presentSyms f).length) : ∃ t : HTree, t.leaves.Perm (presentSyms f) ∧ t.depth ≤ 255 ∧
      ∀ p ∈ t.paths [], c.code p.1 = p.2 ∧ (symGet c.len p.1).toNat = p.2.length := by
  obtain ⟨t, -, hperm, -, hdepth, hderive⟩ := deriveCodes_buildTree_two h2
  exact ⟨t, hperm, hdepth, (codes_of_paths hperm hdepth (Option.some.inj (h.symm.trans hderive))).1⟩

/-- No code is the beginning of another symbol's (43_code_deriver.md R80 item 3). -/
theorem derived_prefixFree {f : Vector Word 256} {c : CodeTable} (h : deriveCodes (buildTree f) = some c) {x y : Sym}
    (hx : symGet f x ≠ 0#32) (hy : symGet f y ≠ 0#32) (hpre : c.code x <+: c.code y) : x = y := by
  rcases presentSyms_cases f with hnone | ⟨z, hone⟩ | htwo
  · have hmem := (mem_presentSyms f x).2 hx
    simp [hnone] at hmem
  · have hmem : ∀ w, symGet f w ≠ 0#32 → w = z := fun w hw => by simpa [hone] using (mem_presentSyms f w).2 hw
    rw [hmem x hx, hmem y hy]
  · obtain ⟨t, hperm, -, hcodes⟩ := derived_paths h htwo
    obtain ⟨p, hp, rfl⟩ := path_of_present hperm hx
    obtain ⟨q, hq, rfl⟩ := path_of_present hperm hy
    rw [(hcodes p hp).1, (hcodes q hq).1] at hpre
    rw [HTree.paths_prefixFree t [] p hp q hq hpre]

/-- Settles O20: in CODED the table is the one derived from the tree built from FREQ. -/
theorem codeTableIsPrefixFree : Obligations.CodeTableIsPrefixFree := by
  intro s h hp
  have hd := h.derivedFromTable hp
  refine ⟨h.code_iff_present hp, fun x hx hnil => ?_, fun x y hx hy => derived_prefixFree hd hx hy, fun s' h' hp' ht => ?_,
    fun h1 x hx => ?_⟩
  · have hlen := s.length_code x
    rw [hnil, List.length_nil] at hlen
    exact (h.code_iff_present hp x).2 hx (BitVec.eq_of_toNat_eq hlen.symm)
  · have hsame : some s'.codes = some s.codes := by rw [← h'.derivedCodes hp', ht, h.derivedCodes hp]
    exact Option.some.inj hsame
  · obtain ⟨y, hy⟩ := List.length_eq_one_iff.1 h1
    have hxy : x ∈ presentSyms s.freq := (mem_presentSyms _ x).2 hx
    rw [hy, List.mem_singleton] at hxy
    rw [hxy]
    exact (derived_code_one hd hy).2

/-- Kraft's sum of a derived table is that of the paths of its tree (43_code_deriver.md R80 item 4). -/
theorem derived_kraft {f : Vector Word 256} {c : CodeTable} (h : deriveCodes (buildTree f) = some c)
    (h2 : 2 ≤ (presentSyms f).length) :
    ((presentSyms f).map (fun x => 2 ^ (255 - (symGet c.len x).toNat))).sum = 2 ^ 255 := by
  obtain ⟨t, hperm, hdepth, hcodes⟩ := derived_paths h h2
  calc ((presentSyms f).map (fun x => 2 ^ (255 - (symGet c.len x).toNat))).sum
      = (((t.paths []).map Prod.fst).map (fun x => 2 ^ (255 - (symGet c.len x).toNat))).sum := by
        rw [HTree.paths_syms]
        exact (hperm.map _).sum_eq.symm
    _ = ((t.paths []).map (fun p => 2 ^ (255 - p.2.length))).sum := by
        rw [List.map_map]
        exact congrArg List.sum (List.map_congr_left fun p hp => by simp only [Function.comp, (hcodes p hp).2])
    _ = 2 ^ 255 := t.paths_kraft [] 255 (by simpa using hdepth)

/-- Settles O21: the sum over the paths of a binary tree, the one code of length 1, or no code. -/
theorem codeLengthsMeetKraftEquality : Obligations.CodeLengthsMeetKraftEquality := by
  intro s h hp
  have hd := h.derivedFromTable hp
  refine ⟨derived_kraft hd, fun h1 => ?_, fun h0 => ?_⟩
  · obtain ⟨y, hy⟩ := List.length_eq_one_iff.1 h1
    have hlen : (symGet s.codeLen y).toNat = 1 := (derived_code_one hd hy).2
    simp [State.kraftSum, hy, hlen]
  · simp [State.kraftSum, List.length_eq_zero_iff.1 h0]

/-! ## Decoding -/

theorem execAll_append (is js : List Instr) (s : State) :
    execAll (is ++ js) s = onNext (execAll is s) (execAll js) := by
  induction is generalizing s with
  | nil => rfl
  | cons i is ih =>
    rw [List.cons_append, execAll, execAll]
    cases exec i s with
    | next t => exact ih t
    | fault _ => rfl
    | refused _ => rfl

theorem follow_cons {t : Tree} {id : NodeId} {b : Bool} {bs : List Bool} {dest : NodeId}
    (h : t.follow id (b :: bs) = some dest) : ∃ k, internalIx id = some k ∧ t.follow (t.child k b) bs = some dest := by
  rw [Tree.follow] at h
  split at h
  · cases h
  · next k hk => exact ⟨k, hk, h⟩

/-- A leaf has no branches (10_state.md R29). -/
theorem follow_of_leaf {t : Tree} {id dest : NodeId} {bs : List Bool} (hl : isLeaf id = true)
    (h : t.follow id bs = some dest) : bs = [] ∧ id = dest := by
  cases bs with
  | nil => exact ⟨rfl, by simpa [Tree.follow] using h⟩
  | cons b bs =>
    obtain ⟨k, hk, -⟩ := follow_cons h
    rw [internalIx_of_leaf hl] at hk
    cases hk

/-- The bits of a path to a leaf move the decoder down to it, emit its symbol and put DEC_PTR back (45_decoder.md R84). -/
theorem execAll_path {s : State} (he : s.err = .none) (hp : s.phase ≠ .collect) (hn : s.root ≠ nilId)
    (hr : isLeaf s.root = false) {x : Sym} (bits : List Bool) {id : NodeId} (hid : isLeaf id = false)
    (h : s.tree.follow id bits = some (leafId x)) :
    execAll (bits.map .decBit) { s with decPtr := id } = .next { s.emitSym x with decPtr := s.root } := by
  induction bits generalizing id with
  | nil =>
    rw [Tree.follow, Option.some.injEq] at h
    rw [h, isLeaf_leafId] at hid
    cases hid
  | cons b bs ih =>
    obtain ⟨k, hk, hrest⟩ := follow_cons h
    have hmove : exec (.decBit b) { s with decPtr := id } = .next (arriveAt (s.tree.child k b) { s with decPtr := id }) :=
      exec_decBit_move he hp hn hr hk
    rw [List.map_cons, execAll, hmove, onNext_next]
    cases hchild : isLeaf (s.tree.child k b) with
    | true =>
      obtain ⟨rfl, hleaf⟩ := follow_of_leaf hchild hrest
      rw [arriveAt_of_leaf hchild, hleaf, leafSym_leafId]
      rfl
    | false =>
      rw [arriveAt_of_not_leaf hchild]
      exact ih hchild hrest

/-- From the root, the bits of a present symbol's code emit it and lead back to the root (45_decoder.md R87). -/
theorem execAll_code {s : State} {c : CodeTable} (he : s.err = .none) (hp : s.phase ≠ .collect)
    (hbuilt : s.tree = buildTree s.freq) (hd : s.decPtr = s.root) (hc : deriveCodes s.tree = some c) {x : Sym}
    (hx : s.freqAt x ≠ 0#32) : execAll ((c.code x).map .decBit) s = .next (s.emitSym x) := by
  have hderive : deriveCodes (buildTree s.freq) = some c := by rw [← hbuilt, hc]
  have hroot : s.root = (buildTree s.freq).root := congrArg Tree.root hbuilt
  have hself : ∀ u : State, u.decPtr = s.root → { u with decPtr := s.root } = u := fun u hu => by rw [← hu]
  rcases presentSyms_cases s.freq with hnone | ⟨y, hone⟩ | htwo
  · have hmem := (mem_presentSyms s.freq x).2 hx
    simp [hnone] at hmem
  · have hxr : s.root = leafId x := hroot.trans (buildTree_root_one (by rw [hone, List.length_singleton]) hx)
    have hxy : x = y := by simpa [hone] using (mem_presentSyms s.freq x).2 hx
    rw [(derived_code_one hderive (hxy ▸ hone)).1, List.map_singleton, execAll,
      exec_decBit_leafRoot he hp (by rw [hxr, isLeaf_leafId]), hxr, leafSym_leafId]
    rfl
  · have hlast : s.root = internalId ((presentSyms s.freq).length - 2) := by rw [hroot, buildTree_root, rootOf_two htwo]
    have hle := length_presentSyms_le s.freq
    have hnode : isLeaf s.root = false := by rw [hlast, isLeaf_internalId (by omega)]
    have hnil : s.root ≠ nilId := by rw [hlast]; exact internalId_ne_nilId (by omega)
    have hinternal : isInternal (buildTree s.freq).root = true := by
      rw [← hroot, hlast, isInternal, toNat_internalId (by omega)]
      exact decide_eq_true (by omega)
    obtain ⟨-, -, hpath⟩ := derived_of_internal_root hderive hinternal hx
    rw [← hbuilt, show s.tree.root = s.root from rfl] at hpath
    have hrun := execAll_path he hp hnil hnode _ hnode hpath
    rwa [hself s hd, hself (s.emitSym x) hd] at hrun

/-- The codes of a stream, one after another, emit the stream (45_decoder.md R87). -/
theorem execAll_codes {c : CodeTable} (xs : List Sym) {s : State} (he : s.err = .none) (hp : s.phase ≠ .collect)
    (hbuilt : s.tree = buildTree s.freq) (hd : s.decPtr = s.root) (hc : deriveCodes s.tree = some c)
    (hxs : ∀ x ∈ xs, s.freqAt x ≠ 0#32) :
    execAll ((xs.flatMap c.code).map .decBit) s = .next { s with osym := s.osym ++ xs } := by
  induction xs generalizing s with
  | nil =>
    rw [List.append_nil]
    rfl
  | cons x xs ih =>
    obtain ⟨hx, hrest⟩ := List.forall_mem_cons.1 hxs
    rw [List.flatMap_cons, List.map_append, execAll_append, execAll_code he hp hbuilt hd hc hx, onNext_next,
      ih (s := s.emitSym x) he hp hbuilt hd hc hrest, State.emitSym_osym, List.append_assoc]
    rfl

/-- Settles O27: the codes of the stream, then DEC_END at the root. -/
theorem decoderReproducesTheStream : Obligations.DecoderReproducesTheStream := by
  intro s c xs h he hp hd hc hxs
  rw [execAll_append, execAll_codes xs he hp (h.builtTree hp) hd hc hxs, onNext_next, execAll,
    exec_decEnd_run (s := { s with osym := s.osym ++ xs }) he hp hd]
  rfl

/-! ## The two sides do not interfere -/

/-- ENC_SYM does not touch what the decoder reads and writes (44_encoder.md R81). -/
theorem exec_encSym_keeps {x : Sym} {s t : State} (h : exec (.encSym x) s = .next t) :
    t.decPtr = s.decPtr ∧ t.osym = s.osym ∧ t.tree = s.tree := by
  cases exec_effect h <;> exact ⟨rfl, rfl, rfl⟩

/-- DEC_BIT does not touch what the encoder reads and writes (45_decoder.md R84). -/
theorem exec_decBit_keeps {b : Bool} {s t : State} (h : exec (.decBit b) s = .next t) :
    t.encBitcnt = s.encBitcnt ∧ t.obit = s.obit ∧ t.codes = s.codes ∧ t.phase = s.phase := by
  cases exec_effect h with
  | decArrive =>
    unfold arriveAt
    split <;> exact ⟨rfl, rfl, rfl, rfl⟩
  | _ => exact ⟨rfl, rfl, rfl, rfl⟩

/-- A command other than CLEAR that leaves no error found none (60_exceptions.md R102). -/
theorem err_none_of_exec {i : Instr} {s t : State} (hc : i ≠ .clear) (h : exec i s = .next t) (ht : t.err = .none) :
    s.err = .none := by
  rcases effect_err (exec_effect h) with hkeep | hclear | ⟨he, -, -⟩
  · exact hkeep.symm.trans ht
  · exact absurd hclear hc
  · exact he

/-- ENC_SYM leaves no error only by emitting a code (44_encoder.md R81). -/
theorem exec_encSym_completed {x : Sym} {s t : State} (h : exec (.encSym x) s = .next t) (ht : t.err = .none) :
    s.err = .none ∧ s.phase = .coded ∧ symGet s.codeLen x ≠ 0#8 ∧ t = s.emitCounted (s.code x) := by
  have he := err_none_of_exec (by simp) h ht
  have hp : s.phase = .coded := by
    by_contra hne
    cases (exec_illegal (.encSym x) s he (by simpa [legalIn] using hne)).symm.trans h
    cases ht
  have hl : symGet s.codeLen x ≠ 0#8 := fun h0 => by
    cases (exec_encSym_missing he hp h0).symm.trans h
    cases ht
  cases (exec_encSym_emitCounted he hp hl).symm.trans h
  exact ⟨he, hp, hl, rfl⟩

/-! ## Commands that do not look at a change -/

/-- A gated command does not look at what `g` changes, if its own rule does not: `g` leaves PHASE and ERR, and the capture
leaves what `g` changes (30_encoding.md R63). -/
theorem gated_map {i : Instr} {g : State → State} {s : State} {body body' : Result} (he : (g s).err = s.err)
    (hp : (g s).phase = s.phase) (hcap : ∀ e w, (g s).captured e w = g (s.captured e w))
    (hbody : body' = onNext body (fun t => .next (g t))) :
    gated i (g s) body' = onNext (gated i s body) (fun t => .next (g t)) := by
  rcases gated_cases i s body with ⟨hne, hg⟩ | ⟨hq, hl, hg⟩ | ⟨hq, hl, hg⟩ <;> rw [hg]
  · rw [gated_discard _ (by rwa [he]), onNext_next]
  · rw [gated_illegal _ (by rwa [he]) (by rwa [hp]), onNext_next, hcap]
  · rw [gated_run _ (by rwa [he]) (by rwa [hp]), hbody]

theorem onNext_ite {c : Prop} [Decidable c] (r r' : Result) (f : State → Result) :
    (if c then onNext r f else onNext r' f) = onNext (if c then r else r') f :=
  (apply_ite (fun q => onNext q f) c r r').symm

theorem arriveAt_emitCounted (n : NodeId) (s : State) (bits : List Bool) :
    arriveAt n (s.emitCounted bits) = (arriveAt n s).emitCounted bits := by
  unfold arriveAt
  split <;> rfl

/-- DEC_BIT does the same whether or not bits were emitted before it: it reads none of what the encoder writes
(70_reset_and_hazards.md R122). -/
theorem exec_decBit_emitCounted (b : Bool) (s : State) (bits : List Bool) :
    exec (.decBit b) (s.emitCounted bits) = onNext (exec (.decBit b) s) (fun t => .next (t.emitCounted bits)) := by
  refine gated_map (g := fun t => t.emitCounted bits) rfl rfl (fun _ _ => rfl) ?_
  rw [← onNext_ite, ← onNext_ite]
  congr 2
  have hmove : ∀ k, arriveAt (s.tree.child k b) (s.emitCounted bits) = (arriveAt (s.tree.child k b) s).emitCounted bits :=
    fun k => arriveAt_emitCounted _ s bits
  show (match internalIx s.decPtr with
    | some k => .next (arriveAt (s.tree.child k b) (s.emitCounted bits))
    | none => .fault .decPtrNotInternal : Result) = _
  cases internalIx s.decPtr with
  | some k => exact congrArg _ (hmove k)
  | none => rfl

/-- A state with the codes of another encodes a symbol as the other does. -/
theorem exec_encSym_of_codes {x : Sym} {s v : State} (he : v.err = .none) (hp : v.phase = .coded)
    (hcodes : v.codes = s.codes) (hl : symGet s.codeLen x ≠ 0#8) :
    exec (.encSym x) v = .next (v.emitCounted (s.code x)) := by
  have hlen : v.codeLen = s.codeLen := congrArg CodeTable.len hcodes
  rw [exec_encSym_emitCounted he hp (by rwa [hlen]), State.code, hcodes, State.code]

theorem execAll_pair {i j : Instr} {s t : State} :
    execAll [i, j] s = .next t ↔ ∃ u, exec i s = .next u ∧ exec j u = .next t := by
  simp only [execAll, onNext_eq_next, Host.Outcome.next.injEq, exists_eq_right]

/-- Settles O28: the frames, and DEC_BIT commutes with emitting counted bits, which is all that a completed ENC_SYM does. -/
theorem encoderAndDecoderDoNotInterfere : Obligations.EncoderAndDecoderDoNotInterfere := by
  refine ⟨fun x s t => exec_encSym_keeps, fun b s t h => ?_, fun x b s t ht => ?_⟩
  · obtain ⟨hcnt, hobit, hcodes, -⟩ := exec_decBit_keeps h
    exact ⟨hcnt, hobit, hcodes⟩
  rw [execAll_pair, execAll_pair]
  constructor
  · rintro ⟨u, henc, hdec⟩
    obtain ⟨-, hp, hl, rfl⟩ := exec_encSym_completed henc (err_none_of_exec (by simp) hdec ht)
    rw [exec_decBit_emitCounted, onNext_eq_next] at hdec
    obtain ⟨v, hdec, hv⟩ := hdec
    cases hv
    obtain ⟨-, -, hcodes, hphase⟩ := exec_decBit_keeps hdec
    exact ⟨v, hdec, exec_encSym_of_codes ht (hphase.trans hp) hcodes hl⟩
  · rintro ⟨v, hdec, henc⟩
    obtain ⟨hv, hp, hl, rfl⟩ := exec_encSym_completed henc ht
    obtain ⟨-, -, hcodes, hphase⟩ := exec_decBit_keeps hdec
    have he := err_none_of_exec (by simp) hdec hv
    refine ⟨_, exec_encSym_of_codes he (hphase.symm.trans hp) hcodes.symm hl, ?_⟩
    rw [exec_decBit_emitCounted, hdec, onNext_next]

end Sys2Proof.Machine
end

section
/-! What a step can do to the registers and the streams, said once, and from it what changes each of them (10_state.md R16, R20,
R21, R24, R34); the answers to reads and to writes of ARG (20_memory.md R44, R45, R49). -/

namespace Sys2Proof.Machine

/-! ## Reads and ARG -/

theorem accept_of_read {r : BusReq} (hm : r.malformed = false) (hw : r.write = false) (s : State) :
    accept r s = .next (s.respond ⟨memRead s r.addr, false⟩) := by
  rw [accept, if_neg (by simp [hm]), if_neg (by simp [hw])]

/-- Settles O34: a response is all that a read adds to the state. -/
theorem readsHaveNoSideEffect : Obligations.ReadsHaveNoSideEffect := by
  intro r s hw hbe hal
  have hm : r.malformed = false := by simp [BusReq.malformed, hbe, hal]
  exact ⟨_, accept_of_read hm hw s, rfl, fun _ => rfl⟩

/-- Settles O35: the check of ERR stands in the commands, so the write to ARG meets none. -/
theorem argWriteStoresTheData : Obligations.ArgWriteStoresTheData := fun s v => ⟨_, accept_arg v s, rfl, rfl⟩

/-! ## The block's registers and streams -/

/-- The registers and streams of 10_state.md R13 alone: `s` with what lies outside the block's registers blanked. -/
def State.block (s : State) : State :=
  { s with
    obitTaken := 0, osymTaken := 0, obitPast := [], osymPast := [], busy := false, rst := false
    requests := [], responses := [], turns := [], freeIx := 0 }

theorem block_respond (s : State) (p : BusRsp) : (s.respond p).block = s.block := rfl

theorem block_finishCommand (s : State) : s.finishCommand.block = s.block := by
  rcases finishCommand_cases s with ⟨-, h⟩ | ⟨-, h⟩ <;> rw [h] <;> rfl

theorem block_settle (s : State) : s.settle.block = s.block := by
  rcases settle_cases s with ⟨-, -, h⟩ | ⟨-, h⟩ <;> rw [h]
  rfl

section
variable {s t : State} (h : t.block = s.block)
include h

theorem arg_of_block : t.arg = s.arg := (congrArg State.arg h :)
theorem phase_of_block : t.phase = s.phase := (congrArg State.phase h :)
theorem freq_of_block : t.freq = s.freq := (congrArg State.freq h :)

theorem errors_of_block : t.err = s.err ∧ t.errcmd = s.errcmd ∧ t.errarg = s.errarg :=
  ⟨(congrArg State.err h :), (congrArg State.errcmd h :), (congrArg State.errarg h :)⟩

theorem streams_of_block : t.obit = s.obit ∧ t.osym = s.osym :=
  ⟨(congrArg State.obit h :), (congrArg State.osym h :)⟩

end

/-- What a step can do to the registers and streams: a reset, a command that the host issues, a write to ARG, or nothing. -/
inductive BlockEffect (s : State) (t : State) : Prop where
  | reset (h : t.IsUnderReset)
  | command {r : BusReq} {rs : List BusReq} {u : State} (hq : s.requests = r :: rs) (hw : r.write = true)
      (hbe : r.be = 0xF#4) (ha : r.addr = cmdAddr)
      (hi : issue r.wdata { s with requests := rs, turns := s.turns.tail } = .next u) (h : t.block = u.block)
  | arg {r : BusReq} {rs : List BusReq} (hq : s.requests = r :: rs) (hw : r.write = true) (hbe : r.be = 0xF#4)
      (ha : r.addr = argAddr) (h : t.block = ({ s with arg := r.wdata } : State).block)
  | same (h : t.block = s.block)

theorem step_blockEffect {s t : State} (h : step s = .next t) : BlockEffect s t := by
  cases step_effect h with
  | wait => exact .same rfl
  | accept _ _ hq ha =>
    cases ha with
    | refused => exact .same rfl
    | read => exact .same rfl
    | ignored => exact .same rfl
    | arg hm hw ha => exact .arg hq hw (malformed_false hm).1 ha rfl
    | command hm hw ha hi => exact .command hq hw (malformed_false hm).1 ha hi (block_finishCommand _)
  | takeObit => exact .same (block_settle _)
  | takeOsym => exact .same (block_settle _)
  | assertReset => exact .reset (assertReset_isUnderReset _)
  | cutByReset n m => exact .reset (cutByReset_isUnderReset n m _)
  | releaseReset => exact .same rfl

theorem State.IsUnderReset.rst {t : State} (h : t.IsUnderReset) : t.rst = true := by
  obtain ⟨bs, xs, rs, ps, ts, n, rfl⟩ := h
  rfl

theorem State.IsUnderReset.idle {t : State} (h : t.IsUnderReset) : t.busy = false := by
  obtain ⟨bs, xs, rs, ps, ts, n, rfl⟩ := h
  rfl

theorem State.IsUnderReset.noItems {t : State} (h : t.IsUnderReset) :
    t.obit = [] ∧ t.osym = [] ∧ t.obitTaken = 0 ∧ t.osymTaken = 0 := by
  obtain ⟨bs, xs, rs, ps, ts, n, rfl⟩ := h
  exact ⟨rfl, rfl, rfl, rfl⟩

/-! ## What changes each register -/

/-- Settles O42: commands only append, and reset empties. -/
theorem streamsOnlyGrow : Obligations.StreamsOnlyGrow := by
  intro s t h
  cases step_blockEffect h with
  | reset h =>
    obtain ⟨hobit, hosym, -⟩ := h.noItems
    exact .inl ⟨h.rst, hobit, hosym⟩
  | command _ _ _ _ hi h =>
    obtain ⟨-, -, -, -, hobit, hosym⟩ := issue_outside hi
    right
    rw [(streams_of_block h).1, (streams_of_block h).2]
    exact ⟨hobit, hosym⟩
  | arg _ _ _ _ h =>
    rw [(streams_of_block h).1, (streams_of_block h).2]
    exact .inr ⟨List.prefix_rfl, List.prefix_rfl⟩
  | same h =>
    rw [(streams_of_block h).1, (streams_of_block h).2]
    exact .inr ⟨List.prefix_rfl, List.prefix_rfl⟩

/-- The commands that change PHASE (10_state.md R24). -/
theorem Effect.phase_cases {s t : State} {i : Instr} (h : Effect s i t) :
    t.phase = s.phase ∨ (i = .clear ∧ t.phase = .collect) ∨
      (i = .buildTree ∧ s.err = .none ∧ s.phase = .collect ∧ t.phase = .tree) ∨
      (i = .deriveCodes ∧ s.err = .none ∧ s.phase = .tree ∧ t.phase = .coded) := by
  cases h with
  | clear => exact .inr (.inl ⟨rfl, rfl⟩)
  | buildTree he hp => exact .inr (.inr (.inl ⟨rfl, he, hp, rfl⟩))
  | deriveCodes _ he hp => exact .inr (.inr (.inr ⟨rfl, he, hp, rfl⟩))
  | decArrive =>
    left
    unfold arriveAt
    split <;> rfl
  | _ => exact .inl rfl

/-- The commands that change FREQ (10_state.md R21). -/
theorem Effect.freq_cases {s t : State} {i : Instr} (h : Effect s i t) :
    t.freq = s.freq ∨ i = .clear ∨ (s.phase = .collect ∧ ∃ x, i = .tabSym x ∨ i = .freqLoad x) := by
  cases h with
  | clear => exact .inr (.inl rfl)
  | tabSym x _ hp => exact .inr (.inr ⟨hp, x, .inl rfl⟩)
  | freqLoad x _ hp => exact .inr (.inr ⟨hp, x, .inr rfl⟩)
  | decArrive =>
    left
    unfold arriveAt
    split <;> rfl
  | _ => exact .inl rfl

/-- No command writes ARG (10_state.md R16). -/
theorem Effect.arg_eq {s t : State} {i : Instr} (h : Effect s i t) : t.arg = s.arg := by
  cases h with
  | decArrive =>
    unfold arriveAt
    split <;> rfl
  | _ => rfl

/-- A word that is issued is a command's, with the command's effect, or captures an error, or does nothing. -/
theorem issue_effect {w : Word} {s t : State} (h : issue w s = .next t) :
    (∃ i, encode i = w ∧ Effect s i t) ∨ t = s.captured .illegalCmd w ∨ t = s := by
  rcases issue_cases h with ⟨i, hw, -, hx⟩ | ⟨-, -, hcap⟩ | ⟨-, -, hsame⟩
  · exact .inl ⟨i, hw, exec_effect hx⟩
  · exact .inr (.inl hcap)
  · exact .inr (.inr hsame)

/-- Settles O43: of all that a step can do, the three commands and reset change PHASE. -/
theorem phaseChangesOnlyByItsCommands : Obligations.PhaseChangesOnlyByItsCommands := by
  intro s t h hne
  cases step_blockEffect h with
  | reset h => exact .inl ⟨h.rst, h.archReset.2.1⟩
  | @command r rs u hq hw hbe ha hi h =>
    refine .inr ⟨r, rs, hq, hw, hbe, ha, ?_⟩
    rw [phase_of_block h] at hne ⊢
    rcases issue_effect hi with ⟨i, hwd, hx⟩ | rfl | rfl
    · rw [← hwd]
      rcases hx.phase_cases with hsame | ⟨rfl, hc⟩ | ⟨rfl, hb⟩ | ⟨rfl, hd⟩
      · exact absurd hsame hne
      · exact .inl ⟨rfl, hc⟩
      · exact .inr (.inl ⟨rfl, hb⟩)
      · exact .inr (.inr ⟨rfl, hd⟩)
    · exact absurd rfl hne
    · exact absurd rfl hne
  | arg _ _ _ _ h => exact absurd (phase_of_block h) hne
  | same h => exact absurd (phase_of_block h) hne

/-- Settles O44: of all that a step can do, the three commands and reset change FREQ. -/
theorem tableChangesOnlyInCollect : Obligations.TableChangesOnlyInCollect := by
  intro s t h hne
  cases step_blockEffect h with
  | reset h => exact .inl h.rst
  | @command r rs u hq hw hbe ha hi h =>
    refine .inr ⟨r, rs, hq, hw, hbe, ha, ?_⟩
    rw [freq_of_block h] at hne
    rcases issue_effect hi with ⟨i, hwd, hx⟩ | rfl | rfl
    · rw [← hwd]
      rcases hx.freq_cases with hsame | rfl | ⟨hp, x, rfl | rfl⟩
      · exact absurd hsame hne
      · exact .inl rfl
      · exact .inr ⟨hp, x, .inl rfl⟩
      · exact .inr ⟨hp, x, .inr rfl⟩
    · exact absurd rfl hne
    · exact absurd rfl hne
  | arg _ _ _ _ h => exact absurd (freq_of_block h) hne
  | same h => exact absurd (freq_of_block h) hne

/-- Settles O45: a command leaves ARG, so a step changes it by reset or by the host's write. -/
theorem argChangesOnlyByTheBus : Obligations.ArgChangesOnlyByTheBus := by
  refine ⟨fun i s t h => (exec_effect h).arg_eq, fun s t h hne => ?_⟩
  cases step_blockEffect h with
  | reset h => exact .inl h.rst
  | @command r rs u hq hw hbe ha hi h =>
    rw [arg_of_block h] at hne
    rcases issue_effect hi with ⟨i, -, hx⟩ | rfl | rfl
    · exact absurd hx.arg_eq hne
    · exact absurd rfl hne
    · exact absurd rfl hne
  | @arg r rs hq hw hbe ha h => exact .inr ⟨r, rs, hq, hw, hbe, ha, arg_of_block h⟩
  | same h => exact absurd (arg_of_block h) hne

/-- While an error is recorded only CLEAR's word does anything (30_encoding.md R63). -/
theorem issue_of_error {w : Word} {s t : State} (he : s.err ≠ .none) (h : issue w s = .next t) :
    t = s ∨ (w = 0x01000000#32 ∧ t = s.cleared) := by
  by_cases hc : w = 0x01000000#32
  · rw [hc, show (0x01000000#32 : Word) = encode .clear from rfl, issue_encode, exec_clear] at h
    cases h
    exact .inr ⟨hc, rfl⟩
  · by_cases hn : w = 0x00000000#32
    · rw [hn, ← encode_nop, issue_encode, exec_nop] at h
      cases h
      exact .inl rfl
    · rw [issue_discarded he hn hc] at h
      cases h
      exact .inl rfl

/-- Settles O46: every word but CLEAR's is discarded, and nothing else of a step but reset touches the three registers. -/
theorem onlyClearAndResetLeaveAnError : Obligations.OnlyClearAndResetLeaveAnError := by
  intro s t he h
  cases step_blockEffect h with
  | reset h =>
    obtain ⟨-, -, herr, hcmd, harg, -⟩ := h.archReset
    exact .inr ⟨herr, hcmd, harg, .inl h.rst⟩
  | @command r rs u hq hw _ ha hi h =>
    obtain ⟨herr, hcmd, harg⟩ := errors_of_block h
    rw [herr, hcmd, harg]
    rcases issue_of_error (s := { s with requests := rs, turns := s.turns.tail }) he hi with rfl | ⟨hc, rfl⟩
    · exact .inl ⟨rfl, rfl, rfl⟩
    · exact .inr ⟨rfl, rfl, rfl, .inr ⟨r, rs, hq, hw, ha, hc⟩⟩
  | arg _ _ _ _ h => exact .inl (errors_of_block h :)
  | same h => exact .inl (errors_of_block h)

end Sys2Proof.Machine
end

section
/-! The host's turn, the wait for a port and the consumers' takes (20_memory.md R50, R51; 70_reset_and_hazards.md R113, R118). -/

namespace Sys2Proof.Machine

/-! ## The host's turn -/

/-- The host's turn accepts its oldest request, out of reset and with no command waiting (20_memory.md R51). -/
theorem hostTurn_accepts {s : State} {r : BusReq} {rs : List BusReq} (hr : s.rst = false) (hb : s.busy = false)
    (hq : s.requests = r :: rs) : hostTurn s = accept r { s with requests := rs } := by
  simp [hostTurn, hr, hb, hq]

/-- "Every later request waits behind it" (70_reset_and_hazards.md R118). -/
theorem hostTurn_waits {s : State} (hb : s.busy = true) : hostTurn s = .next s := by simp [hostTurn, hb]

theorem step_of_turn {s : State} {u : Turn} {ts : List Turn} (h : s.turns = u :: ts) :
    step s = takeTurn u { s with turns := ts } := by
  rw [step, h]

/-- The host moves in its turn and when `turns` is used up. -/
theorem step_host {s : State} {ts : List Turn} (h : s.turns = .host :: ts ∨ (s.turns = [] ∧ ts = [])) :
    step s = hostTurn { s with turns := ts } := by
  rcases h with h | ⟨h, rfl⟩
  · exact step_of_turn h
  · rw [← h, step]
    split
    · rfl
    · next hne => exact absurd (h.symm.trans hne) (by simp)

/-- A step with the host's turn issues the word of the CMD write that is the host's oldest request (10_state.md R17). -/
theorem step_issues {s : State} {w : Word} {rs : List BusReq} {ts : List Turn} (hr : s.rst = false) (hb : s.busy = false)
    (hq : s.requests = writeReq cmdAddr w :: rs) (ht : s.turns = .host :: ts ∨ (s.turns = [] ∧ ts = [])) :
    step s = onNext (issue w { s with requests := rs, turns := ts }) (fun t => .next t.finishCommand) := by
  rw [step_host ht, hostTurn_accepts (s := { s with turns := ts }) hr hb hq, accept_cmd]

/-- Settles O38: the host's turn accepts the CMD write, which issues its word. -/
theorem stepRunsTheDecodedCommand : Obligations.StepRunsTheDecodedCommand := by
  refine ⟨fun s w rs ts => step_issues, fun s w => ?_, fun s w i hd => issue_of_decode hd s⟩
  rw [step_issues (rs := s.requests) (ts := s.turns) rfl rfl rfl (.inl rfl), BitVec.ofNat_toNat, BitVec.setWidth_eq]
  rfl

/-- Settles O39: the host's turn leaves a waiting state as it is. -/
theorem waitingCommandBlocksTheHost : Obligations.WaitingCommandBlocksTheHost := by
  refine fun s hb => ⟨fun ht => ?_, fun ts ht => ?_⟩
  · rw [step, ht, hostTurn_waits hb]
  · rw [step_host (.inl ht)]
    exact hostTurn_waits hb

/-! ## Responses -/

/-- Issuing a word touches nothing outside the block's registers. -/
theorem issue_sameOutside {w : Word} {s t : State} (h : issue w s = .next t) : s.sameOutside t := by
  rcases issue_effect h with ⟨i, -, hx⟩ | rfl | rfl
  · exact hx.outside
  · exact ⟨rfl, rfl, rfl, rfl, rfl, rfl, rfl, rfl, rfl, rfl⟩
  · exact ⟨rfl, rfl, rfl, rfl, rfl, rfl, rfl, rfl, rfl, rfl⟩

/-- A request is answered at once, or is a CMD write whose items found no room (20_memory.md R51). -/
theorem AcceptEffect.answered {r : BusReq} {s t : State} (h : AcceptEffect r s t) (hb : s.busy = false) :
    (t.busy = false ∧ ∃ p, t.responses = s.responses ++ [p]) ∨
    (t.busy = true ∧ t.responses = s.responses ∧ r.write = true ∧ regAt r.addr = .cmd ∧ t.portsFit = false) := by
  cases h with
  | refused => exact .inl ⟨hb, _, rfl⟩
  | read => exact .inl ⟨hb, _, rfl⟩
  | arg => exact .inl ⟨hb, _, rfl⟩
  | ignored => exact .inl ⟨hb, _, rfl⟩
  | @command u _ hw ha hi =>
    obtain ⟨-, -, -, -, hbusy, -, -, hrsp, -, -⟩ := issue_sameOutside hi
    rcases finishCommand_cases u with ⟨-, he⟩ | ⟨hfull, he⟩ <;> rw [he]
    · exact .inl ⟨hbusy.trans hb, okRsp, by rw [← hrsp]; rfl⟩
    · exact .inr ⟨rfl, hrsp, hw, by rw [ha, regAt_cmdAddr], hfull⟩

/-- Settling leaves a wait, or ends it with the one response (20_memory.md R51). -/
theorem settle_answered {s : State} (hb : s.busy = true) :
    (s.settle.busy = true ∧ s.settle.responses = s.responses) ∨
    (s.settle.busy = false ∧ s.settle.portsFit = true ∧ s.settle.responses = s.responses ++ [okRsp]) := by
  rcases settle_cases s with ⟨-, hfit, he⟩ | ⟨-, he⟩ <;> rw [he]
  · exact .inr ⟨rfl, hfit, rfl⟩
  · exact .inl ⟨hb, rfl⟩

/-- Settles O37: `accept` answers or waits, and of a step's effects on a waiting state only a take and reset end the wait. -/
theorem everyRequestIsAnsweredOnce : Obligations.EveryRequestIsAnsweredOnce := by
  refine ⟨fun r s t hb h => (accept_effect h).answered hb, fun s t hb h => ?_⟩
  cases step_effect h with
  | wait => exact .inl ⟨hb, rfl⟩
  | accept _ hidle => exact absurd (hb.symm.trans hidle) (by decide)
  | takeObit => exact Or.imp_right .inl (settle_answered (by exact hb))
  | takeOsym => exact Or.imp_right .inl (settle_answered (by exact hb))
  | assertReset =>
    have hu := assertReset_isUnderReset { s with turns := s.turns.tail }
    exact .inr (.inr ⟨hu.rst, hu.idle, hu.archReset⟩)
  | cutByReset n m =>
    have hu := cutByReset_isUnderReset n m { s with turns := s.turns.tail }
    exact .inr (.inr ⟨hu.rst, hu.idle, hu.archReset⟩)
  | releaseReset => exact .inl ⟨hb, rfl⟩

/-! ## Takes -/

theorem settle_full {s : State} (h : s.portsFit = false) : s.settle = s := if_neg (by simp [h])

theorem settle_fits {s : State} (hb : s.busy = true) (h : s.portsFit = true) :
    s.settle = { s with busy := false }.respond okRsp := if_pos (by simp [hb, h])

theorem step_takeObit {s : State} {ts : List Turn} (ht : s.turns = .takeObit :: ts) (h : s.obitTaken < s.obit.length) :
    step s = .next ({ s with turns := ts, obitTaken := s.obitTaken + 1 } : State).settle := by
  rw [step_of_turn ht, takeTurn, State.takeObit, if_pos h]

theorem step_takeOsym {s : State} {ts : List Turn} (ht : s.turns = .takeOsym :: ts) (h : s.osymTaken < s.osym.length) :
    step s = .next ({ s with turns := ts, osymTaken := s.osymTaken + 1 } : State).settle := by
  rw [step_of_turn ht, takeTurn, State.takeOsym, if_pos h]

theorem run_step {s t : State} (h : step s = .next t) (n : Nat) : core.run (n + 1) s = core.run n t :=
  run_next (M := core) h n

/-- Takes with no room in between, until there is room: the last one ends the wait (20_memory.md R51). `f j` is the state after
`j` takes, before the wait ends. -/
theorem run_takes (n : Nat) {f : Nat → State} (hb : ∀ j, (f j).busy = true) (hfull : ∀ j ≤ n, (f j).portsFit = false)
    (hfit : (f (n + 1)).portsFit = true) (hstep : ∀ j ≤ n, step (f j) = .next (f (j + 1)).settle) :
    core.run (n + 1) (f 0) = .next ({ f (n + 1) with busy := false }.respond okRsp) := by
  induction n generalizing f with
  | zero => exact (run_step (hstep 0 le_rfl) 0).trans (congrArg _ (settle_fits (hb 1) hfit))
  | succ n ih =>
    have hfirst : step (f 0) = .next (f 1) := (hstep 0 (by omega)).trans (congrArg _ (settle_full (hfull 1 (by omega))))
    exact (run_step hfirst (n + 1)).trans (ih (f := fun j => f (j + 1)) (fun j => hb _) (fun j hj => hfull _ (by omega)) hfit
      (fun j hj => hstep _ (by omega)))

/-- `s` after `j` of `n` takes of the `obit` consumer, before its wait ends. -/
def State.tookObit (s : State) (n : Nat) (ts : List Turn) (j : Nat) : State :=
  { s with obitTaken := s.obitTaken + j, turns := List.replicate (n - j) .takeObit ++ ts }

/-- `s` after `j` of `n` takes of the `osym` consumer, before its wait ends. -/
def State.tookOsym (s : State) (n : Nat) (ts : List Turn) (j : Nat) : State :=
  { s with osymTaken := s.osymTaken + j, turns := List.replicate (n - j) .takeOsym ++ ts }

theorem tookObit_fits (s : State) (n : Nat) (ts : List Turn) (j : Nat) : (s.tookObit n ts j).portsFit = true ↔
    s.obit.length ≤ s.obitTaken + j + Config.fifoDepth ∧ s.osym.length ≤ s.osymTaken + Config.fifoDepth :=
  portsFit_iff _

theorem tookOsym_fits (s : State) (n : Nat) (ts : List Turn) (j : Nat) : (s.tookOsym n ts j).portsFit = true ↔
    s.obit.length ≤ s.obitTaken + Config.fifoDepth ∧ s.osym.length ≤ s.osymTaken + j + Config.fifoDepth :=
  portsFit_iff _

/-- A waiting command of a sound state lacks room for some item (20_memory.md R50). -/
theorem State.Inv.lacks_room {s : State} (h : s.Inv) (hb : s.busy = true) :
    ¬ (s.obit.length ≤ s.obitTaken + Config.fifoDepth ∧ s.osym.length ≤ s.osymTaken + Config.fifoDepth) := by
  rw [← portsFit_iff]
  have hbusy := h.busyIff
  rw [hb] at hbusy
  simpa using hbusy.symm

theorem replicate_takes {u : Turn} {n j : Nat} (h : j ≤ n) (ts : List Turn) :
    List.replicate (n + 1 - j) u ++ ts = u :: (List.replicate (n + 1 - (j + 1)) u ++ ts) := by
  rw [show n + 1 - j = (n + 1 - (j + 1)) + 1 by omega, List.replicate_succ, List.cons_append]

/-- Settles O40: while items are left without room, `n` of them, a take leaves the command waiting; the take of the last ends
its wait. -/
theorem takingItemsCompletesTheCommand : Obligations.TakingItemsCompletesTheCommand := by
  intro s n ts h hb
  have hroom := h.lacks_room hb
  refine ⟨fun hs ho ht => ?_, fun ho hs ht => ?_⟩
  · obtain ⟨n, rfl⟩ : ∃ m, n = m + 1 := ⟨n - 1, by omega⟩
    have hrun := run_takes n (f := s.tookObit (n + 1) ts) (fun _ => hb)
      (fun j hj => by rw [Bool.eq_false_iff, Ne, tookObit_fits]; omega) (by rw [tookObit_fits]; omega)
      (fun j hj => step_takeObit (replicate_takes hj ts) (show s.obitTaken + j < s.obit.length by omega))
    rw [State.tookObit, State.tookObit, Nat.sub_zero, Nat.sub_self, ← ht] at hrun
    exact hrun
  · obtain ⟨n, rfl⟩ : ∃ m, n = m + 1 := ⟨n - 1, by omega⟩
    have hrun := run_takes n (f := s.tookOsym (n + 1) ts) (fun _ => hb)
      (fun j hj => by rw [Bool.eq_false_iff, Ne, tookOsym_fits]; omega) (by rw [tookOsym_fits]; omega)
      (fun j hj => step_takeOsym (replicate_takes hj ts) (show s.osymTaken + j < s.osym.length by omega))
    rw [State.tookOsym, State.tookOsym, Nat.sub_zero, Nat.sub_self, ← ht] at hrun
    exact hrun

end Sys2Proof.Machine
end

section
/-! What the consumers get (20_memory.md R50; 10_state.md R34), and reset, also in the middle of a request
(70_reset_and_hazards.md R112 to R114). -/

namespace Sys2Proof.Machine

/-! ## What the consumers have got -/

/-- `t` is `s` with more items on its streams, all of them still to be taken. -/
def State.emittedMore (s t : State) : Prop :=
  t.obitTaken = s.obitTaken ∧ t.osymTaken = s.osymTaken ∧ t.obitPast = s.obitPast ∧ t.osymPast = s.osymPast ∧
    s.obit <+: t.obit ∧ s.osym <+: t.osym

theorem State.emittedMore.refl (s : State) : s.emittedMore s := ⟨rfl, rfl, rfl, rfl, List.prefix_rfl, List.prefix_rfl⟩

theorem take_of_prefix {α : Type} {xs ys : List α} (h : xs <+: ys) {n : Nat} (hn : n ≤ xs.length) :
    ys.take n = xs.take n := by
  obtain ⟨zs, rfl⟩ := h
  exact List.take_append_of_le_length hn

theorem take_prefix_take {α : Type} {xs ys : List α} (h : xs <+: ys) {n m : Nat} (hn : n ≤ m) : xs.take n <+: ys.take m :=
  (h.take n).trans (List.take_prefix_take_left hn)

/-- The consumers keep what they have while items are emitted and taken. -/
theorem State.emittedMore.got_prefix {s t : State} (h : s.emittedMore t) (n m : Nat) :
    s.obitGot <+: t.obitPast ++ t.obit.take (t.obitTaken + n) ∧ s.osymGot <+: t.osymPast ++ t.osym.take (t.osymTaken + m) := by
  obtain ⟨hot, hst, hop, hsp, ho, hs⟩ := h
  rw [hot, hst, hop, hsp]
  exact ⟨(List.prefix_append_right_inj _).2 (take_prefix_take ho (Nat.le_add_right _ _)),
    (List.prefix_append_right_inj _).2 (take_prefix_take hs (Nat.le_add_right _ _))⟩

/-- Items that are emitted are not yet taken. -/
theorem State.emittedMore.got_eq {s t : State} (h : s.emittedMore t) (ho : s.obitTaken ≤ s.obit.length)
    (hs : s.osymTaken ≤ s.osym.length) : t.obitGot = s.obitGot ∧ t.osymGot = s.osymGot := by
  obtain ⟨hot, hst, hop, hsp, hobit, hosym⟩ := h
  rw [State.obitGot, State.osymGot, hot, hst, hop, hsp, take_of_prefix hobit ho, take_of_prefix hosym hs]
  exact ⟨rfl, rfl⟩

theorem AcceptEffect.emittedMore {r : BusReq} {s t : State} (h : AcceptEffect r s t) : s.emittedMore t := h.ports

/-- A request in execution has emitted its items, if it has any (70_reset_and_hazards.md R114). -/
theorem inExecution_emittedMore (r : BusReq) (s : State) : s.emittedMore (s.inExecution r) := by
  unfold State.inExecution
  split
  · next t h => exact (accept_effect h).emittedMore
  · exact .refl s

/-- A reset that cuts a request short lets the consumers keep what they have, and more of the request's items. -/
theorem cutByReset_got_prefix (n m : Nat) (s : State) :
    s.obitGot <+: (s.cutByReset n m).obitGot ∧ s.osymGot <+: (s.cutByReset n m).osymGot := by
  unfold State.cutByReset
  split
  · rw [assertReset_obitGot, assertReset_osymGot]
    exact ⟨List.prefix_rfl, List.prefix_rfl⟩
  split
  · rw [abandon_obitGot, abandon_osymGot]
    exact (State.emittedMore.refl s).got_prefix n m
  split
  · rw [assertReset_obitGot, assertReset_osymGot]
    exact ⟨List.prefix_rfl, List.prefix_rfl⟩
  · next r rs _ =>
    rw [abandon_obitGot, abandon_osymGot]
    exact (inExecution_emittedMore r { s with requests := rs }).got_prefix n m

/-- No step takes an item back (70_reset_and_hazards.md R113). -/
theorem StepEffect.got_prefix {s t : State} (h : StepEffect s t) : s.obitGot <+: t.obitGot ∧ s.osymGot <+: t.osymGot := by
  cases h with
  | wait => exact ⟨List.prefix_rfl, List.prefix_rfl⟩
  | accept _ _ _ ha => exact ha.emittedMore.got_prefix 0 0
  | takeObit =>
    rw [settle_obitGot, settle_osymGot]
    exact (State.emittedMore.refl s).got_prefix 1 0
  | takeOsym =>
    rw [settle_obitGot, settle_osymGot]
    exact (State.emittedMore.refl s).got_prefix 0 1
  | assertReset =>
    rw [assertReset_obitGot, assertReset_osymGot]
    exact ⟨List.prefix_rfl, List.prefix_rfl⟩
  | cutByReset n m => exact cutByReset_got_prefix n m s
  | releaseReset => exact ⟨List.prefix_rfl, List.prefix_rfl⟩

/-- The host's turn leaves the block as it is, or executes a request (20_memory.md R51). -/
theorem hostTurn_cases {s t : State} (h : hostTurn s = .next t) :
    t = s ∨ ∃ r rs, s.requests = r :: rs ∧ AcceptEffect r { s with requests := rs } t := by
  unfold hostTurn at h
  split at h
  · cases h
    exact .inl rfl
  split at h
  · cases h
    exact .inl rfl
  · next r rs hq => exact .inr ⟨r, rs, hq, accept_effect h⟩

/-- Settles O41: of all that a step can do, the takes deliver items and nothing takes one back. -/
theorem consumersGetEachItemOnceInOrder : Obligations.ConsumersGetEachItemOnceInOrder := by
  refine ⟨fun s t h => (step_effect h).got_prefix, fun s ts hlt ht => ⟨_, step_takeObit ht hlt, ?_, ?_, ?_⟩,
    fun s ts hlt ht => ⟨_, step_takeOsym ht hlt, ?_, ?_, ?_⟩, fun s t ts h ht hs => ?_⟩
  · rw [settle_obitGot, State.obitGot, List.take_succ_eq_append_getElem hlt, ← List.append_assoc]
    rfl
  · exact (streams_of_block (block_settle _)).1
  · exact settle_osymGot _
  · rw [settle_osymGot, State.osymGot, List.take_succ_eq_append_getElem hlt, ← List.append_assoc]
    rfl
  · exact (streams_of_block (block_settle _)).2
  · exact settle_obitGot _
  · obtain ⟨ts, hturn⟩ : ∃ us, step s = hostTurn { s with turns := us } := by
      rcases ht with ht | ht
      · exact ⟨[], step_host (.inr ⟨ht, rfl⟩)⟩
      · exact ⟨ts, step_host (.inl ht)⟩
    rw [hturn] at hs
    rcases hostTurn_cases hs with rfl | ⟨r, rs, -, ha⟩
    · exact ⟨rfl, rfl⟩
    · exact ha.emittedMore.got_eq h.obitTakenLe h.osymTakenLe

/-! ## Reset between requests -/

theorem assertReset_of_idle {s : State} (h : s.busy = false) : s.assertReset = s.underReset := if_neg (by simp [h])

theorem assertReset_of_busy {s : State} (h : s.busy = true) : s.assertReset = s.underReset.cutResponse := if_pos h

/-- What the views read in a state with the reset values (70_reset_and_hazards.md R112). -/
theorem archReset_views {t : State} (h : t.archReset) :
    memRead t 0x0000#14 = 0x48554631#32 ∧ memRead t 0x0004#14 = 0x00000008#32 ∧ memRead t 0x001C#14 = 0#32 ∧
      memRead t 0x0020#14 = 0#32 := by
  obtain ⟨-, hphase, herr, -, -, hfreq, htree, -, hdec, -⟩ := h
  have hroot : t.root = nilId := congrArg Tree.root htree
  refine ⟨rfl, ?_, ?_, ?_⟩
  · rw [memRead_status, ← status_reset, State.status, State.errAny, State.decAtRoot, State.treeEmpty, State.treeLeaf, hphase,
      herr, hroot, hdec]
    rfl
  · show BitVec.ofNat 32 (presentSyms t.freq).length = 0#32
    rw [hfreq, presentSyms_zero]
    rfl
  · show BitVec.ofNat 32 (totalOf t.freq) = 0#32
    rw [hfreq, totalOf_zero]

/-- With `rst` asserted a sound state has no item waiting, so no command waits. -/
theorem State.Inv.idle_of_rst {s : State} (h : s.Inv) (hr : s.rst = true) : s.busy = false := by
  obtain ⟨-, -, -, -, -, -, -, -, -, -, hobit, hosym⟩ := h.rstHolds hr
  rw [h.busyIff, (portsFit_iff s).2 (by simp [hobit, hosym])]
  rfl

/-- While `rst` is asserted no step leaves the reset values, accepts a request or sends a response (70_reset_and_hazards.md
R112). -/
theorem StepEffect.keeps_reset {s t : State} (he : StepEffect s t) (h : s.Inv) (hr : s.rst = true) :
    t.archReset ∧ t.requests = s.requests ∧ t.responses = s.responses := by
  have harch := h.rstHolds hr
  obtain ⟨-, -, -, -, -, -, -, -, -, -, hobit, hosym⟩ := id harch
  have hassert : s.assertReset = s.underReset := assertReset_of_idle (h.idle_of_rst hr)
  cases he with
  | wait => exact ⟨harch, rfl, rfl⟩
  | accept hno => exact absurd (hr.symm.trans hno) (by decide)
  | takeObit hlt => simp [hobit] at hlt
  | takeOsym hlt => simp [hosym] at hlt
  | assertReset =>
    rw [hassert]
    exact ⟨archReset_underReset s, rfl, rfl⟩
  | cutByReset n m =>
    rw [State.cutByReset, if_pos hr, hassert]
    exact ⟨archReset_underReset s, rfl, rfl⟩
  | releaseReset => exact ⟨harch, rfl, rfl⟩

/-- Settles O47: a turn of `rst` leaves a state under reset, and a sound state under reset stays one. -/
theorem resetValues : Obligations.ResetValues := by
  refine ⟨fun s ts ht => ?_, fun t => archReset_views, fun s t h hr hs => ?_, archReset_reset, rfl⟩
  · have hu := assertReset_isUnderReset { s with turns := ts }
    obtain ⟨-, -, hot, hst⟩ := hu.noItems
    exact ⟨_, step_of_turn ht, hu.archReset, hot, hst, hu.idle, hu.rst, assertReset_obitGot _, assertReset_osymGot _⟩
  · exact (step_effect hs).keeps_reset (h.environment s.requests s.turns.tail) hr

/-! ## Reset in the middle of a request -/

/-- The free response keeps the requests, and is at most one (70_reset_and_hazards.md R114). -/
theorem cutResponse_bus (s : State) : s.cutResponse.requests = s.requests ∧
    (s.cutResponse.responses = s.responses ∨ ∃ p, s.cutResponse.responses = s.responses ++ [p]) := by
  rcases cutResponse_cases s with h | ⟨p, h⟩ <;> rw [h]
  · exact ⟨rfl, .inl rfl⟩
  · exact ⟨rfl, .inr ⟨p, rfl⟩⟩

theorem abandon_bus (n m : Nat) (s : State) : (s.abandon n m).requests = s.requests ∧
    ((s.abandon n m).responses = s.responses ∨ ∃ p, (s.abandon n m).responses = s.responses ++ [p]) :=
  cutResponse_bus _

theorem AcceptEffect.requests_eq {r : BusReq} {s t : State} (h : AcceptEffect r s t) : t.requests = s.requests := by
  cases h with
  | @command u _ _ _ hi =>
    obtain ⟨-, -, -, -, -, -, hreq, -⟩ := issue_sameOutside hi
    rcases finishCommand_cases u with ⟨-, he⟩ | ⟨-, he⟩ <;> rw [he] <;> exact hreq
  | _ => rfl

/-- A request in execution is no longer pending, and not yet answered. -/
theorem inExecution_bus (r : BusReq) (s : State) :
    (s.inExecution r).requests = s.requests ∧ (s.inExecution r).responses = s.responses := by
  unfold State.inExecution
  split
  · next t h => exact ⟨(accept_effect h).requests_eq, rfl⟩
  · exact ⟨rfl, rfl⟩

/-- A CMD write in execution has emitted what its word emits. -/
theorem inExecution_cmd {w : Word} {s u : State} (h : issue w s = .next u) :
    (s.inExecution (writeReq cmdAddr w)).obit = u.obit ∧ (s.inExecution (writeReq cmdAddr w)).osym = u.osym := by
  rw [State.inExecution, accept_cmd, h, onNext_next]
  exact ⟨finishCommand_obit u, finishCommand_osym u⟩

/-- No other request emits anything. -/
theorem inExecution_other {r : BusReq} (h : r.write = false ∨ r.addr ≠ cmdAddr) (s : State) :
    (s.inExecution r).obit = s.obit ∧ (s.inExecution r).osym = s.osym := by
  unfold State.inExecution
  split
  · next t ht =>
    cases accept_effect ht with
    | command _ hw ha => rcases h with hr | hr <;> simp_all
    | _ => exact ⟨rfl, rfl⟩
  · exact ⟨rfl, rfl⟩

theorem step_cut_request {n m : Nat} {s : State} {r : BusReq} {rs : List BusReq} {ts : List Turn} (hr : s.rst = false)
    (hb : s.busy = false) (hq : s.requests = r :: rs) (ht : s.turns = .cutByReset n m :: ts) :
    step s = .next ((State.inExecution r { s with requests := rs, turns := ts }).abandon n m) := by
  rw [step_of_turn ht, takeTurn]
  simp [State.cutByReset, hr, hb, hq]

theorem step_cut_waiting {n m : Nat} {s : State} {ts : List Turn} (hr : s.rst = false) (hb : s.busy = true)
    (ht : s.turns = .cutByReset n m :: ts) : step s = .next (State.abandon n m { s with turns := ts }) := by
  rw [step_of_turn ht, takeTurn]
  simp [State.cutByReset, hr, hb]

theorem step_reset_waiting {s : State} {ts : List Turn} (hb : s.busy = true) (ht : s.turns = .assertReset :: ts) :
    step s = .next (State.underReset { s with turns := ts }).cutResponse := by
  rw [step_of_turn ht, takeTurn, assertReset_of_busy (by exact hb)]

/-- Settles O48: a request that reset cuts short is abandoned in execution, a waiting command as it waits. -/
theorem resetAbandonsTheCommand : Obligations.ResetAbandonsTheCommand := by
  refine ⟨fun s r rs ts n m hr hb hq ht => ?_, fun s ts n m hr hb ht => ?_, fun s ts hb ht => ?_⟩
  · have hu := abandon_isUnderReset n m (State.inExecution r { s with requests := rs, turns := ts })
    obtain ⟨hreq, hrsp⟩ := inExecution_bus r { s with requests := rs, turns := ts }
    obtain ⟨hareq, harsp⟩ := abandon_bus n m (State.inExecution r { s with requests := rs, turns := ts })
    obtain ⟨hot, hst, hop, hsp, -, -⟩ := inExecution_emittedMore r { s with requests := rs, turns := ts }
    rw [hrsp] at harsp
    refine ⟨_, step_cut_request hr hb hq ht, hu.archReset, hu.rst, hareq.trans hreq, harsp, ?_, fun hother => ?_⟩
    · rintro w u rfl hi
      obtain ⟨ho, hs⟩ := inExecution_cmd hi
      rw [abandon_obitGot, abandon_osymGot, hot, hst, hop, hsp]
      exact ⟨congrArg (fun bs => s.obitPast ++ bs.take (s.obitTaken + n)) ho,
        congrArg (fun xs => s.osymPast ++ xs.take (s.osymTaken + m)) hs⟩
    · obtain ⟨ho, hs⟩ := inExecution_other hother { s with requests := rs, turns := ts }
      rw [abandon_obitGot, abandon_osymGot, hot, hst, hop, hsp, ho, hs]
      exact ⟨rfl, rfl⟩
  · have hu := abandon_isUnderReset n m { s with turns := ts }
    obtain ⟨hreq, hrsp⟩ := abandon_bus n m { s with turns := ts }
    exact ⟨_, step_cut_waiting hr hb ht, hu.archReset, hu.rst, hu.idle, hreq, hrsp, abandon_obitGot _ _ _,
      abandon_osymGot _ _ _⟩
  · have hu := cutResponse_isUnderReset (underReset_isUnderReset { s with turns := ts })
    obtain ⟨hreq, hrsp⟩ := cutResponse_bus (State.underReset { s with turns := ts })
    refine ⟨_, step_reset_waiting hb ht, hu.archReset, hu.rst, hu.idle, hreq, hrsp, ?_, ?_⟩
    · rw [cutResponse_obitGot, underReset_obitGot]
      rfl
    · rw [cutResponse_osymGot, underReset_osymGot]
      rfl

end Sys2Proof.Machine
end

section
/-! The assembler keeps operands and makes no illegal word of a command (30_encoding.md R64). -/

namespace Sys2Proof.Machine

/-- A line that assembles reads as items whose operands are in range. -/
theorem assembleLine_eq_some {line : List Char} {rs : List BusReq} (h : assembleLine line = some rs) :
    ∃ items, (lexLine (line.length + 1) line).bind readLine = some items ∧ rs = items.map asmRequest ∧
      ∀ it ∈ items, it.wellFormed = true := by
  unfold assembleLine at h
  split at h
  · cases h
  · next items hitems =>
    split at h
    · next hwf => exact ⟨items, hitems, (Option.some.inj h).symm, List.all_eq_true.1 hwf⟩
    · cases h

theorem asmRequest_of_asmInstr {it : AsmItem} {i : Instr} (h : asmInstr it = some i) :
    asmRequest it = writeReq cmdAddr (encode i) := by
  unfold asmRequest
  rw [h]

/-- A symbol operand in range is a symbol. -/
theorem toNat_ofNat_sym {n : Nat} (h : decide (n ≤ 255) = true) : (BitVec.ofNat 8 n).toNat = n := by
  rw [BitVec.toNat_ofNat]
  exact Nat.mod_eq_of_lt (Nat.lt_succ_of_le (of_decide_eq_true h))

/-- A bit operand in range is a bit. -/
theorem toNat_beq_one {n : Nat} (h : decide (n ≤ 1) = true) : (n == 1).toNat = n := by
  have hle := of_decide_eq_true h
  interval_cases n <;> rfl

/-- Settles O53: every item is in range, so no operand is cut, and each command's word decodes to it. -/
theorem assemblerNeverMakesAnIllegalWord : Obligations.AssemblerNeverMakesAnIllegalWord := by
  intro line rs h
  obtain ⟨items, hitems, hrs, hwf⟩ := assembleLine_eq_some h
  refine ⟨items, hitems, hrs, hwf, fun it _ i hi => ?_, fun n hn => ⟨_, rfl, toNat_ofNat_sym (hwf _ hn)⟩,
    fun n hn => ⟨_, rfl, toNat_ofNat_sym (hwf _ hn)⟩, fun n hn => ⟨_, rfl, toNat_ofNat_sym (hwf _ hn)⟩,
    fun n hn => ⟨_, rfl, toNat_beq_one (hwf _ hn)⟩, fun a v hav => ?_, fun a ha => ?_⟩
  · rw [asmRequest_of_asmInstr hi]
    exact ⟨rfl, decode_encode i⟩
  · obtain ⟨ha, hv⟩ := Bool.and_eq_true_iff.1 (hwf _ hav)
    exact ⟨rfl, Nat.mod_eq_of_lt (of_decide_eq_true ha), Nat.mod_eq_of_lt (of_decide_eq_true hv), rfl⟩
  · exact ⟨rfl, Nat.mod_eq_of_lt (of_decide_eq_true (hwf _ ha)), rfl⟩

end Sys2Proof.Machine
end

section
/-! The persisted table reads back as it was, and a symbol of any width is read by its value (46_host_interface.md R88 to
R93). -/

namespace Sys2Proof.Machine

/-! ## Digits -/

theorem ofDigits_append_singleton (b : Nat) (ds : List Nat) (d : Nat) : ofDigits b (ds ++ [d]) = ofDigits b ds * b + d := by
  rw [ofDigits, List.foldl_append]
  rfl

/-- The rendered digits have the number's value, when there are enough of them. -/
theorem ofDigits_toDigits {b : Nat} (bound : Nat) {n : Nat} (hn : n < b ^ bound) :
    ofDigits b (toDigits b bound n) = n := by
  induction bound generalizing n with
  | zero =>
    rw [pow_zero, Nat.lt_one_iff] at hn
    rw [hn]
    rfl
  | succ bound ih =>
    rw [toDigits]
    split
    · exact (congrArg (· + n) (Nat.zero_mul b)).trans (Nat.zero_add n)
    · rw [ofDigits_append_singleton, ih (Nat.div_lt_of_lt_mul (by rwa [← Nat.pow_succ'])), Nat.div_add_mod']

theorem toDigits_lt {b : Nat} (hb : 0 < b) (bound n : Nat) : ∀ d ∈ toDigits b bound n, d < b := by
  induction bound generalizing n with
  | zero => simp [toDigits]
  | succ bound ih =>
    rw [toDigits]
    split
    · next hn => simpa using hn
    · intro d hd
      rcases List.mem_append.1 hd with hd | hd
      · exact ih _ d hd
      · rw [List.mem_singleton.1 hd]
        exact Nat.mod_lt _ hb

theorem toDigits_ne_nil (b bound n : Nat) : toDigits b (bound + 1) n ≠ [] := by
  rw [toDigits]
  split <;> simp

/-! ## Digit characters -/

theorem toNat_digitByte {d : Nat} (h : d < 10) : (digitByte d).toNat = 0x30 + d := by
  rw [digitByte, BitVec.toNat_ofNat]
  omega

theorem digitOf_digitByte {base d : Nat} (hbase : base ≤ 10) (hd : d < base) : digitOf base (digitByte d) = some d := by
  rw [digitOf, toNat_digitByte (by omega), if_pos (by omega), Nat.add_sub_cancel_left]

/-- A token of rendered digits reads as those digits. -/
theorem digitsOf_map_digitByte {base : Nat} (hbase : base ≤ 10) {ds : List Nat} (hds : ∀ d ∈ ds, d < base) :
    digitsOf base (ds.map digitByte) = some ds := by
  induction ds with
  | nil => rfl
  | cons d ds ih =>
    obtain ⟨hd, hrest⟩ := List.forall_mem_cons.1 hds
    rw [List.map_cons, digitsOf, digitOf_digitByte hbase hd, ih hrest]

/-- A character that is no digit spoils its token. -/
theorem digitsOf_eq_none {base : Nat} {token : List Byte} {c : Byte} (hc : c ∈ token) (h : digitOf base c = none) :
    digitsOf base token = none := by
  induction token with
  | nil => cases hc
  | cons a as ih =>
    rw [digitsOf]
    rcases List.mem_cons.1 hc with rfl | hc
    · rw [h]
    · rw [ih hc]
      cases digitOf base a <;> rfl

theorem digitOf_two_eq_none {c : Byte} (h0 : c ≠ 0x30#8) (h1 : c ≠ 0x31#8) : digitOf 2 c = none := by
  refine if_neg fun ⟨hlo, hhi⟩ => ?_
  have h0' : c.toNat ≠ 0x30 := fun e => h0 (BitVec.eq_of_toNat_eq e)
  have h1' : c.toNat ≠ 0x31 := fun e => h1 (BitVec.eq_of_toNat_eq e)
  omega

/-! ## Tokens -/

theorem parseSymbol_digits {ds : List Nat} (hne : ds ≠ []) (hds : ∀ d ∈ ds, d < 2) :
    parseSymbol (ds.map digitByte) =
      if ofDigits 2 ds ≤ 255 then .ok (BitVec.ofNat 8 (ofDigits 2 ds)) else .error .symbolTooLarge := by
  rw [parseSymbol, if_neg (by simpa using hne), digitsOf_map_digitByte (by decide) hds]

/-- Settles O55: a token of binary digits is read by its value, any other is refused. -/
theorem readerTakesAnyWidthSymbol : Obligations.ReaderTakesAnyWidthSymbol := by
  refine ⟨fun ds hne hds => ?_, fun token ⟨c, hc, h0, h1⟩ => ?_, rfl⟩
  · rw [parseSymbol_digits hne hds]
    exact ⟨fun hle => if_pos hle, fun hlt => if_neg (Nat.not_le.2 hlt)⟩
  · rw [parseSymbol, if_neg (List.ne_nil_of_mem hc), digitsOf_eq_none hc (digitOf_two_eq_none h0 h1)]

/-- A rendered symbol reads back (46_host_interface.md R89). -/
theorem parseSymbol_symBits (x : Sym) : parseSymbol (symBits x) = .ok x := by
  have hx := x.isLt
  rw [symBits, parseSymbol_digits (toDigits_ne_nil 2 7 _) (toDigits_lt (by decide) 8 _),
    ofDigits_toDigits 8 hx, if_pos (by omega), BitVec.ofNat_toNat, BitVec.setWidth_eq]

/-- A rendered count reads back (46_host_interface.md R90). -/
theorem parseCount_countText {c : Word} (h : c ≠ 0#32) : parseCount (countText c) = .ok c := by
  have hc := c.isLt
  have h0 : c.toNat ≠ 0 := fun e => h (BitVec.eq_of_toNat_eq e)
  rw [countText, parseCount, if_neg (by simpa using toDigits_ne_nil 10 31 _),
    digitsOf_map_digitByte (by decide) (toDigits_lt (by decide) 32 _)]
  simp only [ofDigits_toDigits (b := 10) 32 (show c.toNat < 10 ^ 32 by omega)]
  rw [if_neg h0, if_pos (by omega), BitVec.ofNat_toNat, BitVec.setWidth_eq]

/-! ## Lines -/

/-- A line of a persisted table without its terminator (46_host_interface.md R88). -/
def lineBody (x : Sym) (c : Word) : List Byte := symBits x ++ byteColon :: countText c

theorem lineText_eq (x : Sym) (c : Word) : lineText x c = lineBody x c ++ [byteLf] := by
  simp [lineText, lineBody]

theorem toNat_of_mem_digits {b bound n : Nat} (hb : 0 < b) (hb' : b ≤ 10) {c : Byte}
    (hc : c ∈ (toDigits b bound n).map digitByte) : 0x30 ≤ c.toNat ∧ c.toNat < 0x3A := by
  obtain ⟨d, hd, rfl⟩ := List.mem_map.1 hc
  have hlt := toDigits_lt hb bound n d hd
  rw [toNat_digitByte (by omega)]
  omega

theorem toNat_of_mem_symBits {x : Sym} {c : Byte} (h : c ∈ symBits x) : 0x30 ≤ c.toNat ∧ c.toNat < 0x3A :=
  toNat_of_mem_digits (by decide) (by decide) h

theorem toNat_of_mem_countText {v : Word} {c : Byte} (h : c ∈ countText v) : 0x30 ≤ c.toNat ∧ c.toNat < 0x3A :=
  toNat_of_mem_digits (by decide) (by decide) h

theorem ne_of_digit {c d : Byte} (hc : 0x30 ≤ c.toNat ∧ c.toNat < 0x3A) (hd : ¬ (0x30 ≤ d.toNat ∧ d.toNat < 0x3A)) : c ≠ d := by
  rintro rfl
  exact hd hc

/-- A rendered line reads back (46_host_interface.md R88 to R90). -/
theorem parseLine_lineBody (x : Sym) {c : Word} (h : c ≠ 0#32) : parseLine (lineBody x c) = .ok (x, c) := by
  have hsym : ∀ b ∈ symBits x, (b != byteColon) = true := fun b hb =>
    bne_iff_ne.2 (ne_of_digit (toNat_of_mem_symBits hb) (by decide))
  have hcount : ¬ byteColon ∈ countText c := fun hb => ne_of_digit (toNat_of_mem_countText hb) (by decide) rfl
  rw [parseLine, if_neg (by simp [lineBody]), lineBody, List.dropWhile_append_of_pos hsym, List.takeWhile_append_of_pos hsym]
  simp [hcount, parseTokens, parseSymbol_symBits, parseCount_countText h]

/-- A line's characters up to its LF are collected, and a CR is dropped only where it ends the line (46_host_interface.md
R91). -/
theorem linesOf_line (line rest cur : List Byte) (h : byteLf ∉ line) :
    linesOf (line ++ byteLf :: rest) cur = dropCr (cur ++ line) :: linesOf rest [] := by
  induction line generalizing cur with
  | nil => simp [linesOf]
  | cons c cs ih =>
    obtain ⟨hc, hcs⟩ := not_or.1 (mt List.mem_cons.2 h)
    rw [List.cons_append, linesOf, if_neg (Ne.symm hc), ih _ hcs, List.append_assoc, List.singleton_append]

theorem lf_not_mem_lineBody (x : Sym) (c : Word) : byteLf ∉ lineBody x c := by
  intro h
  rcases List.mem_append.1 h with h | h
  · exact ne_of_digit (toNat_of_mem_symBits h) (by decide) rfl
  · rcases List.mem_cons.1 h with h | h
    · exact absurd h (by decide)
    · exact ne_of_digit (toNat_of_mem_countText h) (by decide) rfl

theorem dropCr_lineBody (x : Sym) (c : Word) : dropCr (lineBody x c) = lineBody x c := by
  refine if_neg fun h => ?_
  have hmem := List.mem_of_getLast? h
  rcases List.mem_append.1 hmem with h | h
  · exact ne_of_digit (toNat_of_mem_symBits h) (by decide) rfl
  · rcases List.mem_cons.1 h with h | h
    · exact absurd h (by decide)
    · exact ne_of_digit (toNat_of_mem_countText h) (by decide) rfl

/-! ## The table -/

/-- The text of a list of entries splits into their lines. -/
theorem linesOf_lineText (es : List (Sym × Word)) :
    linesOf (es.flatMap (fun e => lineText e.1 e.2)) [] = es.map (fun e => lineBody e.1 e.2) := by
  induction es with
  | nil => rfl
  | cons e es ih =>
    rw [List.flatMap_cons, lineText_eq, List.append_assoc, List.singleton_append,
      linesOf_line _ _ _ (lf_not_mem_lineBody e.1 e.2), List.nil_append, dropCr_lineBody, ih, List.map_cons]

/-- The lines of entries with distinct symbols and non-zero counts read as those entries. -/
theorem parseLines_lineBody (es : List (Sym × Word)) (seen : List Sym) (hc : ∀ e ∈ es, e.2 ≠ 0#32)
    (hn : (es.map Prod.fst).Nodup) (hs : ∀ x ∈ es.map Prod.fst, x ∉ seen) :
    parseLines (es.map (fun e => lineBody e.1 e.2)) seen = ⟨es, none⟩ := by
  induction es generalizing seen with
  | nil => rfl
  | cons e es ih =>
    obtain ⟨he, hrest⟩ := List.forall_mem_cons.1 hc
    obtain ⟨hnew, hn⟩ := List.nodup_cons.1 hn
    obtain ⟨hes, hs⟩ := List.forall_mem_cons.1 hs
    have hseen : ∀ x ∈ es.map Prod.fst, x ∉ e.1 :: seen := fun x hx hmem => by
      rcases List.mem_cons.1 hmem with rfl | hmem
      · exact hnew hx
      · exact hs x hx hmem
    have hfresh : seen.contains e.1 = false := by simpa using hes
    rw [List.map_cons, parseLines, parseLine_lineBody e.1 he]
    simp only [hfresh, Bool.false_eq_true, if_false, ih (e.1 :: seen) hrest hn hseen]

theorem memRead_freqAddr (s : State) (x : Sym) : memRead s (freqAddr x) = s.freqAt x := by
  have hx := x.isLt
  have ha : (freqAddr x).toNat = 0x0400 + 4 * x.toNat := by
    rw [freqAddr, BitVec.toNat_ofNat]
    omega
  rw [memRead, regAt_freq ha, readReg]

/-- The entries of a table: its present symbols with their counts, ascending (46_host_interface.md R92). -/
def tableEntries (f : Vector Word 256) : List (Sym × Word) := (presentSyms f).map (fun x => (x, symGet f x))

theorem map_fst_tableEntries (f : Vector Word 256) : (tableEntries f).map Prod.fst = presentSyms f := by
  simp [tableEntries, Function.comp_def]

theorem persist_eq (s : State) : persist s = (tableEntries s.freq).flatMap (fun e => lineText e.1 e.2) := by
  rw [tableEntries, List.flatMap_map, persist]
  simp only [memRead_freqAddr]
  rfl

/-- Settles O54: the persisted text is the lines of the table's entries, and each reads back. -/
theorem persistedTableReadsBack : Obligations.PersistedTableReadsBack := by
  intro s
  rw [parseTable, persist_eq, linesOf_lineText, parseLines_lineBody]
  · rfl
  · intro e he
    obtain ⟨x, hx, rfl⟩ := List.mem_map.1 he
    exact (mem_presentSyms _ x).1 hx
  · rw [map_fst_tableEntries]
    exact nodup_presentSyms s.freq
  · exact fun _ _ => List.not_mem_nil

end Sys2Proof.Machine
end

section
/-! The host's writes do to the block what the commands do (46_host_interface.md R94), an I/O failure leaves it cleared
(60_exceptions.md R103), and entries load in any order (R94). -/

namespace Sys2Proof.Machine

/-! ## Commands and the block -/

/-- A command reads and writes nothing outside the block. -/
theorem exec_block (i : Instr) (s : State) : exec i s.block = onNext (exec i s) (fun t => .next t.block) := by
  cases i with
  | nop => rfl
  | clear => rfl
  | tabSym x =>
    refine gated_map (g := State.block) rfl rfl (fun _ _ => rfl) ?_
    rw [← onNext_ite]
    rfl
  | freqLoad x =>
    refine gated_map (g := State.block) rfl rfl (fun _ _ => rfl) ?_
    rw [← onNext_ite, ← onNext_ite, ← onNext_ite]
    rfl
  | buildTree => exact gated_map (g := State.block) rfl rfl (fun _ _ => rfl) rfl
  | deriveCodes =>
    refine gated_map (g := State.block) rfl rfl (fun _ _ => rfl) ?_
    show (match deriveCodes s.tree with
      | some c => .next ({ s.setCodes c with phase := .coded } : State).block
      | none => .fault .malformedTree : Result) = _
    cases deriveCodes s.tree <;> rfl
  | encSym x =>
    refine gated_map (g := State.block) rfl rfl (fun _ _ => rfl) ?_
    rw [← onNext_ite]
    rfl
  | decBit b =>
    refine gated_map (g := State.block) rfl rfl (fun _ _ => rfl) ?_
    rw [← onNext_ite, ← onNext_ite]
    have hmove : ∀ nxt, arriveAt nxt s.block = (arriveAt nxt s).block := fun nxt => by
      unfold arriveAt
      split <;> rfl
    congr 2
    show (match internalIx s.decPtr with
      | some k => .next (arriveAt (s.tree.child k b) s.block)
      | none => .fault .decPtrNotInternal : Result) = _
    cases internalIx s.decPtr with
    | some k => exact congrArg _ (hmove _)
    | none => rfl
  | decEnd =>
    refine gated_map (g := State.block) rfl rfl (fun _ _ => rfl) ?_
    rw [← onNext_ite]
    rfl

/-- What a command does to a block, it does to the same block elsewhere. -/
theorem exec_of_block {i : Instr} {s t u : State} (hb : u.block = s.block) (h : exec i s = .next t) :
    ∃ v, exec i u = .next v ∧ v.block = t.block := by
  have hu := exec_block i u
  rw [hb, exec_block, h, onNext_next] at hu
  obtain ⟨v, hv, hvt⟩ := onNext_eq_next.1 hu.symm
  exact ⟨v, hv, Host.Outcome.next.inj hvt⟩

theorem block_drained (s : State) : s.drained.block = s.block := by
  obtain ⟨b, ps, h⟩ := drained_eq s
  rw [h]
  rfl

/-- The host's write of a command's word does what the command does. -/
theorem hostWrite_of_exec {i : Instr} {s t u : State} (hb : u.block = s.block) (h : exec i s = .next t) :
    ∃ v, hostWrite (writeCommand i) u = .next v ∧ v.block = t.block := by
  obtain ⟨v, hv, hvt⟩ := exec_of_block hb h
  refine ⟨v.finishCommand.drained, ?_, by rw [block_drained, block_finishCommand, hvt]⟩
  rw [hostWrite_command, issue_encode, hv, onNext_next]

theorem hostWrites_of_execAll (is : List Instr) {s t u : State} (hb : u.block = s.block) (h : execAll is s = .next t) :
    ∃ v, hostWrites (is.map writeCommand) u = .next v ∧ v.block = t.block := by
  induction is generalizing s u with
  | nil =>
    cases h
    exact ⟨u, rfl, hb⟩
  | cons i is ih =>
    obtain ⟨s', hs', h⟩ := onNext_eq_next.1 h
    obtain ⟨u', hu', hb'⟩ := hostWrite_of_exec hb hs'
    obtain ⟨v, hv, hvt⟩ := ih hb' h
    refine ⟨v, ?_, hvt⟩
    rw [List.map_cons, hostWrites, hu', onNext_next, hv]

/-- The lines that issue commands do what the commands do. -/
theorem hostActs_commands {p : Pack} {start : Nat} {is : List Instr} {r : HostRun} {s t : State} (hb : r.s.block = s.block)
    (h : execAll is s = .next t) :
    ∃ v, hostActs p start (is.map .command) none r = .done { r with s := v } ∧ v.block = t.block := by
  obtain ⟨v, hv, hvt⟩ := hostWrites_of_execAll is hb h
  have hacts : is.map HostAct.command = (is.map writeCommand).map .write := by
    rw [List.map_map]
    rfl
  exact ⟨v, hacts ▸ hostActs_writes hv, hvt⟩

/-! ## An I/O failure -/

/-- A bus access that ends well has moved the block. -/
theorem access_eq_done {r r' : HostRun} {res : Result} :
    r.access res .done = .done r' ↔ ∃ t, res = .next t ∧ r' = { r with s := t } := by
  cases res with
  | next t => simp [HostRun.access, eq_comm]
  | fault f => simp [HostRun.access]
  | refused f => simp [HostRun.access]

/-- A check that does not abort changes nothing. -/
theorem eq_of_check_done {r r' : HostRun} {format : Option FormatError} (h : r.check format = .done r') : r' = r := by
  unfold HostRun.check at h
  split at h
  · cases h
  · split at h <;> cases h
    rfl

/-- A line that ends well only appends to the streams (10_state.md R34). -/
theorem hostAct_streams {p : Pack} {start : Nat} {r r' : HostRun} {a : HostAct} (h : hostAct p start r a = .done r') :
    r.s.obit <+: r'.s.obit ∧ r.s.osym <+: r'.s.osym := by
  cases a with
  | write w =>
    obtain ⟨t, ht, rfl⟩ := access_eq_done.1 h
    exact hostWrite_streams ht
  | check format =>
    obtain rfl := eq_of_check_done h
    exact ⟨List.prefix_rfl, List.prefix_rfl⟩
  | persistTable =>
    cases h
    exact ⟨List.prefix_rfl, List.prefix_rfl⟩
  | packBits =>
    cases h
    exact ⟨List.prefix_rfl, List.prefix_rfl⟩

/-- The first of the lines of an operation that ends well ends well. -/
theorem hostActs_cons_done {p : Pack} {start : Nat} {a : HostAct} {as : List HostAct} {r r' : HostRun}
    (h : hostActs p start (a :: as) none r = .done r') :
    ∃ q, hostAct p start r a = .done q ∧ hostActs p start as none q = .done r' := by
  rw [hostActs, if_neg (by simp)] at h
  split at h
  · next q hq => exact ⟨q, hq, h⟩
  · next hne => exact absurd h (hne _)

/-- A failure that strikes before a line stops the operation at a state whose streams have only grown. -/
theorem hostActs_fails {p : Pack} {start : Nat} {as : List HostAct} {n : Nat} {r r' : HostRun}
    (h : hostActs p start as none r = .done r') (hn : n < as.length) :
    ∃ q : HostRun, hostActs p start as (some n) r = q.giveUp ∧ r.s.obit <+: q.s.obit ∧ r.s.osym <+: q.s.osym := by
  induction as generalizing n r with
  | nil => simp at hn
  | cons a as ih =>
    cases n with
    | zero => exact ⟨r, if_pos rfl, List.prefix_rfl, List.prefix_rfl⟩
    | succ n =>
      obtain ⟨r1, hr1, hrest⟩ := hostActs_cons_done h
      obtain ⟨ho, hs⟩ := hostAct_streams hr1
      obtain ⟨q, hq, hqo, hqs⟩ := ih hrest (Nat.lt_of_succ_lt_succ hn)
      refine ⟨q, ?_, ho.trans hqo, hs.trans hqs⟩
      rw [hostActs, if_neg (by simp), hr1]
      exact hq

/-- A failure that never strikes changes nothing. -/
theorem hostActs_spared {p : Pack} {start : Nat} {as : List HostAct} {n : Nat} {r r' : HostRun}
    (h : hostActs p start as none r = .done r') (hn : as.length ≤ n) : hostActs p start as (some n) r = .done r' := by
  induction as generalizing n r with
  | nil => exact h
  | cons a as ih =>
    rw [List.length_cons] at hn
    obtain ⟨m, rfl⟩ : ∃ m, n = m + 1 := ⟨n - 1, by omega⟩
    obtain ⟨r1, hr1, hrest⟩ := hostActs_cons_done h
    rw [hostActs, if_neg (by simp), hr1]
    exact ih hrest (Nat.le_of_succ_le_succ hn)

/-- Giving up issues CLEAR (92_eei_decisions.md D30). -/
theorem giveUp_eq (r : HostRun) : ∃ v, r.giveUp = .aborted .ioFailure { r with s := v } ∧ v.block = r.s.cleared.block := by
  obtain ⟨v, hv, hvb⟩ := hostWrite_of_exec rfl (exec_clear r.s)
  exact ⟨v, by rw [HostRun.giveUp, hv, HostRun.access], hvb⟩

theorem encBitcnt_of_block {s t : State} (h : t.block = s.block) : t.encBitcnt = s.encBitcnt :=
  (congrArg State.encBitcnt h :)

/-- Settles O58: the operation stops where the failure strikes, with streams that have only grown, and CLEAR clears the rest. -/
theorem ioFailureAbortsAndClears : Obligations.IoFailureAbortsAndClears := by
  intro p acts n s r h
  refine ⟨fun hn => ?_, hostActs_spared h⟩
  obtain ⟨q, hq, ho, hs⟩ := hostActs_fails h hn
  obtain ⟨v, hv, hvb⟩ := giveUp_eq q
  obtain ⟨hvo, hvs⟩ := streams_of_block hvb
  refine ⟨_, hq.trans hv, phase_of_block hvb, (errors_of_block hvb).1, freq_of_block hvb, encBitcnt_of_block hvb, ?_, ?_⟩
  · exact hvo ▸ ho
  · exact hvs ▸ hs

/-! ## Loading entries -/

/-- Writes ARG and issues FREQ_LOAD for each entry (46_host_interface.md R94), as commands. -/
def execLoad : List (Sym × Word) → State → Result
  | [], s => .next s
  | e :: es, s => onNext (exec (.freqLoad e.1) { s with arg := e.2 }) (execLoad es)

/-- The host's loads do what the commands do. -/
theorem hostLoad_of_execLoad (es : List (Sym × Word)) {s t u : State} (hb : u.block = s.block)
    (h : execLoad es s = .next t) : ∃ v, hostLoad es u = .next v ∧ v.block = t.block := by
  induction es generalizing s u with
  | nil =>
    cases h
    exact ⟨u, rfl, hb⟩
  | cons e es ih =>
    obtain ⟨s', hs', h⟩ := onNext_eq_next.1 h
    have harg : (({ u with arg := e.2 }.respond okRsp).drained).block = ({ s with arg := e.2 } : State).block := by
      rw [block_drained, block_respond]
      exact congrArg (fun b : State => { b with arg := e.2 }) hb
    obtain ⟨u', hu', hb'⟩ := hostWrite_of_exec harg hs'
    obtain ⟨v, hv, hvt⟩ := ih hb' h
    refine ⟨v, ?_, hvt⟩
    rw [hostLoad, loadWrites, List.flatMap_cons, List.cons_append, hostWrites, hostWrite_arg, onNext_next,
      List.singleton_append, hostWrites, hu', onNext_next]
    exact hv

theorem exec_freqLoad_next (x : Sym) (s : State) : ∃ t, exec (.freqLoad x) s = .next t :=
  gated_next fun _ _ => by split_ifs <;> exact ⟨_, rfl⟩

theorem execLoad_next (es : List (Sym × Word)) (s : State) : ∃ t, execLoad es s = .next t := by
  induction es generalizing s with
  | nil => exact ⟨s, rfl⟩
  | cons e es ih =>
    obtain ⟨u, hu⟩ := exec_freqLoad_next e.1 { s with arg := e.2 }
    rw [execLoad, hu]
    exact ih u

/-- FREQ_LOAD leaves no error only by storing ARG for an absent symbol (41_tabulator.md R71). -/
theorem exec_freqLoad_completed {x : Sym} {s t : State} (h : exec (.freqLoad x) s = .next t) (ht : t.err = .none) :
    s.err = .none ∧ s.phase = .collect ∧ s.arg ≠ 0#32 ∧ s.freqAt x = 0#32 ∧ s.total + s.arg.toNat ≤ Config.totalMax ∧
      t = s.setFreq x s.arg := by
  have he := err_none_of_exec (by simp) h ht
  have hp : s.phase = .collect := by
    by_contra hne
    cases (exec_illegal (.freqLoad x) s he (by simpa [legalIn] using hne)).symm.trans h
    cases ht
  have h0 : s.arg ≠ 0#32 := fun h0 => by
    cases (exec_freqLoad_badCount he hp h0).symm.trans h
    cases ht
  have hx : s.freqAt x = 0#32 := by
    by_contra hx
    cases (exec_freqLoad_duplicate he hp h0 hx).symm.trans h
    cases ht
  have hfit : s.total + s.arg.toNat ≤ Config.totalMax := by
    by_contra hf
    cases (exec_freqLoad_overflow he hp h0 hx (Nat.not_le.1 hf)).symm.trans h
    cases ht
  cases (exec_freqLoad_run he hp h0 hx hfit).symm.trans h
  exact ⟨he, hp, h0, hx, hfit, rfl⟩

/-- When entries load on top of a table: each for a symbol of its own that the table lacks, and all counts fit. None of it
depends on their order (41_tabulator.md R71). -/
structure LoadsInto (f : Vector Word 256) (es : List (Sym × Word)) : Prop where
  distinct : (es.map Prod.fst).Nodup
  counted : ∀ e ∈ es, e.2 ≠ 0#32
  absent : ∀ e ∈ es, symGet f e.1 = 0#32
  fits : totalOf f + (es.map (fun e => e.2.toNat)).sum ≤ Config.totalMax

/-- The table with the entries stored. -/
def loadTable (f : Vector Word 256) (es : List (Sym × Word)) : Vector Word 256 :=
  es.foldl (fun g e => symSet g e.1 e.2) f

/-- Entries load when the first does and the rest load on top of it. -/
theorem loadsInto_cons {f : Vector Word 256} {e : Sym × Word} {es : List (Sym × Word)} :
    LoadsInto f (e :: es) ↔ (e.2 ≠ 0#32 ∧ symGet f e.1 = 0#32 ∧ totalOf f + e.2.toNat ≤ Config.totalMax) ∧
      LoadsInto (symSet f e.1 e.2) es := by
  constructor
  · rintro ⟨hn, hc, ha, hf⟩
    obtain ⟨hnew, hn⟩ := List.nodup_cons.1 hn
    obtain ⟨hc1, hc⟩ := List.forall_mem_cons.1 hc
    obtain ⟨ha1, ha⟩ := List.forall_mem_cons.1 ha
    rw [List.map_cons, List.sum_cons] at hf
    refine ⟨⟨hc1, ha1, by omega⟩, hn, hc, fun d hd => ?_, by rw [totalOf_freqLoad f e.1 e.2 ha1]; omega⟩
    rw [symGet_symSet_ne f _ fun heq : d.1 = e.1 => hnew (heq ▸ List.mem_map_of_mem hd), ha d hd]
  · rintro ⟨⟨hc1, ha1, -⟩, hn, hc, ha, hf⟩
    have hnew : ∀ d ∈ es, d.1 ≠ e.1 := fun d hd heq => hc1 (by simpa [heq] using ha d hd)
    rw [totalOf_freqLoad f e.1 e.2 ha1] at hf
    refine ⟨List.nodup_cons.2 ⟨fun hmem => ?_, hn⟩, List.forall_mem_cons.2 ⟨hc1, hc⟩,
      List.forall_mem_cons.2 ⟨ha1, fun d hd => ?_⟩, by rw [List.map_cons, List.sum_cons]; omega⟩
    · obtain ⟨d, hd, heq⟩ := List.mem_map.1 hmem
      exact hnew d hd heq
    · rw [← symGet_symSet_ne f e.2 (hnew d hd), ha d hd]

theorem loadsInto_nil {f : Vector Word 256} (h : totalOf f ≤ Config.totalMax) : LoadsInto f [] where
  distinct := List.nodup_nil
  counted := fun _ hd => absurd hd List.not_mem_nil
  absent := fun _ hd => absurd hd List.not_mem_nil
  fits := by simpa using h

/-- Entries that load give the table with them stored. -/
theorem execLoad_run (es : List (Sym × Word)) {s : State} (he : s.err = .none) (hp : s.phase = .collect)
    (h : LoadsInto s.freq es) : ∃ a, execLoad es s = .next { s with freq := loadTable s.freq es, arg := a } := by
  induction es generalizing s with
  | nil => exact ⟨s.arg, rfl⟩
  | cons e es ih =>
    obtain ⟨⟨h0, hx, hfit⟩, hrest⟩ := loadsInto_cons.1 h
    have hrun := exec_freqLoad_run (x := e.1) (s := { s with arg := e.2 }) he hp h0 hx hfit
    obtain ⟨a, ha⟩ := ih (s := State.setFreq { s with arg := e.2 } e.1 e.2) he hp hrest
    exact ⟨a, by rw [execLoad, hrun, onNext_next]; exact ha⟩

/-- Loads that leave no error found none. -/
theorem err_none_of_execLoad (es : List (Sym × Word)) {s t : State} (h : execLoad es s = .next t) (ht : t.err = .none) :
    s.err = .none := by
  induction es generalizing s with
  | nil =>
    cases h
    exact ht
  | cons e es ih =>
    obtain ⟨u, hu, h⟩ := onNext_eq_next.1 h
    exact (exec_freqLoad_completed hu (ih h)).1

/-- Loads that leave no error, if there are any, are issued in COLLECT with entries that load. -/
theorem loadsInto_of_execLoad (es : List (Sym × Word)) {s t : State} (h : execLoad es s = .next t) (ht : t.err = .none) :
    es = [] ∨ (s.phase = .collect ∧ LoadsInto s.freq es) := by
  induction es generalizing s with
  | nil => exact .inl rfl
  | cons e es ih =>
    obtain ⟨u, hu, h⟩ := onNext_eq_next.1 h
    obtain ⟨-, hp, h0, hx, hfit, rfl⟩ := exec_freqLoad_completed hu (err_none_of_execLoad es h ht)
    have hrest : LoadsInto (symSet s.freq e.1 e.2) es := by
      rcases ih h with rfl | ⟨-, hrest⟩
      · exact loadsInto_nil ((totalOf_freqLoad s.freq e.1 e.2 hx).trans_le hfit)
      · exact hrest
    exact .inr ⟨hp, loadsInto_cons.2 ⟨⟨h0, hx, hfit⟩, hrest⟩⟩

/-- Whether entries load does not depend on their order. -/
theorem LoadsInto.perm {f : Vector Word 256} {es es' : List (Sym × Word)} (h : LoadsInto f es) (hp : es.Perm es') :
    LoadsInto f es' where
  distinct := (hp.map Prod.fst).nodup h.distinct
  counted := fun e he => h.counted e (hp.mem_iff.2 he)
  absent := fun e he => h.absent e (hp.mem_iff.2 he)
  fits := (hp.map (fun e => e.2.toNat)).sum_eq ▸ h.fits

/-- Entries for different symbols give the same table in any order. -/
theorem loadTable_perm {f : Vector Word 256} {es es' : List (Sym × Word)} (hn : (es.map Prod.fst).Nodup)
    (hp : es.Perm es') : loadTable f es = loadTable f es' := by
  refine hp.foldl_eq' (fun e he e' he' g => symVector_ext fun x => ?_) f
  have hsame : e.1 = e'.1 → e = e' := List.inj_on_of_nodup_map hn he he'
  simp only [symGet_symSet]
  split_ifs with h1 h2
  · rw [hsame (h2.symm.trans h1)]
  · rfl
  · rfl
  · rfl

/-- Settles O15: whether the entries load does not depend on their order, nor does the table they give. -/
theorem freqLoadOrderDoesNotMatter : Obligations.FreqLoadOrderDoesNotMatter := by
  intro es es' s t hperm he h ht
  obtain ⟨t0, ht0⟩ := execLoad_next es s
  obtain ⟨v, hv, hvb⟩ := hostLoad_of_execLoad es rfl ht0
  obtain rfl : v = t := Host.Outcome.next.inj (hv.symm.trans h)
  have he0 : t0.err = .none := (errors_of_block hvb).1.symm.trans ht
  rcases loadsInto_of_execLoad es ht0 he0 with rfl | ⟨hp, hload⟩
  · cases hperm.nil_eq
    exact ⟨_, h, ht, rfl⟩
  · obtain ⟨a, ha⟩ := execLoad_run es he hp hload
    obtain ⟨a', ha'⟩ := execLoad_run es' he hp (hload.perm hperm)
    obtain ⟨v', hv', hvb'⟩ := hostLoad_of_execLoad es' rfl ha'
    cases Host.Outcome.next.inj (ha.symm.trans ht0)
    refine ⟨v', hv', (errors_of_block hvb').1.trans he, ?_⟩
    rw [freq_of_block hvb', freq_of_block hvb]
    exact (loadTable_perm hload.distinct hperm).symm

end Sys2Proof.Machine
end

section
/-! The host's encode and decode (46_host_interface.md R95, R96), line by line: encode aborts exactly on a byte it did not
tabulate, and decode gives back what encode was given (45_decoder.md R87). -/

namespace Sys2Proof.Machine

/-! ## The lines of both operations, as runs of commands between checks -/

theorem encodeActs_eq (pass1 pass2 : List Byte) :
    encodeActs pass1 pass2 = (.clear :: pass1.map .tabSym).map .command ++ .check none :: .persistTable ::
      ((.buildTree :: .deriveCodes :: pass2.map .encSym).map .command ++ [.check none, .packBits]) := by
  simp [encodeActs, Function.comp_def]

theorem decodeActs_eq (es : List (Sym × Word)) (bits : List Bool) :
    decodeActs ⟨es, none⟩ bits = (writeCommand .clear :: loadWrites es).map .write ++ .check none ::
      ((.buildTree :: (bits.map .decBit ++ [.decEnd])).map .command ++ [.check none]) := by
  simp [decodeActs, Function.comp_def, HostAct.command]

theorem hostActs_check_none {p : Pack} {start : Nat} {r : HostRun} (h : r.s.err = .none) (as : List HostAct) :
    hostActs p start (.check none :: as) none r = hostActs p start as none r := by
  have hread : memRead r.s errAddr = 0#32 := memRead_err h
  have hcheck : hostAct p start r (.check none) = .done r := if_neg (not_not.2 hread)
  rw [hostActs, if_neg (by simp), hcheck]
  rfl

theorem hostActs_check_missingCode {p : Pack} {start : Nat} {r : HostRun} (h : r.s.err = .missingCode) (as : List HostAct) :
    hostActs p start (.check none :: as) none r = .aborted (.coreError 6#32) r := by
  have hread : memRead r.s errAddr = 6#32 := memRead_err h
  have hcheck : hostAct p start r (.check none) = .aborted (.coreError 6#32) r := by
    rw [hostAct, HostRun.check, hread]
    exact if_pos (by decide)
  rw [hostActs, if_neg (by simp), hcheck]

theorem hostActs_persistTable {p : Pack} {start : Nat} {r : HostRun} (as : List HostAct) :
    hostActs p start (.persistTable :: as) none r = hostActs p start as none { r with table := some (persist r.s) } := rfl

/-- Lines that issue commands, followed by others. -/
theorem hostActs_commands_append {p : Pack} {start : Nat} {is : List Instr} {r : HostRun} {s t : State}
    (hb : r.s.block = s.block) (h : execAll is s = .next t) (as : List HostAct) :
    ∃ v, hostActs p start (is.map .command ++ as) none r = hostActs p start as none { r with s := v } ∧ v.block = t.block := by
  obtain ⟨v, hv, hvb⟩ := hostActs_commands hb h
  exact ⟨v, hostActs_append hv as, hvb⟩

/-! ## Pass 1 -/

/-- CLEAR and TAB_SYM of a stream: the counts of the stream alone (41_tabulator.md R73). -/
theorem execAll_pass1 (xs : List Byte) (s : State) (h : xs.length ≤ 2 ^ 32 - 1) :
    ∃ t, execAll (.clear :: xs.map .tabSym) s = .next t ∧ s.cleared.CountsStream xs t := by
  have hfit : s.cleared.total + xs.length ≤ Config.totalMax := by
    rw [show s.cleared.total = 0 from totalOf_zero, Nat.zero_add]
    exact h
  exact execAll_tabSym xs rfl rfl hfit

section
variable {s t : State} {xs : List Byte} (h : s.cleared.CountsStream xs t)
include h

theorem State.CountsStream.count_of_cleared (x : Sym) : (t.freqAt x).toNat = xs.count x := by
  rw [h.freqAt, cleared_freqAt]
  exact Nat.zero_add _

theorem State.CountsStream.present_iff (x : Sym) : t.freqAt x ≠ 0#32 ↔ x ∈ xs := by
  rw [← List.count_pos_iff, ← h.count_of_cleared, Nat.pos_iff_ne_zero]
  exact (BitVec.toNat_inj (y := 0#32)).not.symm

theorem State.CountsStream.totalOf_of_cleared : totalOf t.freq = xs.length := by
  have htotal : totalOf t.freq = totalOf s.cleared.freq + xs.length := h.total
  rw [htotal, show totalOf s.cleared.freq = 0 from totalOf_zero, Nat.zero_add]

theorem State.CountsStream.err_of_cleared : t.err = .none := congrArg State.err h.frame

theorem State.CountsStream.phase_of_cleared : t.phase = .collect := congrArg State.phase h.frame

/-- The persisted table of the stream lists its bytes with their counts (46_host_interface.md R92). -/
theorem State.CountsStream.mem_persisted_iff (x : Sym) (c : Word) :
    (x, c) ∈ (parseTable (persist t)).entries ↔ x ∈ xs ∧ c.toNat = xs.count x := by
  rw [persistedTableReadsBack, ← h.present_iff, ← h.count_of_cleared, BitVec.toNat_inj]
  simp [State.freqAt, eq_comm]

end

/-! ## Building the tree and its codes -/

/-- The state after BUILD_TREE (42_tree_builder.md R76). -/
def State.treeBuilt (s : State) : State :=
  { s.setTree (buildTree s.freq) with decPtr := (buildTree s.freq).root, phase := .tree }

/-- The state after BUILD_TREE and DERIVE_CODES, where the tree gives the table `c` (43_code_deriver.md R79). -/
def State.codesDerived (s : State) (c : CodeTable) : State := { s.treeBuilt.setCodes c with phase := .coded }

theorem execAll_treeBuilt {s : State} (he : s.err = .none) (hp : s.phase = .collect) (is : List Instr) :
    execAll (.buildTree :: is) s = execAll is s.treeBuilt := by
  rw [execAll, exec_buildTree_run he hp]
  rfl

theorem execAll_codesDerived {s : State} {c : CodeTable} (he : s.err = .none) (hp : s.phase = .collect)
    (hc : deriveCodes (buildTree s.freq) = some c) (is : List Instr) :
    execAll (.buildTree :: .deriveCodes :: is) s = execAll is (s.codesDerived c) := by
  rw [execAll_treeBuilt he hp, execAll, exec_deriveCodes_run (s := s.treeBuilt) he rfl hc]
  rfl

/-! ## Pass 2 -/

/-- Once an error is recorded the rest of a stream is discarded (60_exceptions.md R99). -/
theorem execAll_encSym_discard (xs : List Sym) {s : State} (h : s.err ≠ .none) : execAll (xs.map .encSym) s = .next s := by
  induction xs with
  | nil => rfl
  | cons x xs ih => rw [List.map_cons, execAll, exec_discard _ (by simp) (by simp) s h, onNext_next, ih]

/-- A stream with a symbol that has no code leaves MISSING_CODE (44_encoder.md R81). -/
theorem execAll_encSym_missing (xs : List Sym) {s : State} (he : s.err = .none) (hp : s.phase = .coded)
    (h : ∃ x ∈ xs, symGet s.codeLen x = 0#8) : ∃ t, execAll (xs.map .encSym) s = .next t ∧ t.err = .missingCode := by
  induction xs generalizing s with
  | nil => simp at h
  | cons x xs ih =>
    rw [List.map_cons, execAll]
    by_cases hx : symGet s.codeLen x = 0#8
    · rw [exec_encSym_missing he hp hx, onNext_next, execAll_encSym_discard xs (by simp [State.captured])]
      exact ⟨_, rfl, rfl⟩
    · rw [exec_encSym_emitCounted he hp hx]
      obtain ⟨y, hy, hy0⟩ := h
      rcases List.mem_cons.1 hy with rfl | hy
      · exact absurd hy0 hx
      · exact ih (s := s.emitCounted (s.code x)) he hp ⟨y, hy, hy0⟩

theorem length_flatMap_code_le (c : CodeTable) (xs : List Sym) : (xs.flatMap c.code).length ≤ xs.length * 255 := by
  induction xs with
  | nil => simp
  | cons x xs ih =>
    have hx := (symGet c.len x).isLt
    have hcode : (c.code x).length = (symGet c.len x).toNat := by simp [CodeTable.code]
    rw [List.flatMap_cons, List.length_append, List.length_cons]
    omega

/-! ## Encode -/

/-- Encode up to its last check: the table of pass 1 is persisted, and pass 2 has run from the codes of that table. -/
theorem hostEncode_eq (p : Pack) {pass1 pass2 : List Byte} {s t w : State} {c : CodeTable}
    (hrun : execAll (.clear :: pass1.map .tabSym) s = .next t) (ht : s.cleared.CountsStream pass1 t)
    (hc : deriveCodes (buildTree t.freq) = some c) (hw : execAll (pass2.map .encSym) (t.codesDerived c) = .next w) :
    ∃ v, hostEncode p pass1 pass2 none s =
      hostActs p s.obit.length [.check none, .packBits] none ⟨v, some (persist t), none⟩ ∧ v.block = w.block := by
  have hw' := (execAll_codesDerived ht.err_of_cleared ht.phase_of_cleared hc (pass2.map .encSym)).trans hw
  obtain ⟨u, hu, hub⟩ := hostActs_commands_append (p := p) (start := s.obit.length) (r := ⟨s, none, none⟩) rfl hrun
    (.check none :: .persistTable ::
      ((.buildTree :: .deriveCodes :: pass2.map .encSym).map .command ++ [.check none, .packBits]))
  obtain ⟨v, hv, hvb⟩ := hostActs_commands_append (p := p) (start := s.obit.length) (r := ⟨u, some (persist u), none⟩) hub hw'
    [.check none, .packBits]
  have hue : u.err = .none := (errors_of_block hub).1.trans ht.err_of_cleared
  have hpersist : persist u = persist t := by rw [persist_eq, persist_eq, freq_of_block hub]
  refine ⟨v, ?_, hvb⟩
  rw [hostEncode, hostRun, encodeActs_eq, hu, hostActs_check_none hue, hostActs_persistTable, hv, hpersist]

/-- Where pass 2 reads only bytes of pass 1, encode outputs their codes, packed and counted (46_host_interface.md R95). -/
theorem hostEncode_done (p : Pack) {pass1 pass2 : List Byte} {s t : State} {c : CodeTable}
    (hrun : execAll (.clear :: pass1.map .tabSym) s = .next t) (ht : s.cleared.CountsStream pass1 t)
    (hc : deriveCodes (buildTree t.freq) = some c) (hsub : ∀ x ∈ pass2, x ∈ pass1) :
    ∃ v, hostEncode p pass1 pass2 none s = .done ⟨v, some (persist t),
      some (p.pack (pass2.flatMap c.code), (pass2.flatMap c.code).length % 2 ^ 64)⟩ := by
  have hcoded : ∀ x ∈ pass2, symGet c.len x ≠ 0#8 := fun x hx =>
    (derived_len t.freq c hc x).1.2 ((ht.present_iff x).2 (hsub x hx))
  have hw := execAll_encSym pass2 (s := t.codesDerived c) ht.err_of_cleared rfl hcoded
  obtain ⟨v, hv, hvb⟩ := hostEncode_eq p hrun ht hc hw
  have hobit : v.obit = s.obit ++ pass2.flatMap c.code := by
    have hstart : t.obit = s.obit := (congrArg State.obit ht.frame :)
    rw [(streams_of_block hvb).1, State.emitCounted_obit, ← hstart]
    rfl
  have hcount : bitCount v = (pass2.flatMap c.code).length % 2 ^ 64 := by
    have hstart : t.encBitcnt = 0#64 := (congrArg State.encBitcnt ht.frame :)
    rw [bitCount_eq, encBitcnt_of_block hvb]
    refine (State.toNat_emitCounted_encBitcnt _ _).trans ?_
    rw [show (t.codesDerived c).encBitcnt = 0#64 from hstart]
    simp only [BitVec.toNat_ofNat, Nat.zero_mod, Nat.zero_add]
    rfl
  refine ⟨v, ?_⟩
  rw [hv, hostActs_check_none ((errors_of_block hvb).1.trans ht.err_of_cleared)]
  show HostOutcome.done ⟨v, some (persist t), some (p.pack (v.obit.drop s.obit.length), bitCount v)⟩ = _
  rw [hobit, List.drop_left, hcount]

/-- Where pass 2 reads a byte that pass 1 did not, the check after it aborts (46_host_interface.md R95). -/
theorem hostEncode_aborted (p : Pack) {pass1 pass2 : List Byte} {s t : State} {c : CodeTable}
    (hrun : execAll (.clear :: pass1.map .tabSym) s = .next t) (ht : s.cleared.CountsStream pass1 t)
    (hc : deriveCodes (buildTree t.freq) = some c) (hnew : ∃ x ∈ pass2, x ∉ pass1) :
    ∃ v, hostEncode p pass1 pass2 none s = .aborted (.coreError 6#32) ⟨v, some (persist t), none⟩ := by
  obtain ⟨x, hx, hx1⟩ := hnew
  have hx0 : symGet c.len x = 0#8 := by
    by_contra hl
    exact hx1 ((ht.present_iff x).1 ((derived_len t.freq c hc x).1.1 hl))
  obtain ⟨w, hw, hwe⟩ := execAll_encSym_missing pass2 (s := t.codesDerived c) ht.err_of_cleared rfl ⟨x, hx, hx0⟩
  obtain ⟨v, hv, hvb⟩ := hostEncode_eq p hrun ht hc hw
  exact ⟨v, hv.trans (hostActs_check_missingCode ((errors_of_block hvb).1.trans hwe) _)⟩

/-- Settles O57: the codes of the table are those of pass 1's bytes. -/
theorem encodeAbortsOnAByteNotTabulated : Obligations.EncodeAbortsOnAByteNotTabulated := by
  intro p pass1 pass2 s hlen _ _
  obtain ⟨t, hrun, ht⟩ := execAll_pass1 pass1 s hlen
  obtain ⟨c, hc⟩ := deriveCodes_buildTree_isSome t.freq
  constructor
  · intro hnew
    obtain ⟨v, hv⟩ := hostEncode_aborted p hrun ht hc hnew
    exact ⟨_, _, hv, rfl, rfl, ht.mem_persisted_iff⟩
  · intro hsub
    obtain ⟨v, hv⟩ := hostEncode_done p hrun ht hc hsub
    exact ⟨_, hv⟩

/-! ## Decode -/

/-- What a symbol's count is once the counts `g` of the symbols `xs` are stored. -/
theorem symGet_loadTable (f : Vector Word 256) (g : Sym → Word) (xs : List Sym) (y : Sym) :
    symGet (loadTable f (xs.map (fun x => (x, g x)))) y = if y ∈ xs then g y else symGet f y := by
  induction xs generalizing f with
  | nil => rfl
  | cons x xs ih =>
    have hstep : loadTable f ((x :: xs).map (fun x => (x, g x))) =
        loadTable (symSet f x (g x)) (xs.map (fun x => (x, g x))) := rfl
    rw [hstep, ih, symGet_symSet]
    by_cases hyx : y = x
    · simp [hyx]
    · simp [hyx]

/-- Loading the entries of a table into an empty one gives the table. -/
theorem loadTable_tableEntries (f : Vector Word 256) : loadTable (Vector.replicate 256 0#32) (tableEntries f) = f := by
  refine symVector_ext fun y => ?_
  rw [tableEntries, symGet_loadTable, symGet_replicate]
  split
  · rfl
  · next hy => exact (by simpa using hy : symGet f y = 0#32).symm

/-- The entries of a table load into an empty one. -/
theorem loadsInto_tableEntries {f : Vector Word 256} (h : totalOf f ≤ Config.totalMax) :
    LoadsInto (Vector.replicate 256 0#32) (tableEntries f) where
  distinct := map_fst_tableEntries f ▸ nodup_presentSyms f
  counted := fun e he => by
    obtain ⟨x, hx, rfl⟩ := List.mem_map.1 he
    exact (mem_presentSyms f x).1 hx
  absent := fun e _ => symGet_replicate _ e.1
  fits := by
    rw [totalOf_zero, Nat.zero_add, tableEntries, List.map_map]
    exact (totalOf_eq_present f).ge.trans h

/-- CLEAR and the loads of a persisted table give the table back (46_host_interface.md R96). -/
theorem hostWrites_load {f : Vector Word 256} (h : totalOf f ≤ Config.totalMax) (s : State) :
    ∃ a u, hostWrites (writeCommand .clear :: loadWrites (tableEntries f)) s = .next u ∧
      u.block = ({ s.cleared with freq := f, arg := a } : State).block := by
  obtain ⟨a, ha⟩ := execLoad_run (tableEntries f) (s := s.cleared) rfl rfl (loadsInto_tableEntries h)
  rw [show s.cleared.freq = Vector.replicate 256 0#32 from rfl, loadTable_tableEntries] at ha
  obtain ⟨v, hv, hvb⟩ := hostWrite_of_exec rfl (exec_clear s)
  obtain ⟨u, hu, hub⟩ := hostLoad_of_execLoad _ hvb ha
  exact ⟨a, u, by rw [hostWrites, hv, onNext_next, ← hu]; rfl, hub⟩

/-- From a table alone, BUILD_TREE, the codes of a stream of its symbols and DEC_END hand out the stream (45_decoder.md
R87). -/
theorem execAll_decode {s : State} {c : CodeTable} {xs : List Sym} (he : s.err = .none) (hp : s.phase = .collect)
    (hc : deriveCodes (buildTree s.freq) = some c) (hxs : ∀ x ∈ xs, s.freqAt x ≠ 0#32) :
    execAll (.buildTree :: ((xs.flatMap c.code).map .decBit ++ [.decEnd])) s =
      .next { s.treeBuilt with osym := s.osym ++ xs } := by
  have hcodes := execAll_codes xs (s := s.treeBuilt) he (by simp [State.treeBuilt]) rfl rfl hc hxs
  have hend := exec_decEnd_run (s := { s.treeBuilt with osym := s.treeBuilt.osym ++ xs }) he (by simp [State.treeBuilt]) rfl
  rw [execAll_treeBuilt he hp, execAll_append, hcodes, onNext_next, execAll, hend]
  rfl

/-- Decode of a persisted table and the codes of a stream of its symbols hands out the stream (46_host_interface.md R96). -/
theorem hostDecode_done (p : Pack) {input : List Byte} {t : State} {c : CodeTable} {xs : List Sym} (s : State)
    (htotal : totalOf t.freq ≤ Config.totalMax) (hc : deriveCodes (buildTree t.freq) = some c)
    (hxs : ∀ x ∈ xs, t.freqAt x ≠ 0#32) (hbits : p.unpack input = xs.flatMap c.code) :
    ∃ r, hostDecode p input (persist t) none s = .done r ∧ r.s.osym = s.osym ++ xs := by
  obtain ⟨a, u, hu, hub⟩ := hostWrites_load htotal s
  have hdecode := execAll_decode (s := { s.cleared with freq := t.freq, arg := a }) rfl rfl hc hxs
  obtain ⟨v, hv, hvb⟩ := hostActs_commands_append (p := p) (start := s.obit.length) (r := ⟨u, none, none⟩) hub hdecode
    [.check none]
  have hparse : parseTable (persist t) = ⟨tableEntries t.freq, none⟩ := persistedTableReadsBack t
  refine ⟨⟨v, none, none⟩, ?_, (streams_of_block hvb).2⟩
  rw [hostDecode, hostRun, hparse, hbits, decodeActs_eq, hostActs_append (hostActs_writes (r := ⟨s, none, none⟩) hu),
    hostActs_check_none (errors_of_block hub).1, hv, hostActs_check_none (errors_of_block hvb).1, hostActs]

/-- Settles O56: decode loads the table that encode persisted, so both run with the same tree and codes. -/
theorem encodeThenDecodeReproducesTheInput : Obligations.EncodeThenDecodeReproducesTheInput := by
  intro p input s hpack hlen _ _
  obtain ⟨t, hrun, ht⟩ := execAll_pass1 input s hlen
  obtain ⟨c, hc⟩ := deriveCodes_buildTree_isSome t.freq
  obtain ⟨v, hv⟩ := hostEncode_done p hrun ht hc (fun _ hx => hx)
  have hbits := length_flatMap_code_le c input
  refine ⟨_, _, _, _, hv, rfl, rfl, ?_, fun s' _ _ => ?_⟩
  · rw [hpack, Nat.mod_eq_of_lt (by omega)]
  · exact hostDecode_done p s' (ht.totalOf_of_cleared.trans_le hlen) hc (fun x hx => (ht.present_iff x).2 hx) (hpack _)

end Sys2Proof.Machine
end
